-- ==== Sys2Proof/Word.lean ====
section
/-! DEFINITION. The two word types of the CORE: the 32-bit word of the host port and of commands, and the
container of a WideInt. -/

namespace Sys2Proof

/-- A 32-bit word: a command word (30_encoding.md R80) or one word on the host port (20_memory.md R52). -/
abbrev Word32 := BitVec 32

/-- The container of one W-bit WideInt (40_wideint.md R100). It is 256 bits wide in both configurations: every
W-bit slot is 32 bytes long whatever W is (20_memory.md R51). For W = 64 the values are below `2 ^ 64` by the
invariant `Sys2Proof.MachineInv`. DESIGN CHOICE, log entry 4. -/
abbrev WideInt := BitVec 256

end Sys2Proof
end

