-- ==== Sys2Proof/Config.lean ====
section
/-! DEFINITION. What an implementation fixes (00_scope.md R7) and the free values the spec leaves open. -/

namespace Sys2Proof

/-- The two legal values of the parameter `W` (00_scope.md R7). -/
inductive Width where
  | w64
  | w256
  deriving DecidableEq, Repr

/-- The configuration record of 00_scope.md R7: its two open parameters. `NS`, `NF`, `NP` are fixed there (8, 8, 4)
and stand in the types of the register files; `NW`, `MAX` and `HASCURVE` are derived from `W`. -/
structure Cfg where
  width : Width
  exp0  : Bool
  deriving DecidableEq, Repr

/-- `W`, the width of WideInt in bits. -/
def Cfg.W (c : Cfg) : Nat :=
  match c.width with
  | .w64 => 64
  | .w256 => 256

/-- `NW = W / 32`, words per WideInt on the host port. -/
def Cfg.NW (c : Cfg) : Nat := c.W / 32

/-- `MAX = 2^W - 1`, the source's "MAX_VALUE". -/
def Cfg.MAX (c : Cfg) : Nat := 2 ^ c.W - 1

/-- `EXP0`, the value MODEXP returns when the reduced exponent is zero (45_field_exp.md R191). -/
def Cfg.EXP0 (c : Cfg) : Nat := c.exp0.toNat

/-- `HASCURVE`: the curve commands, the P file and the domain constants exist exactly when `W = 256`. -/
def Cfg.hasCurve (c : Cfg) : Bool :=
  match c.width with
  | .w64 => false
  | .w256 => true

/-- The instance of 00_scope.md R7: `W = 256`, `EXP0 = 0`. -/
def Cfg.thisHardware : Cfg := { width := .w256, exp0 := false }

/-- FREE VALUE: the word a host read returns where the spec calls the value unspecified (20_memory.md R57). The
argument is the number of the draw, so that two reads need not agree. Log entry 2. -/
opaque Config.freeWord : Nat → Word32

end Sys2Proof
end

