-- ==== Sys2Proof/Machine/WideInt.lean ====
section
/-! DEFINITION. The WideInt primitives of 40_wideint.md R101 to R106, on the integers the W-bit values denote
(00_scope.md R12); results are narrowed to W bits where the rule says so. Comparisons (R105) are those of `Nat`. -/

namespace Sys2Proof.Machine

/-- R101: sum modulo `2^W` and carry. -/
def oadd (W a b : Nat) : Nat × Bool := ((a + b) % 2 ^ W, decide (2 ^ W ≤ a + b))

/-- R102: difference modulo `2^W` and borrow. -/
def osub (W a b : Nat) : Nat × Bool := ((a + 2 ^ W - b) % 2 ^ W, decide (a < b))

/-- R103: right shift. -/
def shr (a k : Nat) : Nat := a / 2 ^ k

/-- R103: left shift, the bits leaving the top lost. -/
def shl (W a k : Nat) : Nat := a * 2 ^ k % 2 ^ W

/-- R104: bit `i`. -/
def bitAt (a i : Nat) : Bool := decide (a / 2 ^ i % 2 = 1)

/-- R106: the reducer RED, `a mod b`. No rule calls it with `b = 0`; log entry 10. -/
def red (a b : Nat) : Nat := a % b

/-- The container of an integer. -/
def toWide (n : Nat) : WideInt := BitVec.ofNat 256 n

end Sys2Proof.Machine
end

