-- ==== Sys2Proof/Machine/Primality.lean ====
section
/-! DEFINITION. The Miller-Rabin unit MRP (41_primality.md R120 to R127): `is_prime` by its algorithm, on naturals
(40_wideint.md R107). The loops carry fuel bounded by the bit length of their argument; log entry 9. -/

namespace Sys2Proof.Machine

/-- Right-to-left binary ladder for `acc * x^d mod n` (R127: how the power is computed is not visible). -/
def powModLoop (n : Nat) : Nat → Nat → Nat → Nat → Nat
  | 0, _, acc, _ => acc
  | fuel + 1, d, acc, x =>
    if d = 0 then acc
    else powModLoop n fuel (d / 2) (if d % 2 = 1 then acc * x % n else acc) (x * x % n)

/-- `a^d mod n`, the remainder of the true power (R124, R127). -/
def powMod (a d n : Nat) : Nat := powModLoop n (d.log2 + 1) d (1 % n) (a % n)

def tzLoop : Nat → Nat → Nat
  | 0, _ => 0
  | fuel + 1, n => if n % 2 = 0 then tzLoop fuel (n / 2) + 1 else 0

/-- `tz(n)` for `n > 0`: the number of trailing zero bits (00_scope.md R13). -/
def tz (n : Nat) : Nat := tzLoop n.log2 n

def clog10Loop (n : Nat) : Nat → Nat → Nat
  | 0, c => c
  | fuel + 1, c => if n ≤ 10 ^ c then c else clog10Loop n fuel (c + 1)

/-- `clog10(n)`: the least `c` with `10^c >= n` (R123). -/
def clog10 (n : Nat) : Nat := clog10Loop n (n.log2 + 1) 0

/-- The consecutive bases `2, 3, ..., k + 1`, where `k = clog10(n) + 1` is their number (R123). -/
def witnessBases (n : Nat) : List Nat := (List.range (clog10 n + 1)).map (· + 2)

/-- The repeat body of R124, at most `fuel` squarings: `n - 1` is tested before `1`. -/
def squareLoop (n : Nat) : Nat → Nat → Bool
  | 0, _ => false
  | fuel + 1, x =>
    let y := x * x % n
    if y = n - 1 then true
    else if y = 1 then false
    else squareLoop n fuel y

/-- Whether base `a` passes, with `n - 1 = 2^s * d` (R124). -/
def basePasses (n s d a : Nat) : Bool :=
  let x := powMod a d n
  if x = 1 ∨ x = n - 1 then true else squareLoop n (s - 1) x

/-- `is_prime(n)`: the trivial cases R121, the decomposition R122, the bases R123, the verdict R125. -/
def isPrime (n : Nat) : Bool :=
  if n < 2 then false
  else if n = 2 ∨ n = 3 ∨ n = 5 then true
  else if n % 2 = 0 then false
  else
    let s := tz (n - 1)
    let d := (n - 1) / 2 ^ s
    (witnessBases n).all (basePasses n s d)

end Sys2Proof.Machine
end

