-- ==== Sys2Proof/Machine/State.lean ====
section
/-! DEFINITION. The state of the CORE (10_state.md R20 to R29), the host's side of the one port, the reasons a step
can stop, and the state after reset (R38). -/

namespace Sys2Proof.Machine

/-- The error kinds of 60_exceptions.md R270 (code 0, `None`, is the absence of one). -/
inductive ErrorKind where
  /-- modulus failed the primality test -/
  | notPrime
  /-- operands' moduli differ -/
  | fieldMismatch
  /-- a point does not belong to the expected curve's field -/
  | curveMismatch
  /-- reserved placeholder, never raised (R273) -/
  | notImplemented
  /-- inversion of, or division by, the zero element -/
  | notInvertible
  /-- the command word matches no row of the opcode map -/
  | illegalCommand
  /-- a source register named by the command is invalid -/
  | uninit
  deriving DecidableEq, Repr

/-- A field element `(v, m)`: value and modulus (10_state.md R22, 42_field_construct.md R140). -/
structure FieldElement where
  v : WideInt
  m : WideInt
  deriving DecidableEq, Repr

/-- A point: two field elements, each with its own modulus (10_state.md R23, 46_point_construct.md R210). -/
structure Point where
  x : FieldElement
  y : FieldElement
  deriving DecidableEq, Repr

/-- A scalar register (10_state.md R21): word `j` is `some w` when its bit of the written mask `wm` is 1 and
`val[32j+31:32j] = w`, and `none` when that mask bit is 0 (its contents are then unspecified, R24; log entry 1).
For `W = 64` words 2 to 7 do not exist and stay `none`. -/
structure SReg where
  words : Vector (Option Word32) 8
  deriving DecidableEq, Repr

/-- The status register (10_state.md R28) by its fields; reserved bits read 0 in the view
`Sys2Proof.Machine.statusWord`. -/
structure Status where
  err   : Bool
  drop  : Bool
  prime : Bool
  eq    : Bool
  ecode : BitVec 4
  deriving DecidableEq, Repr

/-- What reaches the CORE from outside: the two host primitives of 20_memory.md R52, with the address and the width
in bytes as the host gives them, and the platform's reset (70_reset_and_hazards.md R300). -/
inductive Transaction where
  | read (addr size : Nat)
  | write (addr size : Nat) (data : Word32)
  | reset
  deriving DecidableEq, Repr

/-- The state. `sregs`, `fregs`, `pregs`, `status`, `ecmd` are the spec's whole state (10_state.md R20); a field or
point register is `some` exactly when its valid bit is 1 (R24; log entry 1). The rest is the model's own: `cfg` is
the constant configuration (R7; log entry 3), `pending` and `replies` are the host's side of the port (R33, R60;
log entries 5 and 6), `draws` counts the free values used (R57; log entry 2). -/
structure State where
  cfg     : Cfg
  sregs   : Vector SReg 8
  fregs   : Vector (Option FieldElement) 8
  pregs   : Vector (Option Point) 4
  status  : Status
  ecmd    : Word32
  /-- the host's transactions still to come, oldest first -/
  pending : List Transaction
  /-- the words the host's reads have returned, newest first -/
  replies : List Word32
  draws   : Nat
  deriving DecidableEq, Repr

/-- The machine never stops with a fault: every command terminates and every error is a next state
(70_reset_and_hazards.md R305; 93_implementation_defined.md, "Nothing in the CORE is `stuck`"). -/
inductive Fault where
  deriving DecidableEq, Repr

/-- Why a step has no meaning. -/
inductive Refusal where
  /-- Raised by an arm of `exec` whose instruction has no meaning yet; safe. No arm raises it. -/
  | notModelled (mnemonic : String)
  /-- Raised by a host access that is misaligned, not 32 bits wide or outside `0x000..0x7FF`, which "a model refuses"
  (20_memory.md R54); safe. Log entry 8. -/
  | accessNotAdmitted (addr size : Nat)
  deriving DecidableEq, Repr

/-- What a step answers. -/
abbrev Result := Host.Outcome State Fault Refusal

/-- An S register none of whose words has been written. -/
def SReg.blank : SReg := { words := Vector.replicate 8 none }

/-- `STATUS = 0`. -/
def Status.cleared : Status := { err := false, drop := false, prime := false, eq := false, ecode := 0 }

/-- The state after reset (10_state.md R38): every valid bit and written mask 0, `STATUS` and `ECMD` 0; the
configuration of this hardware; no transaction pending. -/
def State.reset : State :=
  { cfg := .thisHardware
    sregs := Vector.replicate 8 .blank
    fregs := Vector.replicate 8 none
    pregs := Vector.replicate 4 none
    status := .cleared
    ecmd := 0
    pending := []
    replies := []
    draws := 0 }

end Sys2Proof.Machine
end

