-- ==== Sys2Proof/Machine/FieldEngine.lean ====
section
/-! DEFINITION. The Prime Field Engine: FEMUX and construction (42_field_construct.md), MODADD (43_field_addsub.md),
MODMUL (44_field_mul.md), MODEXP (45_field_exp.md). The functions on `Nat` are the raw functions on WideInts; the
functions on `FieldElement` add the guard, the errors and the modulus. -/

namespace Sys2Proof.Machine

/-! ## FEMUX, construction, equality -/

/-- R141: the guard FEMUX passes two elements on when their moduli are bitwise equal. -/
def fieldGuard (a b : FieldElement) : Except ErrorKind Unit :=
  if a.m = b.m then .ok () else .error .fieldMismatch

/-- R142: construction, primality test first. -/
def fnew (value modulus : WideInt) : Except ErrorKind FieldElement :=
  if isPrime modulus.toNat then .ok ⟨toWide (red value.toNat modulus.toNat), modulus⟩
  else .error .notPrime

/-- R147: equality of value and of modulus; never an error. -/
def feq (a b : FieldElement) : Bool := a.v = b.v ∧ a.m = b.m

/-! ## MODADD -/

/-- R160: overflow-safe modular addition, with the correction constant `k = (MAX - m) + 1` of R161. -/
def addMod (W a b m : Nat) : Nat :=
  let (s, carry) := oadd W a b
  if carry then
    let k := (osub W (2 ^ W - 1) m).1 + 1
    red (oadd W s k).1 m
  else red s m

/-- R165: the additive inverse `m - b`, not reduced. -/
def negRaw (W b m : Nat) : Nat := (osub W m b).1

/-- R163. -/
def fadd (c : Cfg) (a b : FieldElement) : Except ErrorKind FieldElement := do
  fieldGuard a b
  return ⟨toWide (addMod c.W a.v.toNat b.v.toNat a.m.toNat), a.m⟩

/-- R166: `a + (-b)`. -/
def fsub (c : Cfg) (a b : FieldElement) : Except ErrorKind FieldElement := do
  fieldGuard a b
  return ⟨toWide (addMod c.W a.v.toNat (negRaw c.W b.v.toNat a.m.toNat) a.m.toNat), a.m⟩

/-! ## MODMUL -/

/-- The loop of R180 from bit `i` on, `n` iterations left: the pair (`result`, `base`) it leaves. -/
def mulModLoop (W b m : Nat) : Nat → Nat → Nat × Nat → Nat × Nat
  | 0, _, acc => acc
  | n + 1, i, (result, base) =>
    mulModLoop W b m n (i + 1) (if bitAt b i then addMod W result base m else result, addMod W base base m)

/-- R180: the double-and-add multiplier as the source prescribes it, all `W` iterations. It is the circuit that
`mulMod` abstracts; the statement `MultiplierLoopComputesProduct` relates the two. -/
def mulModDoubleAndAdd (W a b m : Nat) : Nat := (mulModLoop W b m W 0 (0, a)).1

/-- `mul_mod` by its result, the product modulo `m`, which R181 permits; log entry 9. -/
def mulMod (a b m : Nat) : Nat := a * b % m

/-- R182. -/
def fmul (a b : FieldElement) : Except ErrorKind FieldElement := do
  fieldGuard a b
  return ⟨toWide (mulMod a.v.toNat b.v.toNat a.m.toNat), a.m⟩

/-- R182: squaring is `mul(a, a)`. -/
def fsqr (a : FieldElement) : Except ErrorKind FieldElement := fmul a a

/-! ## MODEXP -/

/-- The loop of R190: least significant bit of `r` first; it ends when `r = 0`. -/
def expLoop (m : Nat) : Nat → Nat → Nat → Nat → Nat
  | 0, _, acc, _ => acc
  | fuel + 1, r, acc, base =>
    if r = 0 then acc
    else expLoop m fuel (shr r 1) (if bitAt r 0 then mulMod acc base m else acc) (mulMod base base m)

/-- R190, R191: the exponent is reduced modulo `m - 1`; a zero reduced exponent gives `EXP0`. -/
def expMod (c : Cfg) (a e m : Nat) : Nat :=
  let r := red e (osub c.W m 1).1
  if r = 0 then c.EXP0 else expLoop m c.W r 1 a

/-- R193. -/
def fexp (c : Cfg) (a : FieldElement) (e : Nat) : FieldElement :=
  ⟨toWide (expMod c a.v.toNat e a.m.toNat), a.m⟩

/-- R195: Fermat inversion, zero rejected. -/
def finv (c : Cfg) (a : FieldElement) : Except ErrorKind FieldElement :=
  if a.v = 0 then .error .notInvertible
  else .ok (fexp c a (osub c.W a.m.toNat 2).1)

/-- R197: `FieldMismatch` before `NotInvertible`. -/
def fdiv (c : Cfg) (a b : FieldElement) : Except ErrorKind FieldElement := do
  fieldGuard a b
  let i ← finv c b
  fmul a i

end Sys2Proof.Machine
end

