-- ==== Sys2Proof/Machine/CurveEngine.lean ====
section
/-! DEFINITION. The Curve Group Engine for secp256k1: constants (10_state.md R36, R37), predicates
(46_point_construct.md), the group law (47_point_dbl_add.md) and scalar multiplication (48_scalar_mul.md). -/

namespace Sys2Proof.Machine

/-- The domain prime `p` (R36). -/
def domainP : WideInt := 0xFFFFFFFFFFFFFFFFFFFFFFFFFFFFFFFFFFFFFFFFFFFFFFFFFFFFFFFEFFFFFC2F#256

/-- `Gx` (R36). PRESUMED by the spec itself, from general knowledge; log entry 13. -/
def domainGx : WideInt := 0x79BE667EF9DCBBAC55A06295CE870B07029BFCDB2DCE28D959F2815B16F81798#256

/-- `Gy` (R36). PRESUMED by the spec itself, from general knowledge; log entry 13. -/
def domainGy : WideInt := 0x483ADA7726A3C4655DA4FBFC0E1108A8FD17B448A68554199C47D08FFB10D4B8#256

/-- The generator `G = ((Gx, p), (Gy, p))` (R36). -/
def pointG : Point := ⟨⟨domainGx, domainP⟩, ⟨domainGy, domainP⟩⟩

/-- The identity `INF = ((0, p), (0, p))` (R37). -/
def pointInf : Point := ⟨⟨0, domainP⟩, ⟨0, domainP⟩⟩

/-- R212: the identity test looks at the two values only. -/
def isInf (P : Point) : Bool := P.x.v = 0 ∧ P.y.v = 0

/-- R213: all four WideInts equal. -/
def peq (P Q : Point) : Bool := feq P.x Q.x && feq P.y Q.y

/-- R230: doubling, the vertical tangent first. -/
def pdbl (c : Cfg) (P : Point) : Except ErrorKind Point :=
  if P.y.v = 0 then .ok pointInf
  else do
    let xx ← fmul P.x P.x
    let n ← fadd c (← fadd c xx xx) xx
    let d ← fadd c P.y P.y
    let lam ← fdiv c n d
    let x3 ← fsub c (← fsub c (← fmul lam lam) P.x) P.x
    let y3 ← fsub c (← fmul lam (← fsub c P.x x3)) P.y
    return ⟨x3, y3⟩

/-- R232: addition, its three steps in the source's order (90_conflicts.md C3). -/
def padd (c : Cfg) (P Q : Point) : Except ErrorKind Point :=
  if feq P.x Q.x then
    if feq P.y Q.y then pdbl c P else .ok pointInf
  else if isInf P then .ok Q
  else if isInf Q then .ok P
  else do
    let n ← fsub c P.y Q.y
    let d ← fsub c P.x Q.x
    let lam ← fdiv c n d
    let x3 ← fsub c (← fsub c (← fmul lam lam) P.x) Q.x
    let y3 ← fsub c (← fmul lam (← fsub c P.x x3)) P.y
    return ⟨x3, y3⟩

/-- The loop of R250 as the source prescribes it: (`acc`, `base`) after the first `i` iterations, the doubling in every
iteration. The statement `PmulCompletesExactlyOverTheDomainPrime` relates `pmul` to it. -/
def pmulFullLoop (c : Cfg) (k : Nat) (P : Point) : Nat → Except ErrorKind (Point × Point)
  | 0 => .ok (pointInf, P)
  | i + 1 => do
    let (acc, base) ← pmulFullLoop c k P i
    let acc' ← if bitAt k i then padd c acc base else .ok acc
    let base' ← pdbl c base
    return (acc', base')

/-- The loop of R250, least significant bit of `k` first, `acc` the first operand; it ends when no bit of `k` is
left (92_eei_decisions.md D21; log entry 9). -/
def pmulLoop (c : Cfg) : Nat → Nat → Point → Point → Except ErrorKind Point
  | 0, _, acc, _ => .ok acc
  | fuel + 1, k, acc, base =>
    if k = 0 then .ok acc
    else do
      let acc' ← if bitAt k 0 then padd c acc base else .ok acc
      let base' ← pdbl c base
      pmulLoop c fuel (shr k 1) acc' base'

/-- R250: `CurveMismatch` before anything else. -/
def pmul (c : Cfg) (P : Point) (k : Nat) : Except ErrorKind Point :=
  if P.x.m ≠ domainP ∨ P.y.m ≠ domainP then .error .curveMismatch
  else pmulLoop c c.W k pointInf P

end Sys2Proof.Machine
end

