-- ==== Sys2Proof/Syntax.lean ====
section
/-! DEFINITION. The commands of the CORE: one constructor for each row of 30_encoding.md R85, operands in the order
`rd`, `ra`, `rb`, each a register of the file that row names; and the pseudo-instructions of R94. -/

namespace Sys2Proof

/-- Index of a scalar register `S0..S7` (30_encoding.md R83). -/
abbrev SIdx := Fin 8
/-- Index of a field register `F0..F7`. -/
abbrev FIdx := Fin 8
/-- Index of a point register `P0..P3`. -/
abbrev PIdx := Fin 4

inductive Instr where
  /-- R260 -/
  | nop
  /-- R261 -/
  | clrerr
  /-- R262 -/
  | srst
  /-- R128 -/
  | isprime (ra : SIdx)
  /-- R143 -/
  | fnew (rd : FIdx) (ra rb : SIdx)
  /-- R144 -/
  | fmov (rd ra : FIdx)
  /-- R145 -/
  | fzero (rd ra : FIdx)
  /-- R146 -/
  | fone (rd ra : FIdx)
  /-- R148 -/
  | feq (ra rb : FIdx)
  /-- R164 -/
  | fadd (rd ra rb : FIdx)
  /-- R167 -/
  | fsub (rd ra rb : FIdx)
  /-- R183 -/
  | fmul (rd ra rb : FIdx)
  /-- R184 -/
  | fsqr (rd ra : FIdx)
  /-- R194 -/
  | fexp (rd ra : FIdx) (rb : SIdx)
  /-- R196 -/
  | finv (rd ra : FIdx)
  /-- R198 -/
  | fdiv (rd ra rb : FIdx)
  /-- R214 -/
  | pnew (rd : PIdx) (ra rb : SIdx)
  /-- R215 -/
  | pset (rd : PIdx) (ra rb : FIdx)
  /-- R216 -/
  | pgen (rd : PIdx)
  /-- R217 -/
  | pinf (rd : PIdx)
  /-- R218 -/
  | pmov (rd ra : PIdx)
  /-- R219 -/
  | pgetx (rd : FIdx) (ra : PIdx)
  /-- R220 -/
  | pgety (rd : FIdx) (ra : PIdx)
  /-- R221 -/
  | peq (ra rb : PIdx)
  /-- R231 -/
  | pdbl (rd ra : PIdx)
  /-- R233 -/
  | padd (rd ra rb : PIdx)
  /-- R251 -/
  | pmul (rd ra : PIdx) (rb : SIdx)
  deriving DecidableEq, Repr

/-- The pseudo-instructions of 30_encoding.md R94. -/
inductive Pseudo where
  | fdbl (rd ra : FIdx)
  | fneg (rd ra : FIdx)
  | ptpl (rd ra : PIdx)
  deriving DecidableEq, Repr

end Sys2Proof
end

