-- ==== Sys2Proof/WellFormed.lean ====
section
/-! DEFINITION. Which instructions exist in a configuration. Index ranges need no check: they are in the types of
`Instr`. -/

namespace Sys2Proof

/-- The commands of 46_point_construct.md, 47_point_dbl_add.md and 48_scalar_mul.md: opcodes `0x30..0x3A`. -/
def Instr.isCurve : Instr → Bool
  | .nop => false
  | .clrerr => false
  | .srst => false
  | .isprime _ => false
  | .fnew _ _ _ => false
  | .fmov _ _ => false
  | .fzero _ _ => false
  | .fone _ _ => false
  | .feq _ _ => false
  | .fadd _ _ _ => false
  | .fsub _ _ _ => false
  | .fmul _ _ _ => false
  | .fsqr _ _ => false
  | .fexp _ _ _ => false
  | .finv _ _ => false
  | .fdiv _ _ _ => false
  | .pnew _ _ _ => true
  | .pset _ _ _ => true
  | .pgen _ => true
  | .pinf _ => true
  | .pmov _ _ => true
  | .pgetx _ _ => true
  | .pgety _ _ => true
  | .peq _ _ => true
  | .pdbl _ _ => true
  | .padd _ _ _ => true
  | .pmul _ _ _ => true

/-- A curve command exists only when `HASCURVE` (30_encoding.md R86); every other command exists for every `W`. -/
def Instr.wellFormed (c : Cfg) (i : Instr) : Bool := !i.isCurve || c.hasCurve

/-- The condition R94 puts on a pseudo-instruction: FNEG and PTPL need `d != a`. -/
def Pseudo.wellFormed : Pseudo → Bool
  | .fdbl _ _ => true
  | .fneg rd ra => rd ≠ ra
  | .ptpl rd ra => rd ≠ ra

end Sys2Proof
end

