-- ==== Sys2Proof/Decode.lean ====
section
/-! DEFINITION. The command word: its fields, the opcode map as the spec's table of masks, the decoder (total on all
`2^32` words, rejecting by name) and the encoder. 30_encoding.md R80 to R89, R94. -/

namespace Sys2Proof

/-! ## The decoder -/

/-- Why a word matches no row of R85 (30_encoding.md R88 lists these five). Every one of them raises
`IllegalCommand`; the CORE records no finer reason. Log entry 12. -/
inductive DecodeError where
  /-- an opcode not listed -/
  | unlistedOpcode
  /-- a non-zero `zero` field, bits 11:0 -/
  | zeroFieldNotZero
  /-- a non-zero register field that the format does not use -/
  | unusedFieldNotZero
  /-- a used register field whose index is outside the file -/
  | indexOutOfRange
  /-- a curve opcode when `HASCURVE` is false -/
  | noCurve
  deriving DecidableEq, Repr

/-- Bits 31:24 of a command word. -/
def fieldOp (c : Word32) : Nat := (c.extractLsb' 24 8).toNat
/-- Bits 23:20. -/
def fieldRd (c : Word32) : Nat := (c.extractLsb' 20 4).toNat
/-- Bits 19:16. -/
def fieldRa (c : Word32) : Nat := (c.extractLsb' 16 4).toNat
/-- Bits 15:12. -/
def fieldRb (c : Word32) : Nat := (c.extractLsb' 12 4).toNat
/-- Bits 11:0. -/
def fieldZero (c : Word32) : Nat := (c.extractLsb' 0 12).toNat

/-- A used field that names an S or an F register: index 0..7, top bit 0 (R83). -/
def index8 (f : Nat) : Except DecodeError (Fin 8) :=
  if h : f < 8 then .ok ⟨f, h⟩ else .error .indexOutOfRange

/-- A used field that names a P register: index 0..3, top two bits 0 (R83). -/
def index4 (f : Nat) : Except DecodeError (Fin 4) :=
  if h : f < 4 then .ok ⟨f, h⟩ else .error .indexOutOfRange

/-- A field that must be 0 (R81, R82). -/
def mustBeZero (e : DecodeError) (f : Nat) : Except DecodeError Unit :=
  if f = 0 then .ok () else .error e

/-- Format Z (R82): no field used. -/
def formatZ (i : Instr) (c : Word32) : Except DecodeError Instr := do
  mustBeZero .zeroFieldNotZero (fieldZero c)
  mustBeZero .unusedFieldNotZero (fieldRd c)
  mustBeZero .unusedFieldNotZero (fieldRa c)
  mustBeZero .unusedFieldNotZero (fieldRb c)
  return i

/-- Format D: `rd` used. -/
def formatD {D : Type} (rd : Nat → Except DecodeError D) (mk : D → Instr) (c : Word32) :
    Except DecodeError Instr := do
  mustBeZero .zeroFieldNotZero (fieldZero c)
  mustBeZero .unusedFieldNotZero (fieldRa c)
  mustBeZero .unusedFieldNotZero (fieldRb c)
  return mk (← rd (fieldRd c))

/-- Format A: `ra` used. -/
def formatA {A : Type} (ra : Nat → Except DecodeError A) (mk : A → Instr) (c : Word32) :
    Except DecodeError Instr := do
  mustBeZero .zeroFieldNotZero (fieldZero c)
  mustBeZero .unusedFieldNotZero (fieldRd c)
  mustBeZero .unusedFieldNotZero (fieldRb c)
  return mk (← ra (fieldRa c))

/-- Format DA: `rd` and `ra` used. -/
def formatDA {D A : Type} (rd : Nat → Except DecodeError D) (ra : Nat → Except DecodeError A)
    (mk : D → A → Instr) (c : Word32) : Except DecodeError Instr := do
  mustBeZero .zeroFieldNotZero (fieldZero c)
  mustBeZero .unusedFieldNotZero (fieldRb c)
  return mk (← rd (fieldRd c)) (← ra (fieldRa c))

/-- Format AB: `ra` and `rb` used. -/
def formatAB {A B : Type} (ra : Nat → Except DecodeError A) (rb : Nat → Except DecodeError B)
    (mk : A → B → Instr) (c : Word32) : Except DecodeError Instr := do
  mustBeZero .zeroFieldNotZero (fieldZero c)
  mustBeZero .unusedFieldNotZero (fieldRd c)
  return mk (← ra (fieldRa c)) (← rb (fieldRb c))

/-- Format DAB: all three used. -/
def formatDAB {D A B : Type} (rd : Nat → Except DecodeError D) (ra : Nat → Except DecodeError A)
    (rb : Nat → Except DecodeError B) (mk : D → A → B → Instr) (c : Word32) : Except DecodeError Instr := do
  mustBeZero .zeroFieldNotZero (fieldZero c)
  return mk (← rd (fieldRd c)) (← ra (fieldRa c)) (← rb (fieldRb c))

/-- The row of R85 that the word `c` matches: opcode, format and the file of each used field. -/
def decodeRow (c : Word32) : Except DecodeError Instr :=
  match fieldOp c with
  | 0x00 => formatZ .nop c
  | 0x01 => formatZ .clrerr c
  | 0x02 => formatZ .srst c
  | 0x08 => formatA index8 .isprime c
  | 0x10 => formatDAB index8 index8 index8 .fnew c
  | 0x11 => formatDA index8 index8 .fmov c
  | 0x12 => formatDA index8 index8 .fzero c
  | 0x13 => formatDA index8 index8 .fone c
  | 0x14 => formatAB index8 index8 .feq c
  | 0x18 => formatDAB index8 index8 index8 .fadd c
  | 0x19 => formatDAB index8 index8 index8 .fsub c
  | 0x1A => formatDAB index8 index8 index8 .fmul c
  | 0x1B => formatDA index8 index8 .fsqr c
  | 0x1C => formatDAB index8 index8 index8 .fexp c
  | 0x1D => formatDA index8 index8 .finv c
  | 0x1E => formatDAB index8 index8 index8 .fdiv c
  | 0x30 => formatDAB index4 index8 index8 .pnew c
  | 0x31 => formatDAB index4 index8 index8 .pset c
  | 0x32 => formatD index4 .pgen c
  | 0x33 => formatD index4 .pinf c
  | 0x34 => formatDA index4 index4 .pmov c
  | 0x35 => formatDA index8 index4 .pgetx c
  | 0x36 => formatDA index8 index4 .pgety c
  | 0x37 => formatAB index4 index4 .peq c
  | 0x38 => formatDA index4 index4 .pdbl c
  | 0x39 => formatDAB index4 index4 index4 .padd c
  | 0x3A => formatDAB index4 index4 index8 .pmul c
  | _ => .error .unlistedOpcode

/-- `decode(c)` of 30_encoding.md R86: the unique row of R85, then illegal when the row is a curve command and
`HASCURVE` is false. -/
def decode (cfg : Cfg) (c : Word32) : Except DecodeError Instr := do
  let i ← decodeRow c
  if i.wellFormed cfg then return i else throw .noCurve

/-! ## The encoder -/

/-- The five fields of R81 put together, the `zero` field 0. -/
def packFields (op rd ra rb : Nat) : Word32 :=
  BitVec.ofNat 32 (op * 2 ^ 24 + rd * 2 ^ 20 + ra * 2 ^ 16 + rb * 2 ^ 12)

/-- The command word of an instruction: opcode of R85, used fields at their places, unused fields 0. -/
def encode : Instr → Word32
  | .nop => packFields 0x00 0 0 0
  | .clrerr => packFields 0x01 0 0 0
  | .srst => packFields 0x02 0 0 0
  | .isprime ra => packFields 0x08 0 ra 0
  | .fnew rd ra rb => packFields 0x10 rd ra rb
  | .fmov rd ra => packFields 0x11 rd ra 0
  | .fzero rd ra => packFields 0x12 rd ra 0
  | .fone rd ra => packFields 0x13 rd ra 0
  | .feq ra rb => packFields 0x14 0 ra rb
  | .fadd rd ra rb => packFields 0x18 rd ra rb
  | .fsub rd ra rb => packFields 0x19 rd ra rb
  | .fmul rd ra rb => packFields 0x1A rd ra rb
  | .fsqr rd ra => packFields 0x1B rd ra 0
  | .fexp rd ra rb => packFields 0x1C rd ra rb
  | .finv rd ra => packFields 0x1D rd ra 0
  | .fdiv rd ra rb => packFields 0x1E rd ra rb
  | .pnew rd ra rb => packFields 0x30 rd ra rb
  | .pset rd ra rb => packFields 0x31 rd ra rb
  | .pgen rd => packFields 0x32 rd 0 0
  | .pinf rd => packFields 0x33 rd 0 0
  | .pmov rd ra => packFields 0x34 rd ra 0
  | .pgetx rd ra => packFields 0x35 rd ra 0
  | .pgety rd ra => packFields 0x36 rd ra 0
  | .peq ra rb => packFields 0x37 0 ra rb
  | .pdbl rd ra => packFields 0x38 rd ra 0
  | .padd rd ra rb => packFields 0x39 rd ra rb
  | .pmul rd ra rb => packFields 0x3A rd ra rb

/-! ## The opcode map as the spec prints it -/

/-- A row of R85: its mnemonic, `match` column and `mask` column. -/
structure OpRow where
  mnemonic : String
  bits     : Word32
  mask     : Word32
  deriving DecidableEq, Repr

/-- "A word `c` is the command of a row exactly when `(c AND mask) = match`" (R85). -/
def OpRow.covers (r : OpRow) (c : Word32) : Bool := c &&& r.mask = r.bits

/-- The columns mnemonic, match and mask of R85, copied from the spec and used by no definition of the decoder: the
statements hold the decoder against them. -/
def opcodeTable : List OpRow :=
  [ .mk "NOP" 0x00000000#32 0xFFFFFFFF#32,
    .mk "CLRERR" 0x01000000#32 0xFFFFFFFF#32,
    .mk "SRST" 0x02000000#32 0xFFFFFFFF#32,
    .mk "ISPRIME" 0x08000000#32 0xFFF8FFFF#32 ] ++
  [ .mk "FNEW" 0x10000000#32 0xFF888FFF#32,
    .mk "FMOV" 0x11000000#32 0xFF88FFFF#32,
    .mk "FZERO" 0x12000000#32 0xFF88FFFF#32,
    .mk "FONE" 0x13000000#32 0xFF88FFFF#32,
    .mk "FEQ" 0x14000000#32 0xFFF88FFF#32,
    .mk "FADD" 0x18000000#32 0xFF888FFF#32,
    .mk "FSUB" 0x19000000#32 0xFF888FFF#32,
    .mk "FMUL" 0x1A000000#32 0xFF888FFF#32,
    .mk "FSQR" 0x1B000000#32 0xFF88FFFF#32,
    .mk "FEXP" 0x1C000000#32 0xFF888FFF#32,
    .mk "FINV" 0x1D000000#32 0xFF88FFFF#32,
    .mk "FDIV" 0x1E000000#32 0xFF888FFF#32 ] ++
  [ .mk "PNEW" 0x30000000#32 0xFFC88FFF#32,
    .mk "PSET" 0x31000000#32 0xFFC88FFF#32,
    .mk "PGEN" 0x32000000#32 0xFFCFFFFF#32,
    .mk "PINF" 0x33000000#32 0xFFCFFFFF#32,
    .mk "PMOV" 0x34000000#32 0xFFCCFFFF#32,
    .mk "PGETX" 0x35000000#32 0xFF8CFFFF#32,
    .mk "PGETY" 0x36000000#32 0xFF8CFFFF#32,
    .mk "PEQ" 0x37000000#32 0xFFFCCFFF#32,
    .mk "PDBL" 0x38000000#32 0xFFCCFFFF#32,
    .mk "PADD" 0x39000000#32 0xFFCCCFFF#32,
    .mk "PMUL" 0x3A000000#32 0xFFCC8FFF#32 ]

/-- The mnemonic of an instruction (R85). -/
def Instr.mnemonic : Instr → String
  | .nop => "NOP"
  | .clrerr => "CLRERR"
  | .srst => "SRST"
  | .isprime _ => "ISPRIME"
  | .fnew _ _ _ => "FNEW"
  | .fmov _ _ => "FMOV"
  | .fzero _ _ => "FZERO"
  | .fone _ _ => "FONE"
  | .feq _ _ => "FEQ"
  | .fadd _ _ _ => "FADD"
  | .fsub _ _ _ => "FSUB"
  | .fmul _ _ _ => "FMUL"
  | .fsqr _ _ => "FSQR"
  | .fexp _ _ _ => "FEXP"
  | .finv _ _ => "FINV"
  | .fdiv _ _ _ => "FDIV"
  | .pnew _ _ _ => "PNEW"
  | .pset _ _ _ => "PSET"
  | .pgen _ => "PGEN"
  | .pinf _ => "PINF"
  | .pmov _ _ => "PMOV"
  | .pgetx _ _ => "PGETX"
  | .pgety _ _ => "PGETY"
  | .peq _ _ => "PEQ"
  | .pdbl _ _ => "PDBL"
  | .padd _ _ _ => "PADD"
  | .pmul _ _ _ => "PMUL"

/-- The operand fields of an instruction as R86 reads them, (`rd`, `ra`, `rb`); an unused field is 0 (R82). -/
def Instr.operandFields : Instr → Nat × Nat × Nat
  | .nop => (0, 0, 0)
  | .clrerr => (0, 0, 0)
  | .srst => (0, 0, 0)
  | .isprime ra => (0, ra, 0)
  | .fnew rd ra rb => (rd, ra, rb)
  | .fmov rd ra => (rd, ra, 0)
  | .fzero rd ra => (rd, ra, 0)
  | .fone rd ra => (rd, ra, 0)
  | .feq ra rb => (0, ra, rb)
  | .fadd rd ra rb => (rd, ra, rb)
  | .fsub rd ra rb => (rd, ra, rb)
  | .fmul rd ra rb => (rd, ra, rb)
  | .fsqr rd ra => (rd, ra, 0)
  | .fexp rd ra rb => (rd, ra, rb)
  | .finv rd ra => (rd, ra, 0)
  | .fdiv rd ra rb => (rd, ra, rb)
  | .pnew rd ra rb => (rd, ra, rb)
  | .pset rd ra rb => (rd, ra, rb)
  | .pgen rd => (rd, 0, 0)
  | .pinf rd => (rd, 0, 0)
  | .pmov rd ra => (rd, ra, 0)
  | .pgetx rd ra => (rd, ra, 0)
  | .pgety rd ra => (rd, ra, 0)
  | .peq ra rb => (0, ra, rb)
  | .pdbl rd ra => (rd, ra, 0)
  | .padd rd ra rb => (rd, ra, rb)
  | .pmul rd ra rb => (rd, ra, rb)

/-- The commands a pseudo-instruction expands to (R94); none where its condition fails. -/
def Pseudo.expand (q : Pseudo) : Option (List Instr) :=
  if q.wellFormed then
    some (match q with
      | .fdbl rd ra => [.fadd rd ra ra]
      | .fneg rd ra => [.fzero rd ra, .fsub rd rd ra]
      | .ptpl rd ra => [.pdbl rd ra, .padd rd ra rd])
  else none

/-- What this decoder reads from the opcode-table word `w` of `nbits` bits (the host's question). A command is one
32-bit word whose bit 0 is bit 0 of the table's numbering (R80, R81); no byte order is involved (R53). -/
def decodeTableWord (nbits w : Nat) : Option Instr :=
  let v := w % 2 ^ nbits
  if v < 2 ^ 32 then (decode .thisHardware (BitVec.ofNat 32 v)).toOption else none

end Sys2Proof
end

