-- ==== Sys2Proof/Machine/Operands.lean ====
section
/-! DEFINITION. The one operand form of the CORE, a register named by index (30_encoding.md R84): reading a register
with its validity check (60_exceptions.md R276) and writing one, for the three files. -/

namespace Sys2Proof.Machine

/-- The words of a list put together, least significant first; `none` when one of them has not been written. -/
def joinWords : List (Option Word32) → Option Nat
  | [] => some 0
  | w :: ws =>
    match w, joinWords ws with
    | some x, some n => some (x.toNat + 2 ^ 32 * n)
    | _, _ => none

/-- The value of a scalar register, which is valid exactly when all `NW` words have been written (10_state.md R21,
20_memory.md R56). -/
def SReg.value (c : Cfg) (r : SReg) : Option WideInt :=
  (joinWords (r.words.toList.take c.NW)).map (BitVec.ofNat 256)

/-- Word `j` of a W-bit value: `v[32j+31:32j]` (20_memory.md R51). -/
def wordOf (v : WideInt) (j : Nat) : Word32 := v.extractLsb' (32 * j) 32

/-- A source read: the register's contents, `Uninit` when it is invalid (60_exceptions.md R276). -/
def sourceOf {α : Type} (r : Option α) : Except ErrorKind α :=
  match r with
  | some a => .ok a
  | none => .error .uninit

/-- The contents of `S[i]` when it is valid. -/
def State.sval (s : State) (i : SIdx) : Option WideInt := s.sregs[i].value s.cfg
/-- The contents of `F[i]` when it is valid. -/
def State.fval (s : State) (i : FIdx) : Option FieldElement := s.fregs[i]
/-- The contents of `P[i]` when it is valid. -/
def State.pval (s : State) (i : PIdx) : Option Point := s.pregs[i]

def readS (s : State) (i : SIdx) : Except ErrorKind WideInt := sourceOf (s.sval i)
def readF (s : State) (i : FIdx) : Except ErrorKind FieldElement := sourceOf (s.fval i)
def readP (s : State) (i : PIdx) : Except ErrorKind Point := sourceOf (s.pval i)

/-- `F[i] <- a`, which also sets the valid bit (00_scope.md R14, 10_state.md R24). -/
def setF (s : State) (i : FIdx) (a : FieldElement) : State := { s with fregs := s.fregs.set i (some a) }

/-- `P[i] <- P`, which also sets the valid bit. -/
def setP (s : State) (i : PIdx) (P : Point) : State := { s with pregs := s.pregs.set i (some P) }

/-- `S[i].val[32j+31:32j] <- w` and `S[i].wm[j] <- 1` (20_memory.md R56). -/
def setSWord (s : State) (i : SIdx) (j : Fin 8) (w : Word32) : State :=
  { s with sregs := s.sregs.set i { words := s.sregs[i].words.set j (some w) } }

end Sys2Proof.Machine
end

