-- ==== Sys2Proof/Machine/Flags.lean ====
section
/-! DEFINITION. The flags and the control registers the host reads (10_state.md R28 to R31, R34; 60_exceptions.md
R270). No arithmetic command computes a flag. -/

namespace Sys2Proof.Machine

/-- The code of an error kind: the value `ECODE` takes (R270). -/
def ErrorKind.code : ErrorKind → BitVec 4
  | .notPrime => 1
  | .fieldMismatch => 2
  | .curveMismatch => 3
  | .notImplemented => 4
  | .notInvertible => 5
  | .illegalCommand => 6
  | .uninit => 7

/-- `STATUS` as the host reads it (R28): `ERR` bit 0, `DROP` bit 1, `PRIME` bit 2, `EQ` bit 3, `ECODE` bits 11:8,
every other bit 0. -/
def statusWord (t : Status) : Word32 :=
  BitVec.ofNat 32 (t.err.toNat + 2 * t.drop.toNat + 4 * t.prime.toNat + 8 * t.eq.toNat + 256 * t.ecode.toNat)

/-- `CONFIG` (R30): `NW` in bits 7:0, `EXP0` bit 8, `HASCURVE` bit 9. -/
def configWord (c : Cfg) : Word32 :=
  BitVec.ofNat 32 (c.NW + 256 * c.EXP0 + 512 * c.hasCurve.toNat)

/-- Bit `i` of the word is the `i`-th truth value (R31). -/
def validWord (bits : List Bool) : Word32 :=
  BitVec.ofNat 32 (bits.foldr (fun b n => b.toNat + 2 * n) 0)

/-- `SVALID` (R31). -/
def svalidWord (s : State) : Word32 := validWord ((List.finRange 8).map fun i => (s.sval i).isSome)
/-- `FVALID` (R31). -/
def fvalidWord (s : State) : Word32 := validWord ((List.finRange 8).map fun i => (s.fval i).isSome)
/-- `PVALID` (R31); 0 when `HASCURVE` is false. -/
def pvalidWord (s : State) : Word32 :=
  if s.cfg.hasCurve then validWord ((List.finRange 4).map fun i => (s.pval i).isSome) else 0

/-- `STATUS.PRIME <- b`. -/
def setPrime (s : State) (b : Bool) : State := { s with status := { s.status with prime := b } }

/-- `STATUS.EQ <- b`. -/
def setEq (s : State) (b : Bool) : State := { s with status := { s.status with eq := b } }

end Sys2Proof.Machine
end

