-- ==== Sys2Proof/Machine/Ops.lean ====
section
/-! DEFINITION. The operations every command shares: fault entry, dropping, leaving the fault state, the reset of the
CORE's state, and the frame `command` that 60_exceptions.md R274 puts around the pseudocode of a command. -/

namespace Sys2Proof.Machine

/-- Fault entry `fault(K, c)` (60_exceptions.md R278): `ERR`, `ECODE`, `ECMD`, and nothing else. -/
def faultEntry (k : ErrorKind) (c : Word32) (s : State) : State :=
  { s with status := { s.status with err := true, ecode := k.code }, ecmd := c }

/-- Leaving the fault state, the effect of CLRERR (49_system.md R261, 60_exceptions.md R280). -/
def clearFault (s : State) : State :=
  { s with status := { s.status with err := false, drop := false, ecode := 0 }, ecmd := 0 }

/-- A command dropped while faulted (60_exceptions.md R279). -/
def dropCommand (s : State) : State := { s with status := { s.status with drop := true } }

/-- The reset state of 10_state.md R38 put into every piece of the spec's state, the effect of SRST (49_system.md
R262) and of the platform's reset (70_reset_and_hazards.md R300). The configuration is a constant; the host's side
of the port is not the CORE's (log entry 7). -/
def resetCore (s : State) : State :=
  { s with
    sregs := Vector.replicate 8 .blank
    fregs := Vector.replicate 8 none
    pregs := Vector.replicate 4 none
    status := .cleared
    ecmd := 0 }

/-- `execute(c)` of 60_exceptions.md R274 for the word of the legal command `i`, where `i` is neither CLRERR nor
SRST: (1) dropped while faulted, (2) illegal when the configuration lacks it (log entry 11), (3, 4) the body, which
reads all its sources first (`Uninit`) and then runs the command's pseudocode. An error of the body enters the fault
state from the state before the command, so nothing else has changed (R282). `ECMD` gets the command word, which is
`encode i` (log entry 12). -/
def command (i : Instr) (s : State) (body : Except ErrorKind State) : Result :=
  .next
    (if s.status.err then dropCommand s
     else if i.wellFormed s.cfg then
       match body with
       | .ok s' => s'
       | .error k => faultEntry k (encode i) s
     else faultEntry .illegalCommand (encode i) s)

end Sys2Proof.Machine
end

