-- ==== Sys2Proof/Machine/Curve.lean ====
section
/-! DEFINITION. The point commands: 46_point_construct.md, 47_point_dbl_add.md, 48_scalar_mul.md. -/

namespace Sys2Proof.Machine

/-- R214: each coordinate through `fnew(·, p)`, the primality test on `p` included. -/
def execPnew (rd : PIdx) (ra rb : SIdx) (s : State) : Result :=
  command (.pnew rd ra rb) s do
    let rawX ← readS s ra
    let rawY ← readS s rb
    let x ← fnew rawX domainP
    let y ← fnew rawY domainP
    return setP s rd ⟨x, y⟩

/-- R215: any two field elements, unchecked. -/
def execPset (rd : PIdx) (ra rb : FIdx) (s : State) : Result :=
  command (.pset rd ra rb) s do
    let x ← readF s ra
    let y ← readF s rb
    return setP s rd ⟨x, y⟩

/-- R216. -/
def execPgen (rd : PIdx) (s : State) : Result := command (.pgen rd) s (.ok (setP s rd pointG))

/-- R217. -/
def execPinf (rd : PIdx) (s : State) : Result := command (.pinf rd) s (.ok (setP s rd pointInf))

/-- R218. -/
def execPmov (rd ra : PIdx) (s : State) : Result :=
  command (.pmov rd ra) s do
    let P ← readP s ra
    return setP s rd P

/-- R219. -/
def execPgetx (rd : FIdx) (ra : PIdx) (s : State) : Result :=
  command (.pgetx rd ra) s do
    let P ← readP s ra
    return setF s rd P.x

/-- R220. -/
def execPgety (rd : FIdx) (ra : PIdx) (s : State) : Result :=
  command (.pgety rd ra) s do
    let P ← readP s ra
    return setF s rd P.y

/-- R221: `STATUS.EQ <- peq(P[ra], P[rb])`. -/
def execPeq (ra rb : PIdx) (s : State) : Result :=
  command (.peq ra rb) s do
    let P ← readP s ra
    let Q ← readP s rb
    return setEq s (peq P Q)

/-- R231. -/
def execPdbl (rd ra : PIdx) (s : State) : Result :=
  command (.pdbl rd ra) s do
    let P ← readP s ra
    let r ← pdbl s.cfg P
    return setP s rd r

/-- R233: both sources are checked before anything is computed (60_exceptions.md R276). -/
def execPadd (rd ra rb : PIdx) (s : State) : Result :=
  command (.padd rd ra rb) s do
    let P ← readP s ra
    let Q ← readP s rb
    let r ← padd s.cfg P Q
    return setP s rd r

/-- R251. -/
def execPmul (rd ra : PIdx) (rb : SIdx) (s : State) : Result :=
  command (.pmul rd ra rb) s do
    let P ← readP s ra
    let k ← readS s rb
    let r ← pmul s.cfg P k.toNat
    return setP s rd r

end Sys2Proof.Machine
end

