-- ==== Sys2Proof/Machine/Field.lean ====
section
/-! DEFINITION. The field commands: 42_field_construct.md, 43_field_addsub.md, 44_field_mul.md, 45_field_exp.md. -/

namespace Sys2Proof.Machine

/-- The shape of FADD, FSUB, FMUL, FDIV: `F[rd] <- f(F[ra], F[rb])?`. -/
def fieldOp2 (s : State) (rd ra rb : FIdx) (f : FieldElement → FieldElement → Except ErrorKind FieldElement) :
    Except ErrorKind State := do
  let a ← readF s ra
  let b ← readF s rb
  let r ← f a b
  return setF s rd r

/-- The shape of FMOV, FZERO, FONE, FSQR, FINV: `F[rd] <- f(F[ra])?`. -/
def fieldOp1 (s : State) (rd ra : FIdx) (f : FieldElement → Except ErrorKind FieldElement) :
    Except ErrorKind State := do
  let a ← readF s ra
  let r ← f a
  return setF s rd r

/-- R143. -/
def execFnew (rd : FIdx) (ra rb : SIdx) (s : State) : Result :=
  command (.fnew rd ra rb) s do
    let value ← readS s ra
    let modulus ← readS s rb
    let r ← fnew value modulus
    return setF s rd r

/-- R144. -/
def execFmov (rd ra : FIdx) (s : State) : Result :=
  command (.fmov rd ra) s (fieldOp1 s rd ra fun a => .ok a)

/-- R145. -/
def execFzero (rd ra : FIdx) (s : State) : Result :=
  command (.fzero rd ra) s (fieldOp1 s rd ra fun a => .ok ⟨0, a.m⟩)

/-- R146. -/
def execFone (rd ra : FIdx) (s : State) : Result :=
  command (.fone rd ra) s (fieldOp1 s rd ra fun a => .ok ⟨1, a.m⟩)

/-- R148: `STATUS.EQ <- feq(F[ra], F[rb])`. -/
def execFeq (ra rb : FIdx) (s : State) : Result :=
  command (.feq ra rb) s do
    let a ← readF s ra
    let b ← readF s rb
    return setEq s (feq a b)

/-- R164. -/
def execFadd (rd ra rb : FIdx) (s : State) : Result :=
  command (.fadd rd ra rb) s (fieldOp2 s rd ra rb (fadd s.cfg))

/-- R167. -/
def execFsub (rd ra rb : FIdx) (s : State) : Result :=
  command (.fsub rd ra rb) s (fieldOp2 s rd ra rb (fsub s.cfg))

/-- R183. -/
def execFmul (rd ra rb : FIdx) (s : State) : Result :=
  command (.fmul rd ra rb) s (fieldOp2 s rd ra rb fmul)

/-- R184. -/
def execFsqr (rd ra : FIdx) (s : State) : Result :=
  command (.fsqr rd ra) s (fieldOp1 s rd ra fsqr)

/-- R194: both sources are checked, the exponent too when the base is 0 (60_exceptions.md R276). -/
def execFexp (rd ra : FIdx) (rb : SIdx) (s : State) : Result :=
  command (.fexp rd ra rb) s do
    let a ← readF s ra
    let e ← readS s rb
    return setF s rd (fexp s.cfg a e.toNat)

/-- R196. -/
def execFinv (rd ra : FIdx) (s : State) : Result :=
  command (.finv rd ra) s (fieldOp1 s rd ra (finv s.cfg))

/-- R198. -/
def execFdiv (rd ra rb : FIdx) (s : State) : Result :=
  command (.fdiv rd ra rb) s (fieldOp2 s rd ra rb (fdiv s.cfg))

end Sys2Proof.Machine
end

