-- ==== Sys2Proof/Machine/System.lean ====
section
/-! DEFINITION. The system commands NOP, CLRERR, SRST (49_system.md) and the command ISPRIME (41_primality.md). -/

namespace Sys2Proof.Machine

/-- R260: no effect; dropped while faulted like any other command. -/
def execNop (s : State) : Result := command .nop s (.ok s)

/-- R261: never dropped. -/
def execClrerr (s : State) : Result := .next (clearFault s)

/-- R262: never dropped. -/
def execSrst (s : State) : Result := .next (resetCore s)

/-- R128: `STATUS.PRIME <- is_prime(S[ra])`. -/
def execIsprime (ra : SIdx) (s : State) : Result :=
  command (.isprime ra) s do
    let n ← readS s ra
    return setPrime s (isPrime n.toNat)

end Sys2Proof.Machine
end

