-- ==== Sys2Proof/Machine/Dispatch.lean ====
section
/-! DEFINITION. One arm per command, each one call of its meaning. -/

namespace Sys2Proof.Machine

def exec (i : Instr) (s : State) : Host.Outcome State Fault Refusal :=
  match i with
  | .nop => Sys2Proof.Machine.execNop s
  | .clrerr => Sys2Proof.Machine.execClrerr s
  | .srst => Sys2Proof.Machine.execSrst s
  | .isprime ra => Sys2Proof.Machine.execIsprime ra s
  | .fnew rd ra rb => Sys2Proof.Machine.execFnew rd ra rb s
  | .fmov rd ra => Sys2Proof.Machine.execFmov rd ra s
  | .fzero rd ra => Sys2Proof.Machine.execFzero rd ra s
  | .fone rd ra => Sys2Proof.Machine.execFone rd ra s
  | .feq ra rb => Sys2Proof.Machine.execFeq ra rb s
  | .fadd rd ra rb => Sys2Proof.Machine.execFadd rd ra rb s
  | .fsub rd ra rb => Sys2Proof.Machine.execFsub rd ra rb s
  | .fmul rd ra rb => Sys2Proof.Machine.execFmul rd ra rb s
  | .fsqr rd ra => Sys2Proof.Machine.execFsqr rd ra s
  | .fexp rd ra rb => Sys2Proof.Machine.execFexp rd ra rb s
  | .finv rd ra => Sys2Proof.Machine.execFinv rd ra s
  | .fdiv rd ra rb => Sys2Proof.Machine.execFdiv rd ra rb s
  | .pnew rd ra rb => Sys2Proof.Machine.execPnew rd ra rb s
  | .pset rd ra rb => Sys2Proof.Machine.execPset rd ra rb s
  | .pgen rd => Sys2Proof.Machine.execPgen rd s
  | .pinf rd => Sys2Proof.Machine.execPinf rd s
  | .pmov rd ra => Sys2Proof.Machine.execPmov rd ra s
  | .pgetx rd ra => Sys2Proof.Machine.execPgetx rd ra s
  | .pgety rd ra => Sys2Proof.Machine.execPgety rd ra s
  | .peq ra rb => Sys2Proof.Machine.execPeq ra rb s
  | .pdbl rd ra => Sys2Proof.Machine.execPdbl rd ra s
  | .padd rd ra rb => Sys2Proof.Machine.execPadd rd ra rb s
  | .pmul rd ra rb => Sys2Proof.Machine.execPmul rd ra rb s

end Sys2Proof.Machine
end

