-- ==== Sys2Proof/Machine/HostPort.lean ====
section
/-! DEFINITION. The host port: the map of the register space (20_memory.md R50, R51), reads (R57, R58), writes (R56,
R58), issuing a command (R32, 60_exceptions.md R274), the abstract transactions (R61) and the platform's reset. -/

namespace Sys2Proof.Machine

/-! ## The address map -/

/-- The two fields of a field register. -/
inductive FPart where
  | v
  | m
  deriving DecidableEq, Repr

/-- The four fields of a point register. -/
inductive PPart where
  | xv
  | xm
  | yv
  | ym
  deriving DecidableEq, Repr

/-- The domain constants of 10_state.md R36. -/
inductive DomainConst where
  | p
  | gx
  | gy
  deriving DecidableEq, Repr

/-- What stands at an address (20_memory.md R51). -/
inductive Location where
  | cmd
  | status
  | ecmd
  | config
  | svalid
  | fvalid
  | pvalid
  | sWord (i : SIdx) (j : Fin 8)
  | fWord (i : FIdx) (part : FPart) (j : Fin 8)
  | pWord (i : PIdx) (part : PPart) (j : Fin 8)
  | constWord (k : DomainConst) (j : Fin 8)
  | unmapped
  deriving DecidableEq, Repr

/-- Only aligned 32-bit accesses inside the space are admitted (R54). -/
def admitted (addr size : Nat) : Bool := size = 4 ∧ addr % 4 = 0 ∧ addr < 0x800

/-- Word `j` of a W-bit slot is mapped for `j < NW` only (R51, R58). -/
def mappedWord (c : Cfg) (j : Fin 8) (l : Location) : Location := if j.val < c.NW then l else .unmapped

/-- The map of R51 on word addresses; everything else is unmapped, the P file and the constants too when `HASCURVE`
is false. -/
def locate (c : Cfg) (a : Nat) : Location :=
  let j := Fin.ofNat 8 (a % 0x20 / 4)
  if a < 0x100 then
    match a with
    | 0x000 => .cmd
    | 0x004 => .status
    | 0x008 => .ecmd
    | 0x00C => .config
    | 0x010 => .svalid
    | 0x014 => .fvalid
    | 0x018 => .pvalid
    | _ => .unmapped
  else if a < 0x200 then mappedWord c j (.sWord (Fin.ofNat 8 ((a - 0x100) / 0x20)) j)
  else if a < 0x400 then
    mappedWord c j
      (.fWord (Fin.ofNat 8 ((a - 0x200) / 0x40)) (if a % 0x40 < 0x20 then .v else .m) j)
  else if c.hasCurve = false then .unmapped
  else if a < 0x600 then
    mappedWord c j
      (.pWord (Fin.ofNat 4 ((a - 0x400) / 0x80))
        (if a % 0x80 < 0x20 then .xv else if a % 0x80 < 0x40 then .xm else if a % 0x80 < 0x60 then .yv else .ym) j)
  else if a < 0x660 then
    mappedWord c j (.constWord (if a < 0x620 then .p else if a < 0x640 then .gx else .gy) j)
  else .unmapped

/-- The address R51 gives a location; `0x01C`, an unmapped word, stands for the unmapped ones. -/
def addressOf : Location → Nat
  | .cmd => 0x000
  | .status => 0x004
  | .ecmd => 0x008
  | .config => 0x00C
  | .svalid => 0x010
  | .fvalid => 0x014
  | .pvalid => 0x018
  | .sWord i j => 0x100 + 0x20 * i.val + 4 * j.val
  | .fWord i .v j => 0x200 + 0x40 * i.val + 4 * j.val
  | .fWord i .m j => 0x220 + 0x40 * i.val + 4 * j.val
  | .pWord i .xv j => 0x400 + 0x80 * i.val + 4 * j.val
  | .pWord i .xm j => 0x420 + 0x80 * i.val + 4 * j.val
  | .pWord i .yv j => 0x440 + 0x80 * i.val + 4 * j.val
  | .pWord i .ym j => 0x460 + 0x80 * i.val + 4 * j.val
  | .constWord .p j => 0x600 + 4 * j.val
  | .constWord .gx j => 0x620 + 4 * j.val
  | .constWord .gy j => 0x640 + 4 * j.val
  | .unmapped => 0x01C

/-! ## Reads -/

def FieldElement.part (a : FieldElement) : FPart → WideInt
  | .v => a.v
  | .m => a.m

def Point.part (P : Point) : PPart → WideInt
  | .xv => P.x.v
  | .xm => P.x.m
  | .yv => P.y.v
  | .ym => P.y.m

def DomainConst.value : DomainConst → WideInt
  | .p => domainP
  | .gx => domainGx
  | .gy => domainGy

/-- The word at a location; `none` where the spec calls it unspecified: a word of an invalid F or P register, an S
word whose mask bit is 0 (R57). `CMD` and unmapped words read 0 (R58). -/
def viewWord (s : State) : Location → Option Word32
  | .cmd => some 0
  | .status => some (statusWord s.status)
  | .ecmd => some s.ecmd
  | .config => some (configWord s.cfg)
  | .svalid => some (svalidWord s)
  | .fvalid => some (fvalidWord s)
  | .pvalid => some (pvalidWord s)
  | .sWord i j => s.sregs[i].words[j]
  | .fWord i part j => (s.fval i).map fun a => wordOf (a.part part) j.val
  | .pWord i part j => (s.pval i).map fun P => wordOf (P.part part) j.val
  | .constWord k j => some (wordOf k.value j.val)
  | .unmapped => some 0

/-- The word at an address, without a read: what the statements about unchanged words are made of. -/
def peek (s : State) (addr : Nat) : Option Word32 := viewWord s (locate s.cfg addr)

/-- A word handed to the host. -/
def pushReply (w : Word32) (s : State) : State := { s with replies := w :: s.replies }

/-- One free value is used up. -/
def countDraw (s : State) : State := { s with draws := s.draws + 1 }

/-- `MemRead(addr, 4)`: the word there, a new free value where it is unspecified (R57; log entry 2). -/
def hostRead (addr : Nat) (s : State) : State :=
  match peek s addr with
  | some w => pushReply w s
  | none => countDraw (pushReply (Config.freeWord s.draws) s)

/-! ## Writes -/

/-- `execute(c)` (60_exceptions.md R274) for any word: a legal word runs its command; an illegal one is dropped while
faulted and raises `IllegalCommand` otherwise (R275). -/
def executeWord (w : Word32) (s : State) : Result :=
  match decode s.cfg w with
  | .ok i => exec i s
  | .error _ => .next (if s.status.err then dropCommand s else faultEntry .illegalCommand w s)

/-- `MemWrite(addr, 4, w)`: CMD executes a command, an S word is written (R56), anything else is ignored (R58). -/
def hostWrite (addr : Nat) (w : Word32) (s : State) : Result :=
  match locate s.cfg addr with
  | .cmd => executeWord w s
  | .sWord i j => .next (setSWord s i j w)
  | _ => .next s

/-! ## Transactions -/

/-- The effect of one transaction, complete before the next begins (R60). -/
def transact (t : Transaction) (s : State) : Result :=
  match t with
  | .read addr size =>
    if admitted addr size then .next (hostRead addr s) else .refused (.accessNotAdmitted addr size)
  | .write addr size w =>
    if admitted addr size then hostWrite addr w s else .refused (.accessNotAdmitted addr size)
  | .reset => .next (resetCore s)

/-- The oldest pending transaction takes effect; with none pending the CORE is idle (60_exceptions.md R288). -/
def serveHost (s : State) : Result :=
  match s.pending with
  | [] => .next s
  | t :: rest => transact t { s with pending := rest }

/-- `HostIssue(c)` (R61). -/
def hostIssue (w : Word32) : Transaction := .write 0x000 4 w

/-- `HostWriteS(i, v)` (R61): the `NW` word writes of `v`. R61 allows any order; the model's choice is
least significant first, log entry 15. -/
def hostWriteS (c : Cfg) (i : SIdx) (v : WideInt) : List Transaction :=
  (List.range c.NW).map fun j => .write (0x100 + 0x20 * i.val + 4 * j) 4 (wordOf v j)

/-- The reads of all words of the W-bit slot at `base` (R61, `HostRead` of a field), least significant first, the
model's choice of order, log entry 15. -/
def hostReadSlot (c : Cfg) (base : Nat) : List Transaction :=
  (List.range c.NW).map fun j => .read (base + 4 * j) 4

/-- A command word placed where the next step takes it: the oldest pending transaction issues it. -/
def placeCommand (w : Word32) (s : State) : State := { s with pending := hostIssue w :: s.pending }

end Sys2Proof.Machine
end

