-- ==== Sys2Proof/Machine/Step.lean ====
section
/-! DEFINITION. One step of the machine: one host transaction. -/

namespace Sys2Proof.Machine

/-- One host transaction takes its whole effect (20_memory.md R60, 00_scope.md R9). -/
def step (s : State) : Host.Outcome State Fault Refusal := serveHost s

/-- The opcode-table word `w` of `nbits` bits, issued by the host's next transaction. -/
def State.withFetchWord (s : State) (nbits w : Nat) : State := placeCommand (BitVec.ofNat 32 (w % 2 ^ nbits)) s

end Sys2Proof.Machine
end

