-- ==== Sys2Proof/Safety.lean ====
section
/-! DEFINITION. What a claim may assume of a state and what counts as a safe step: the invariant of the register
files (10_state.md R25) with the facts the spec states about the configuration and the status register. -/

namespace Sys2Proof

open Machine

/-- 42_field_construct.md R140 and 10_state.md R25 of one element: reduced, modulus accepted by the Primality Tester,
and a W-bit value. -/
def ElementInv (c : Cfg) (a : FieldElement) : Prop :=
  a.v.toNat < a.m.toNat ∧ isPrime a.m.toNat = true ∧ a.m.toNat < 2 ^ c.W

/-- R25 of both coordinates of a point. -/
def PointInv (c : Cfg) (P : Point) : Prop := ElementInv c P.x ∧ ElementInv c P.y

/-- The invariant of the machine. -/
structure MachineInv (s : State) : Prop where
  /-- R25, F file -/
  fields : ∀ i a, s.fval i = some a → ElementInv s.cfg a
  /-- R25, P file -/
  points : ∀ i P, s.pval i = some P → PointInv s.cfg P
  /-- words `j >= NW` of an S register do not exist (20_memory.md R58) -/
  words : ∀ (i : SIdx) (j : Fin 8), s.cfg.NW ≤ j.val → s.sregs[i].words[j] = none
  /-- the P file exists only when `HASCURVE` (10_state.md R23) -/
  curve : s.cfg.hasCurve = false → ∀ i, s.pval i = none
  /-- not faulted: `DROP`, `ECODE` and `ECMD` are 0 (10_state.md R28, R29; 49_system.md R261) -/
  clean : s.status.err = false → s.status.drop = false ∧ s.status.ecode = 0 ∧ s.ecmd = 0
  /-- faulted: `ECODE` is the code of an error kind that some command raises (60_exceptions.md R270, R271, R273) -/
  faulted : s.status.err = true → ∃ k : ErrorKind, k ≠ .notImplemented ∧ s.status.ecode = k.code

/-- A step that completes: the machine has no other good outcome, and R305 says every command has it. -/
def SafeStep (s : State) : Prop := ∃ t, step s = .next t

/-- Every transaction the host has still to make is admitted by 20_memory.md R54. -/
def HostKeepsToWords (s : State) : Prop :=
  ∀ t ∈ s.pending,
    match t with
    | .read a n => admitted a n = true
    | .write a n _ => admitted a n = true
    | .reset => True

/-! ## Vocabulary of the statements -/

/-- Not faulted. -/
abbrev Running (s : State) : Prop := s.status.err = false

/-- The state with an error recorded, written out from 60_exceptions.md R278. -/
def withError (s : State) (code : BitVec 4) (w : Word32) : State :=
  { s with status := { s.status with err := true, ecode := code }, ecmd := w }

/-- The state with a dropped command recorded, written out from 60_exceptions.md R279. -/
def withDrop (s : State) : State := { s with status := { s.status with drop := true } }

/-- Every register of the column "read as source by" of 10_state.md R27 is valid. -/
def sourcesValid (s : State) : Instr → Bool
  | .nop => true
  | .clrerr => true
  | .srst => true
  | .isprime ra => (s.sval ra).isSome
  | .fnew _ ra rb => (s.sval ra).isSome && (s.sval rb).isSome
  | .fmov _ ra => (s.fval ra).isSome
  | .fzero _ ra => (s.fval ra).isSome
  | .fone _ ra => (s.fval ra).isSome
  | .feq ra rb => (s.fval ra).isSome && (s.fval rb).isSome
  | .fadd _ ra rb => (s.fval ra).isSome && (s.fval rb).isSome
  | .fsub _ ra rb => (s.fval ra).isSome && (s.fval rb).isSome
  | .fmul _ ra rb => (s.fval ra).isSome && (s.fval rb).isSome
  | .fsqr _ ra => (s.fval ra).isSome
  | .fexp _ ra rb => (s.fval ra).isSome && (s.sval rb).isSome
  | .finv _ ra => (s.fval ra).isSome
  | .fdiv _ ra rb => (s.fval ra).isSome && (s.fval rb).isSome
  | .pnew _ ra rb => (s.sval ra).isSome && (s.sval rb).isSome
  | .pset _ ra rb => (s.fval ra).isSome && (s.fval rb).isSome
  | .pgen _ => true
  | .pinf _ => true
  | .pmov _ ra => (s.pval ra).isSome
  | .pgetx _ ra => (s.pval ra).isSome
  | .pgety _ ra => (s.pval ra).isSome
  | .peq ra rb => (s.pval ra).isSome && (s.pval rb).isSome
  | .pdbl _ ra => (s.pval ra).isSome
  | .padd _ ra rb => (s.pval ra).isSome && (s.pval rb).isSome
  | .pmul _ ra rb => (s.pval ra).isSome && (s.sval rb).isSome

/-- The rows of 60_exceptions.md R271: the kinds a command can raise where its configuration has it. -/
def mayRaise : Instr → List ErrorKind
  | .nop => []
  | .clrerr => []
  | .srst => []
  | .isprime _ => [.uninit]
  | .fnew _ _ _ => [.uninit, .notPrime]
  | .fmov _ _ => [.uninit]
  | .fzero _ _ => [.uninit]
  | .fone _ _ => [.uninit]
  | .feq _ _ => [.uninit]
  | .fadd _ _ _ => [.uninit, .fieldMismatch]
  | .fsub _ _ _ => [.uninit, .fieldMismatch]
  | .fmul _ _ _ => [.uninit, .fieldMismatch]
  | .fsqr _ _ => [.uninit]
  | .fexp _ _ _ => [.uninit]
  | .finv _ _ => [.uninit, .notInvertible]
  | .fdiv _ _ _ => [.uninit, .fieldMismatch, .notInvertible]
  | .pnew _ _ _ => [.uninit]
  | .pset _ _ _ => [.uninit]
  | .pgen _ => []
  | .pinf _ => []
  | .pmov _ _ => [.uninit]
  | .pgetx _ _ => [.uninit]
  | .pgety _ _ => [.uninit]
  | .peq _ _ => [.uninit]
  | .pdbl _ _ => [.uninit, .fieldMismatch, .notInvertible]
  | .padd _ _ _ => [.uninit, .fieldMismatch, .notInvertible]
  | .pmul _ _ _ => [.uninit, .curveMismatch]

/-- What a completing command writes (10_state.md R27 "written as destination by", R34 for the flags). -/
inductive Destination where
  | nothing
  | f (rd : FIdx)
  | p (rd : PIdx)
  | prime
  | eq
  | faultState
  | everything
  deriving DecidableEq, Repr

def destination : Instr → Destination
  | .nop => .nothing
  | .clrerr => .faultState
  | .srst => .everything
  | .isprime _ => .prime
  | .fnew rd _ _ => .f rd
  | .fmov rd _ => .f rd
  | .fzero rd _ => .f rd
  | .fone rd _ => .f rd
  | .feq _ _ => .eq
  | .fadd rd _ _ => .f rd
  | .fsub rd _ _ => .f rd
  | .fmul rd _ _ => .f rd
  | .fsqr rd _ => .f rd
  | .fexp rd _ _ => .f rd
  | .finv rd _ => .f rd
  | .fdiv rd _ _ => .f rd
  | .pnew rd _ _ => .p rd
  | .pset rd _ _ => .p rd
  | .pgen rd => .p rd
  | .pinf rd => .p rd
  | .pmov rd _ => .p rd
  | .pgetx rd _ => .f rd
  | .pgety rd _ => .f rd
  | .peq _ _ => .eq
  | .pdbl rd _ => .p rd
  | .padd rd _ _ => .p rd
  | .pmul rd _ _ => .p rd

/-- The locations the map of 20_memory.md R51 has in a configuration. -/
def mapped (c : Cfg) : Location → Prop
  | .sWord _ j => j.val < c.NW
  | .fWord _ _ j => j.val < c.NW
  | .pWord _ _ j => c.hasCurve = true ∧ j.val < c.NW
  | .constWord _ j => c.hasCurve = true ∧ j.val < c.NW
  | .unmapped => False
  | _ => True

/-- The curve `y^2 = x^3 + 7` over `GF(p)` (46_point_construct.md R211, R212), in Mathlib's terms. -/
def secpCurve : WeierstrassCurve.Affine (ZMod domainP.toNat) := { a₁ := 0, a₂ := 0, a₃ := 0, a₄ := 0, a₆ := 7 }

/-- The point `P` of the CORE stands for the point `X` of the curve: `INF` for the identity, otherwise reduced
coordinates over `p`. -/
def Represents (P : Machine.Point) (X : secpCurve.Point) : Prop :=
  match X with
  | .zero => P = pointInf
  | .some x y _ =>
    P.x.m = domainP ∧ P.y.m = domainP ∧ P.x.v.toNat < domainP.toNat ∧ P.y.v.toNat < domainP.toNat ∧
      (P.x.v.toNat : ZMod domainP.toNat) = x ∧ (P.y.v.toNat : ZMod domainP.toNat) = y

end Sys2Proof
end

