-- ==== Sys2Proof/Certificates/Slice0/Obligations.lean ====
section
/-! DEFINITION. The statements about the CORE. `withError s code w` and `withDrop s` (Sys2Proof/Safety.lean) are the
states of 60_exceptions.md R278 and R279 written out; a next state written as a record update says that every other
field, so every other register, flag and word of the register space, is unchanged. -/

open Sys2Proof Sys2Proof.Machine

/-! ## Reset and the system commands -/

/-- R38, R262: the state after SRST and after the platform's reset, from any state, and State.reset. The model's
choice in it: absent contents (log entry 1), the host's side and the draw counter kept (log entry 7). -/
def Obligations.SrstAndResetPutTheResetState : Prop :=
  encode .srst = 0x02000000#32 ∧
  ∀ s : State,
    ∃ t : State,
      exec .srst s = .next t ∧ executeWord 0x02000000#32 s = .next t ∧ transact .reset s = .next t ∧
      t.status = ⟨false, false, false, false, 0⟩ ∧ statusWord t.status = 0 ∧ t.ecmd = 0 ∧
      (∀ i : SIdx, t.sval i = none ∧ ∀ j : Fin 8, t.sregs[i].words[j] = none ∧ viewWord t (.sWord i j) = none) ∧
      (∀ i : FIdx, t.fval i = none ∧ ∀ part j, viewWord t (.fWord i part j) = none) ∧
      (∀ i : PIdx, t.pval i = none ∧ ∀ part j, viewWord t (.pWord i part j) = none) ∧
      svalidWord t = 0 ∧ fvalidWord t = 0 ∧ pvalidWord t = 0 ∧
      t.cfg = s.cfg ∧ (s.cfg = .thisHardware → configWord t.cfg = 0x00000208#32) ∧
      (∀ k j, viewWord t (.constWord k j) = viewWord s (.constWord k j)) ∧
      t.pending = s.pending ∧ t.replies = s.replies ∧ t.draws = s.draws ∧
      State.reset.sregs = t.sregs ∧ State.reset.fregs = t.fregs ∧ State.reset.pregs = t.pregs ∧
      State.reset.status = t.status ∧ State.reset.ecmd = t.ecmd

/-- The reset state meets the invariant. -/
def Obligations.ResetStateMeetsInvariant : Prop := MachineInv State.reset

/-- R260. -/
def Obligations.NopChangesNothing : Prop :=
  encode .nop = 0x00000000#32 ∧
  ∀ s : State,
    (Running s → exec .nop s = .next s ∧ executeWord 0x00000000#32 s = .next s) ∧
    (¬Running s → exec .nop s = .next (withDrop s) ∧ executeWord 0x00000000#32 s = .next (withDrop s))

/-- R261. -/
def Obligations.ClrerrLeavesTheFaultState : Prop :=
  encode .clrerr = 0x01000000#32 ∧
  ∀ s : State,
    exec .clrerr s =
      .next { s with status := { s.status with err := false, drop := false, ecode := 0 }, ecmd := 0 } ∧
    executeWord 0x01000000#32 s = exec .clrerr s ∧
    (MachineInv s → Running s → exec .clrerr s = .next s) ∧
    (statusWord s.status = 0x00000203#32 → ∀ t, exec .clrerr s = .next t → statusWord t.status = 0 ∧ t.ecmd = 0) ∧
    (statusWord s.status = 0x00000207#32 → ∀ t, exec .clrerr s = .next t → statusWord t.status = 0x00000004#32)

/-! ## The Primality Tester -/

/-- R128: the verdict goes to PRIME and nothing else changes. -/
def Obligations.IsprimeWritesItsVerdict : Prop :=
  ∀ (s : State) (ra : SIdx) (n : WideInt), Running s → s.sval ra = some n →
    exec (.isprime ra) s = .next { s with status := { s.status with prime := isPrime n.toNat } }

/-- R121. -/
def Obligations.TrivialPrimalityCases : Prop :=
  (∀ n, n < 2 → isPrime n = false) ∧ isPrime 2 = true ∧ isPrime 3 = true ∧ isPrime 5 = true ∧
  (∀ n, n ∉ [2, 3, 5] → n % 2 = 0 → isPrime n = false) ∧
  (∀ n, ¬n < 2 → n ∉ [2, 3, 5] → ¬n % 2 = 0 → n % 2 = 1 ∧ 7 ≤ n)

/-- R122 to R125: the verdict on an odd `n >= 7` is the strong-probable-prime condition for the consecutive bases `2`
to `k + 1`, `k = clog10(n) + 1`, with `clog10(n)` the least `c` such that `10^c >= n`. -/
def Obligations.WitnessLoopDecidesStrongProbablePrimes : Prop :=
  (∀ n, n ≤ 10 ^ clog10 n ∧ ∀ c, n ≤ 10 ^ c → clog10 n ≤ c) ∧
  ∀ n s d, 7 ≤ n → n % 2 = 1 → n - 1 = 2 ^ s * d → d % 2 = 1 →
    (isPrime n = true ↔
      ∀ a, 2 ≤ a → a ≤ clog10 n + 1 + 1 → a ^ d % n = 1 ∨ ∃ r, r < s ∧ a ^ (2 ^ r * d) % n = n - 1)

/-- R126 (a): every prime number gets `true`. -/
def Obligations.EveryPrimeIsAccepted : Prop := ∀ n : Nat, n.Prime → isPrime n = true

/-! ## Field elements -/

/-- R142, R143: FNEW, both verdicts. -/
def Obligations.FnewReducesOrRaisesNotPrime : Prop :=
  ∀ (s : State) (rd : FIdx) (ra rb : SIdx) (v m : WideInt), Running s → s.sval ra = some v → s.sval rb = some m →
    (isPrime m.toNat = true →
      exec (.fnew rd ra rb) s =
        .next { s with fregs := s.fregs.set rd (some ⟨BitVec.ofNat 256 (v.toNat % m.toNat), m⟩) }) ∧
    (isPrime m.toNat = false → exec (.fnew rd ra rb) s = .next (withError s 1 (encode (.fnew rd ra rb))))

/-- R144, R145, R146: FMOV, FZERO, FONE. -/
def Obligations.FieldCopiesAndConstants : Prop :=
  ∀ (s : State) (rd ra : FIdx) (a : FieldElement), Running s → s.fval ra = some a →
    exec (.fmov rd ra) s = .next { s with fregs := s.fregs.set rd (some a) } ∧
    exec (.fzero rd ra) s = .next { s with fregs := s.fregs.set rd (some ⟨0, a.m⟩) } ∧
    exec (.fone rd ra) s = .next { s with fregs := s.fregs.set rd (some ⟨1, a.m⟩) }

/-- R147, and FEQ of R148: true exactly when values and moduli are equal, and no error. -/
def Obligations.FeqComparesValueAndModulus : Prop :=
  (∀ a b : FieldElement, feq a b = true ↔ a.v = b.v ∧ a.m = b.m) ∧
  ∀ (s : State) (ra rb : FIdx) (a b : FieldElement), Running s → s.fval ra = some a → s.fval rb = some b →
    exec (.feq ra rb) s = .next { s with status := { s.status with eq := decide (a.v = b.v ∧ a.m = b.m) } }

/-- R162, R163, R164: FADD within one field. -/
def Obligations.FaddAddsModuloM : Prop :=
  ∀ (s : State) (rd ra rb : FIdx) (a b : FieldElement), MachineInv s → Running s → s.fval ra = some a →
    s.fval rb = some b → a.m = b.m →
    exec (.fadd rd ra rb) s =
      .next { s with fregs := s.fregs.set rd (some ⟨BitVec.ofNat 256 ((a.v.toNat + b.v.toNat) % a.m.toNat), a.m⟩) }

/-- R166, R167, R168: FSUB within one field. -/
def Obligations.FsubSubtractsModuloM : Prop :=
  ∀ (s : State) (rd ra rb : FIdx) (a b : FieldElement), MachineInv s → Running s → s.fval ra = some a →
    s.fval rb = some b → a.m = b.m →
    exec (.fsub rd ra rb) s =
      .next { s with
        fregs := s.fregs.set rd (some ⟨BitVec.ofNat 256 ((a.v.toNat + a.m.toNat - b.v.toNat) % a.m.toNat), a.m⟩) }

/-- R181 to R184: FMUL within one field, and FSQR. -/
def Obligations.FmulAndFsqrMultiplyModuloM : Prop :=
  ∀ (s : State) (rd ra rb : FIdx) (a b : FieldElement), Running s → s.fval ra = some a → s.fval rb = some b →
    (a.m = b.m →
      exec (.fmul rd ra rb) s =
        .next { s with
          fregs := s.fregs.set rd (some ⟨BitVec.ofNat 256 (a.v.toNat * b.v.toNat % a.m.toNat), a.m⟩) }) ∧
    exec (.fsqr rd ra) s =
      .next { s with fregs := s.fregs.set rd (some ⟨BitVec.ofNat 256 (a.v.toNat ^ 2 % a.m.toNat), a.m⟩) }

/-- R192, R193, R194: FEXP, the reduced exponent zero or not. -/
def Obligations.FexpRaisesToTheReducedExponent : Prop :=
  ∀ (s : State) (rd ra : FIdx) (rb : SIdx) (a : FieldElement) (e : WideInt), MachineInv s → Running s →
    s.fval ra = some a → s.sval rb = some e →
    exec (.fexp rd ra rb) s =
      .next { s with
        fregs := s.fregs.set rd (some
          ⟨BitVec.ofNat 256
            (if e.toNat % (a.m.toNat - 1) = 0 then s.cfg.EXP0
             else a.v.toNat ^ (e.toNat % (a.m.toNat - 1)) % a.m.toNat), a.m⟩) }

/-- R195, R196: FINV of a non-zero element; for a modulus that is prime and at least 3 it is the inverse. -/
def Obligations.FinvInvertsNonzeroElements : Prop :=
  ∀ (s : State) (rd ra : FIdx) (a : FieldElement), MachineInv s → Running s → s.fval ra = some a → a.v ≠ 0 →
    ∃ r : FieldElement,
      exec (.finv rd ra) s = .next { s with fregs := s.fregs.set rd (some r) } ∧ r.m = a.m ∧
      r.v.toNat = (if a.m.toNat = 2 then s.cfg.EXP0 else a.v.toNat ^ (a.m.toNat - 2) % a.m.toNat) ∧
      (a.m.toNat.Prime → 3 ≤ a.m.toNat → a.v.toNat * r.v.toNat % a.m.toNat = 1)

/-- R197, R198: FDIV by a non-zero element of the same field; for a modulus that is prime and at least 3 it undoes the
multiplication. -/
def Obligations.FdivDividesWithinOneField : Prop :=
  ∀ (s : State) (rd ra rb : FIdx) (a b : FieldElement), MachineInv s → Running s → s.fval ra = some a →
    s.fval rb = some b → a.m = b.m → b.v ≠ 0 →
    ∃ r : FieldElement,
      exec (.fdiv rd ra rb) s = .next { s with fregs := s.fregs.set rd (some r) } ∧ r.m = a.m ∧
      r.v.toNat =
        a.v.toNat * (if b.m.toNat = 2 then s.cfg.EXP0 else b.v.toNat ^ (b.m.toNat - 2) % b.m.toNat) % a.m.toNat ∧
      (a.m.toNat.Prime → 3 ≤ a.m.toNat → r.v.toNat * b.v.toNat % a.m.toNat = a.v.toNat)

/-- R141, R195, R197: FieldMismatch for operands of different fields (also when the divisor is zero), NotInvertible for
zero. -/
def Obligations.FieldErrorsAreRaised : Prop :=
  ∀ (s : State) (rd ra rb : FIdx) (a b : FieldElement), Running s → s.fval ra = some a → s.fval rb = some b →
    (a.m ≠ b.m →
      exec (.fadd rd ra rb) s = .next (withError s 2 (encode (.fadd rd ra rb))) ∧
      exec (.fsub rd ra rb) s = .next (withError s 2 (encode (.fsub rd ra rb))) ∧
      exec (.fmul rd ra rb) s = .next (withError s 2 (encode (.fmul rd ra rb))) ∧
      exec (.fdiv rd ra rb) s = .next (withError s 2 (encode (.fdiv rd ra rb)))) ∧
    (a.m = b.m → b.v = 0 → exec (.fdiv rd ra rb) s = .next (withError s 5 (encode (.fdiv rd ra rb)))) ∧
    (a.v = 0 → exec (.finv rd ra) s = .next (withError s 5 (encode (.finv rd ra))))

/-! ## The integer units -/

/-- R101, R104, and the equation of R102. -/
def Obligations.OverflowDetectingPrimitives : Prop :=
  (∀ W a b : Nat, a < 2 ^ W → b < 2 ^ W →
    (oadd W a b).1 = (a + b) % 2 ^ W ∧ ((oadd W a b).2 = true ↔ 2 ^ W ≤ a + b) ∧
    a + b = (oadd W a b).1 + (oadd W a b).2.toNat * 2 ^ W ∧
    (osub W a b).1 < 2 ^ W ∧ ((osub W a b).2 = true ↔ a < b) ∧
    (a : Int) - b = (osub W a b).1 - (osub W a b).2.toNat * 2 ^ W) ∧
  ∀ a i : Nat, bitAt a i = a.testBit i ∧ (bitAt a i).toNat = a / 2 ^ i % 2

/-- R161, R162: the correction constant, the exact modular sum, and no second carry. -/
def Obligations.ModularAdditionIsExact : Prop :=
  ∀ W a b m : Nat, 2 ≤ m → m ≤ 2 ^ W - 1 → a ≤ m → b ≤ m →
    ((osub W (2 ^ W - 1) m).1 + 1 = 2 ^ W - m ∧ (osub W (2 ^ W - 1) m).1 ≤ 2 ^ W - 1 - 2 ∧
      (osub W (2 ^ W - 1) m).2 = false ∧ (osub W (2 ^ W - 1) m).1 + 1 < 2 ^ W) ∧
    addMod W a b m = (a + b) % m ∧
    ((oadd W a b).2 = true → (oadd W (oadd W a b).1 ((osub W (2 ^ W - 1) m).1 + 1)).2 = false)

/-- R165, R168: the additive inverse, and subtraction through it. -/
def Obligations.SubtractionAddsTheAdditiveInverse : Prop :=
  (∀ W b m : Nat, b < m → m < 2 ^ W →
    negRaw W b m = m - b ∧ 1 ≤ negRaw W b m ∧ negRaw W b m ≤ m ∧ (b = 0 → negRaw W b m = m) ∧
      (osub W m b).2 = false) ∧
  ∀ (c : Cfg) (a b : FieldElement), ElementInv c a → ElementInv c b → a.m = b.m →
    ∃ r, fsub c a b = .ok r ∧ r.m = a.m ∧ r.v.toNat = (a.v.toNat + a.m.toNat - b.v.toNat) % a.m.toNat ∧
      (r.v.toNat : Int) = ((a.v.toNat : Int) - b.v.toNat) % a.m.toNat

/-- R181: the double-and-add loop of R180 gives the product modulo `m`, and every intermediate `result` and `base` is
the value the induction of R181 names, below `m`. `mulMod` is the product by its value, as R181 permits (log entry
9). -/
def Obligations.MultiplierLoopComputesProduct : Prop :=
  ∀ W a b m : Nat, 2 ≤ m → m < 2 ^ W → a < m → b < m →
    mulModDoubleAndAdd W a b m = a * b % m ∧ mulMod a b m = a * b % m ∧
    ∀ i, i ≤ W →
      mulModLoop W b m i 0 (0, a) = (a * (b % 2 ^ i) % m, a * 2 ^ i % m) ∧
      (mulModLoop W b m i 0 (0, a)).1 < m ∧ (mulModLoop W b m i 0 (0, a)).2 < m

/-- R192 and its consequences (a) to (c); (d), an accepted composite modulus, is the first clause without `m.Prime`. -/
def Obligations.ExponentiationComputesReducedPower : Prop :=
  ∀ (c : Cfg) (a e m : Nat), 2 ≤ m → m < 2 ^ c.W → a < m →
    (e % (m - 1) ≠ 0 → expMod c a e m = a ^ (e % (m - 1)) % m) ∧
    (e % (m - 1) = 0 → expMod c a e m = c.EXP0) ∧
    (m.Prime → a ≠ 0 → e % (m - 1) ≠ 0 → expMod c a e m = a ^ e % m) ∧
    (a = 0 → e % (m - 1) ≠ 0 → expMod c a e m = 0 ∧ a ^ e % m = 0) ∧
    (m.Prime → e % (m - 1) = 0 → 0 < e → (a ≠ 0 → a ^ e % m = 1) ∧ (a = 0 → a ^ e % m = 0))

/-- R8, for the field functions: the same result at both widths for operands that fit both. -/
def Obligations.FieldResultsDoNotDependOnWidth : Prop :=
  ∀ (c d : Cfg) (a b : FieldElement) (e : Nat), c.width = .w64 → d.width = .w256 → c.exp0 = d.exp0 →
    ElementInv c a → ElementInv c b →
    fadd c a b = fadd d a b ∧ fsub c a b = fsub d a b ∧ fexp c a e = fexp d a e ∧ finv c a = finv d a ∧
      fdiv c a b = fdiv d a b

/-! ## Points -/

/-- R214: PNEW reduces both raw coordinates modulo `p`; NotPrime does not occur. -/
def Obligations.PnewReducesModuloDomainPrime : Prop :=
  ∀ (s : State) (rd : PIdx) (ra rb : SIdx) (u v : WideInt), Running s → s.cfg.hasCurve = true →
    s.sval ra = some u → s.sval rb = some v →
    exec (.pnew rd ra rb) s =
      .next { s with
        pregs := s.pregs.set rd (some
          ⟨⟨BitVec.ofNat 256 (u.toNat % domainP.toNat), domainP⟩,
           ⟨BitVec.ofNat 256 (v.toNat % domainP.toNat), domainP⟩⟩) }

/-- R215, R216, R217: PSET, PGEN, PINF. G is presumed by the spec itself (log entry 13). -/
def Obligations.PsetPgenPinfConstruct : Prop :=
  ∀ (s : State) (rd : PIdx) (ra rb : FIdx) (x y : FieldElement), Running s → s.cfg.hasCurve = true →
    (s.fval ra = some x → s.fval rb = some y →
      exec (.pset rd ra rb) s = .next { s with pregs := s.pregs.set rd (some ⟨x, y⟩) }) ∧
    exec (.pgen rd) s =
      .next { s with
        pregs := s.pregs.set rd (some
          ⟨⟨0x79BE667EF9DCBBAC55A06295CE870B07029BFCDB2DCE28D959F2815B16F81798#256,
            0xFFFFFFFFFFFFFFFFFFFFFFFFFFFFFFFFFFFFFFFFFFFFFFFFFFFFFFFEFFFFFC2F#256⟩,
           ⟨0x483ADA7726A3C4655DA4FBFC0E1108A8FD17B448A68554199C47D08FFB10D4B8#256,
            0xFFFFFFFFFFFFFFFFFFFFFFFFFFFFFFFFFFFFFFFFFFFFFFFFFFFFFFFEFFFFFC2F#256⟩⟩) } ∧
    exec (.pinf rd) s = .next { s with pregs := s.pregs.set rd (some ⟨⟨0, domainP⟩, ⟨0, domainP⟩⟩) }

/-- R218, R219, R220: PMOV, PGETX, PGETY. -/
def Obligations.PointCopiesAndCoordinates : Prop :=
  ∀ (s : State) (rd ra : PIdx) (fd : FIdx) (P : Machine.Point), Running s → s.cfg.hasCurve = true →
    s.pval ra = some P →
    exec (.pmov rd ra) s = .next { s with pregs := s.pregs.set rd (some P) } ∧
    exec (.pgetx fd ra) s = .next { s with fregs := s.fregs.set fd (some P.x) } ∧
    exec (.pgety fd ra) s = .next { s with fregs := s.fregs.set fd (some P.y) }

/-- R213, and PEQ of R221. -/
def Obligations.PeqComparesAllFourIntegers : Prop :=
  (∀ P Q : Machine.Point, peq P Q = (feq P.x Q.x && feq P.y Q.y) ∧
    (peq P Q = true ↔ P.x.v = Q.x.v ∧ P.x.m = Q.x.m ∧ P.y.v = Q.y.v ∧ P.y.m = Q.y.m)) ∧
  ∀ (s : State) (ra rb : PIdx) (P Q : Machine.Point), Running s → s.cfg.hasCurve = true →
    s.pval ra = some P → s.pval rb = some Q →
    exec (.peq ra rb) s = .next { s with status := { s.status with eq := decide (P = Q) } }

/-- R230, R231: PDBL, the vertical tangent and the tangent formulas over any one accepted modulus but 2 (for modulus 2
see PdblRaisesItsErrors). -/
def Obligations.PdblDoubles : Prop :=
  ∀ (s : State) (rd ra : PIdx) (P : Machine.Point), MachineInv s → Running s → s.cfg.hasCurve = true →
    s.pval ra = some P →
    (P.y.v = 0 → exec (.pdbl rd ra) s = .next { s with pregs := s.pregs.set rd (some pointInf) }) ∧
    (P.y.v ≠ 0 → P.x.m = P.y.m → P.x.m ≠ 2 →
      let m := P.x.m.toNat
      let x := P.x.v.toNat
      let y := P.y.v.toNat
      let lam := 3 * x ^ 2 * (2 * y) ^ (m - 2) % m
      let x3 := (lam ^ 2 + (m - x) + (m - x)) % m
      let y3 := (lam * (x + (m - x3)) + (m - y)) % m
      exec (.pdbl rd ra) s =
        .next { s with
          pregs := s.pregs.set rd (some ⟨⟨BitVec.ofNat 256 x3, P.x.m⟩, ⟨BitVec.ofNat 256 y3, P.x.m⟩⟩) })

/-- R235, rows of `pdbl`: exactly when PDBL raises, and what. -/
def Obligations.PdblRaisesItsErrors : Prop :=
  ∀ (s : State) (rd ra : PIdx) (P : Machine.Point), MachineInv s → Running s → s.cfg.hasCurve = true →
    s.pval ra = some P →
    (P.y.v ≠ 0 → P.x.m ≠ P.y.m → exec (.pdbl rd ra) s = .next (withError s 2 (encode (.pdbl rd ra)))) ∧
    (P.y.v ≠ 0 → P.x.m = P.y.m → 2 * P.y.v.toNat % P.y.m.toNat = 0 →
      exec (.pdbl rd ra) s = .next (withError s 5 (encode (.pdbl rd ra))) ∧ P.y.m = 2 ∧ P.y.v = 1) ∧
    ((P.y.v = 0 ∨ (P.x.m = P.y.m ∧ 2 * P.y.v.toNat % P.y.m.toNat ≠ 0)) →
      ∃ t, exec (.pdbl rd ra) s = .next t ∧ Running t)

/-- R232, R233: PADD in the order of its three steps. -/
def Obligations.PaddAdds : Prop :=
  ∀ (s : State) (rd ra rb : PIdx) (P Q : Machine.Point), MachineInv s → Running s → s.cfg.hasCurve = true →
    s.pval ra = some P → s.pval rb = some Q →
    (P.x = Q.x → P.y = Q.y → ∀ R, pdbl s.cfg P = .ok R →
      exec (.padd rd ra rb) s = .next { s with pregs := s.pregs.set rd (some R) }) ∧
    (P.x = Q.x → P.y ≠ Q.y → exec (.padd rd ra rb) s = .next { s with pregs := s.pregs.set rd (some pointInf) }) ∧
    (P.x ≠ Q.x → P.x.v = 0 ∧ P.y.v = 0 →
      exec (.padd rd ra rb) s = .next { s with pregs := s.pregs.set rd (some Q) }) ∧
    (P.x ≠ Q.x → ¬(P.x.v = 0 ∧ P.y.v = 0) → Q.x.v = 0 ∧ Q.y.v = 0 →
      exec (.padd rd ra rb) s = .next { s with pregs := s.pregs.set rd (some P) }) ∧
    (P.x ≠ Q.x → ¬(P.x.v = 0 ∧ P.y.v = 0) → ¬(Q.x.v = 0 ∧ Q.y.v = 0) →
      P.y.m = P.x.m → Q.x.m = P.x.m → Q.y.m = P.x.m →
      let m := P.x.m.toNat
      let dx := P.x.v.toNat + (m - Q.x.v.toNat)
      let inv := if m = 2 then s.cfg.EXP0 else dx ^ (m - 2) % m
      let lam := (P.y.v.toNat + (m - Q.y.v.toNat)) * inv % m
      let x3 := (lam ^ 2 + (m - P.x.v.toNat) + (m - Q.x.v.toNat)) % m
      let y3 := (lam * (P.x.v.toNat + (m - x3)) + (m - P.y.v.toNat)) % m
      exec (.padd rd ra rb) s =
        .next { s with
          pregs := s.pregs.set rd (some ⟨⟨BitVec.ofNat 256 x3, P.x.m⟩, ⟨BitVec.ofNat 256 y3, P.x.m⟩⟩) })

/-- R235, rows of `padd`: the doubling branch raises what PDBL raises; the chord raises FieldMismatch unless the four
moduli are equal, and never NotInvertible. -/
def Obligations.PaddRaisesItsErrors : Prop :=
  ∀ (s : State) (rd ra rb : PIdx) (P Q : Machine.Point), MachineInv s → Running s → s.cfg.hasCurve = true →
    s.pval ra = some P → s.pval rb = some Q →
    (∀ k, P.x = Q.x → P.y = Q.y → pdbl s.cfg P = .error k →
      exec (.padd rd ra rb) s = .next (withError s k.code (encode (.padd rd ra rb)))) ∧
    (P.x ≠ Q.x → ¬(P.x.v = 0 ∧ P.y.v = 0) → ¬(Q.x.v = 0 ∧ Q.y.v = 0) →
      (¬(P.y.m = P.x.m ∧ Q.x.m = P.x.m ∧ Q.y.m = P.x.m) ↔
        exec (.padd rd ra rb) s = .next (withError s 2 (encode (.padd rd ra rb)))) ∧
      exec (.padd rd ra rb) s ≠ .next (withError s 5 (encode (.padd rd ra rb))))

/-- R234, the cases that do not follow from one modulus alone: `padd(P, P)`, one `x` and two `y`, the identity as an
operand, two identities over different fields, the order of the steps for `((0, p), (y, p))` (90_conflicts.md C3). -/
def Obligations.AdditionCornerCases : Prop :=
  ∀ (c : Cfg) (P Q : Machine.Point),
    padd c P P = pdbl c P ∧
    (P.x = Q.x → P.y ≠ Q.y → padd c P Q = .ok pointInf) ∧
    (Q.x.v ≠ 0 ∨ Q.x.m ≠ domainP → padd c pointInf Q = .ok Q) ∧
    (P.x.v ≠ 0 → padd c P pointInf = .ok P) ∧
    padd c pointInf pointInf = .ok pointInf ∧
    (Q.x = ⟨0, domainP⟩ → Q.y.v ≠ 0 →
      padd c pointInf Q = .ok pointInf ∧ padd c Q pointInf = .ok pointInf) ∧
    (Q.x.v = 0 → Q.y.v = 0 → Q.x.m ≠ domainP →
      padd c pointInf Q = .ok Q ∧ padd c Q pointInf = .ok pointInf) ∧
    (P.y.v = 0 → pdbl c P = .ok pointInf ∧ padd c P P = .ok pointInf)

/-- R250, R251: PMUL of a point over another field raises CurveMismatch whatever the scalar; for a point over `p` it
completes for every scalar, and its result is that of the loop with all `W` iterations, reduced over `p`; the corner
cases `k = 0`, `1`, `2`, `P = INF`. That `pmul` stops early is the model's choice (log entry 9). -/
def Obligations.PmulCompletesExactlyOverTheDomainPrime : Prop :=
  ∀ (s : State) (rd ra : PIdx) (rb : SIdx) (P : Machine.Point) (k : WideInt), MachineInv s → Running s →
    s.cfg.hasCurve = true → s.pval ra = some P → s.sval rb = some k →
    (P.x.m ≠ domainP ∨ P.y.m ≠ domainP →
      exec (.pmul rd ra rb) s = .next (withError s 3 (encode (.pmul rd ra rb)))) ∧
    (P.x.m = domainP ∧ P.y.m = domainP →
      ∃ R B, exec (.pmul rd ra rb) s = .next { s with pregs := s.pregs.set rd (some R) } ∧
        pmulFullLoop s.cfg k.toNat P s.cfg.W = .ok (R, B) ∧ pmul s.cfg P k.toNat = .ok R ∧
        PointInv s.cfg R ∧ R.x.m = domainP ∧ R.y.m = domainP ∧
        (k = 0 → R = pointInf) ∧
        (k = 1 → padd s.cfg pointInf P = .ok R) ∧
        (k = 2 → ∃ D, pdbl s.cfg P = .ok D ∧ padd s.cfg pointInf D = .ok R) ∧
        (P = pointInf → R = pointInf))

/-- R234: on the curve and its identity, `padd` and `pdbl` are the group operation of Mathlib's Weierstrass curve
`y^2 = x^3 + 7` over `GF(p)`. -/
def Obligations.PointAdditionIsTheGroupLaw : Prop :=
  ∀ [Fact domainP.toNat.Prime] (c : Cfg) (P Q : Machine.Point) (X Y : secpCurve.Point), c.hasCurve = true →
    Represents P X → Represents Q Y →
    (∃ R, padd c P Q = .ok R ∧ Represents R (X + Y)) ∧ (∃ R, pdbl c P = .ok R ∧ Represents R (X + X))

/-- R252 (a): PMUL of a curve point is the `k`-fold group sum, for every W-bit `k`. -/
def Obligations.ScalarMultiplicationIsTheGroupMultiple : Prop :=
  ∀ [Fact domainP.toNat.Prime] (s : State) (rd ra : PIdx) (rb : SIdx) (P : Machine.Point) (X : secpCurve.Point)
    (k : WideInt), Running s → s.cfg.hasCurve = true → s.pval ra = some P → s.sval rb = some k → Represents P X →
    ∃ R, exec (.pmul rd ra rb) s = .next { s with pregs := s.pregs.set rd (some R) } ∧ Represents R (k.toNat • X)

/-! ## Executing a command -/

/-- R279: every word but CLRERR and SRST sets DROP while faulted and does nothing else; host reads and writes of S
registers work as usual. The list of replies is the model's own (log entry 6). -/
def Obligations.CommandsAreDroppedWhileFaulted : Prop :=
  ∀ (s : State), ¬Running s →
    (∀ w, w ≠ 0x01000000#32 → w ≠ 0x02000000#32 → executeWord w s = .next (withDrop s)) ∧
    (∀ a w, peek s a = some w → hostRead a s = { s with replies := w :: s.replies }) ∧
    (∀ (i : SIdx) (j : Fin 8) (w : Word32), j.val < s.cfg.NW →
      hostWrite (0x100 + 0x20 * i.val + 4 * j.val) w s =
        .next { s with sregs := s.sregs.set i ⟨s.sregs[i].words.set j (some w)⟩ })

/-- R275: IllegalCommand for exactly the words that decode to nothing, whatever registers they name. -/
def Obligations.IllegalWordsRaiseIllegalCommand : Prop :=
  ∀ (s : State) (w : Word32), Running s →
    ((∃ e, decode s.cfg w = .error e) → executeWord w s = .next (withError s 6 w)) ∧
    ((∃ i, decode s.cfg w = .ok i) → ∀ t, executeWord w s = .next t → ¬(t.status.err = true ∧ t.status.ecode = 6))

/-- R276: an invalid source raises Uninit, whichever it is and whatever the destination; with all sources valid no
command raises it. -/
def Obligations.InvalidSourcesRaiseUninit : Prop :=
  ∀ (i : Instr) (s : State), Running s → i.wellFormed s.cfg = true →
    (sourcesValid s i = false → exec i s = .next (withError s 7 (encode i))) ∧
    (sourcesValid s i = true → ∀ t, exec i s = .next t → ¬(t.status.err = true ∧ t.status.ecode = 7))

/-- R278, R282: a command word that raises an error changes ERR, ECODE and ECMD and nothing else, and finds DROP 0; a
recorded error is never overwritten. -/
def Obligations.ErrorsArePrecise : Prop :=
  ∀ (w : Word32) (s t : State), executeWord w s = .next t →
    (Running s → t.status.err = true →
      (∃ k : ErrorKind, t = withError s k.code w) ∧ (MachineInv s → t.status.drop = false)) ∧
    (¬Running s → w ≠ 0x01000000#32 → w ≠ 0x02000000#32 →
      t.status.ecode = s.status.ecode ∧ t.ecmd = s.ecmd ∧ ¬Running t)

/-- R271, in the states that meet the invariant; a command the configuration lacks raises IllegalCommand. What `exec`
of a command the configuration lacks answers is the model's choice (log entry 11). -/
def Obligations.CommandsRaiseOnlyTheirErrors : Prop :=
  ∀ (i : Instr) (s t : State), MachineInv s → Running s → exec i s = .next t →
    (i.wellFormed s.cfg = true → t.status.err = true → ∃ k ∈ mayRaise i, t = withError s k.code (encode i)) ∧
    (i.wellFormed s.cfg = false → t = withError s 6 (encode i))

/-- R305: every command word, in every state, ends in a next state. -/
def Obligations.EveryCommandTerminates : Prop :=
  ∀ (w : Word32) (s : State), ∃ t, executeWord w s = .next t

/-- The step issues and runs the decoded command. The list of transactions is the model's form of the port (log entry
5). -/
def Obligations.StepRunsTheDecodedCommand : Prop :=
  ∀ (s : State) (w : Word32) (rest : List Transaction) (i : Instr), s.pending = .write 0x000 4 w :: rest →
    decode s.cfg w = .ok i → step s = exec i { s with pending := rest }

/-! ## Frames -/

/-- What a command whose destination is an F register leaves unchanged (10_state.md R26, R27, R34). -/
def Obligations.FieldWritersFrame : Prop :=
  ∀ (i : Instr) (rd : FIdx) (s t : State), destination i = .f rd → exec i s = .next t →
    t.cfg = s.cfg ∧ t.sregs = s.sregs ∧ t.pregs = s.pregs ∧ (∀ j, j ≠ rd → t.fval j = s.fval j) ∧
    t.status.prime = s.status.prime ∧ t.status.eq = s.status.eq ∧
    t.pending = s.pending ∧ t.replies = s.replies ∧ t.draws = s.draws ∧
    ((t.status = s.status ∧ t.ecmd = s.ecmd) ∨ t.fregs = s.fregs) ∧
    ∀ a, (∀ part j, locate s.cfg a ≠ .fWord rd part j) → locate s.cfg a ∉ [.fvalid, .status, .ecmd] →
      peek t a = peek s a

/-- What a command whose destination is a P register leaves unchanged. -/
def Obligations.PointWritersFrame : Prop :=
  ∀ (i : Instr) (rd : PIdx) (s t : State), destination i = .p rd → exec i s = .next t →
    t.cfg = s.cfg ∧ t.sregs = s.sregs ∧ t.fregs = s.fregs ∧ (∀ j, j ≠ rd → t.pval j = s.pval j) ∧
    t.status.prime = s.status.prime ∧ t.status.eq = s.status.eq ∧
    t.pending = s.pending ∧ t.replies = s.replies ∧ t.draws = s.draws ∧
    ((t.status = s.status ∧ t.ecmd = s.ecmd) ∨ t.pregs = s.pregs) ∧
    ∀ a, (∀ part j, locate s.cfg a ≠ .pWord rd part j) → locate s.cfg a ∉ [.pvalid, .status, .ecmd] →
      peek t a = peek s a

/-- What NOP, ISPRIME, FEQ, PEQ and CLRERR leave unchanged: every register, and every word but STATUS and ECMD. -/
def Obligations.FlagWritersFrame : Prop :=
  ∀ (i : Instr) (s t : State), destination i ∈ [.nothing, .prime, .eq, .faultState] → exec i s = .next t →
    t.cfg = s.cfg ∧ t.sregs = s.sregs ∧ t.fregs = s.fregs ∧ t.pregs = s.pregs ∧
    (destination i ≠ .prime → t.status.prime = s.status.prime) ∧
    (destination i ≠ .eq → t.status.eq = s.status.eq) ∧
    t.pending = s.pending ∧ t.replies = s.replies ∧ t.draws = s.draws ∧
    ∀ a, locate s.cfg a ∉ [.status, .ecmd] → peek t a = peek s a

/-! ## Encoding -/

/-- Decoding what the encoder writes gives the instruction back, for every instruction and operand. -/
def Obligations.DecodeInvertsEncode : Prop :=
  ∀ (c : Cfg) (i : Instr), i.wellFormed c = true → decode c (encode i) = .ok i

/-- A word that decodes is the word the encoder writes: one meaning for each word and one word for each meaning. -/
def Obligations.EncodeInvertsDecode : Prop :=
  ∀ (c : Cfg) (w : Word32) (i : Instr), decode c w = .ok i → encode i = w ∧ i.wellFormed c = true

/-- R85, R86: the decoder against the mask and match columns of the opcode map, on all words; the operand fields; the
configuration without the curve. -/
def Obligations.DecodeMatchesOpcodeTable : Prop :=
  opcodeTable.length = 27 ∧
  opcodeTable.Pairwise (fun r q => ∀ w, ¬(r.covers w = true ∧ q.covers w = true)) ∧
  (∀ (w : Word32) (r : OpRow), r ∈ opcodeTable →
    (r.covers w = true ↔ ∃ i, decodeRow w = .ok i ∧ i.mnemonic = r.mnemonic)) ∧
  (∀ (w : Word32) (i : Instr), decodeRow w = .ok i →
    (∃ r ∈ opcodeTable, r.covers w = true ∧ r.mnemonic = i.mnemonic) ∧
    i.operandFields = ((w.extractLsb' 20 4).toNat, (w.extractLsb' 16 4).toNat, (w.extractLsb' 12 4).toNat)) ∧
  ∀ (c : Cfg) (w : Word32),
    (∀ i, decode c w = .ok i ↔
      decodeRow w = .ok i ∧
        ¬(c.hasCurve = false ∧ 0x30 ≤ (w.extractLsb' 24 8).toNat ∧ (w.extractLsb' 24 8).toNat ≤ 0x3A))

/-- R87: the worked encodings. -/
def Obligations.WorkedEncodingsDecode : Prop :=
  decode .thisHardware 0x18201000#32 = .ok (.fadd 2 0 1) ∧ decode .thisHardware 0x10001000#32 = .ok (.fnew 0 0 1) ∧
  decode .thisHardware 0x1C324000#32 = .ok (.fexp 3 2 4) ∧ decode .thisHardware 0x08050000#32 = .ok (.isprime 5) ∧
  decode .thisHardware 0x14067000#32 = .ok (.feq 6 7) ∧ decode .thisHardware 0x32000000#32 = .ok (.pgen 0) ∧
  decode .thisHardware 0x33300000#32 = .ok (.pinf 3) ∧ decode .thisHardware 0x38100000#32 = .ok (.pdbl 1 0) ∧
  decode .thisHardware 0x39201000#32 = .ok (.padd 2 0 1) ∧ decode .thisHardware 0x3A307000#32 = .ok (.pmul 3 0 7) ∧
  decode .thisHardware 0x35520000#32 = .ok (.pgetx 5 2) ∧ decode .thisHardware 0x01000000#32 = .ok .clrerr

/-- R94: what the pseudo-instructions FDBL and FNEG leave in their destination, run as their expansions. -/
def Obligations.PseudoInstructionsDoubleAndNegate : Prop :=
  ∀ (s : State) (rd ra : FIdx) (a : FieldElement), MachineInv s → Running s → s.fval ra = some a →
    ((Pseudo.fdbl rd ra).expand = some [.fadd rd ra ra] ∧
      exec (.fadd rd ra ra) s =
        .next { s with fregs := s.fregs.set rd (some ⟨BitVec.ofNat 256 (2 * a.v.toNat % a.m.toNat), a.m⟩) }) ∧
    ((Pseudo.fneg rd rd).expand = none) ∧
    (rd ≠ ra →
      (Pseudo.fneg rd ra).expand = some [.fzero rd ra, .fsub rd rd ra] ∧
      ∃ t, exec (.fzero rd ra) s = .next t ∧
        exec (.fsub rd rd ra) t =
          .next { s with
            fregs := s.fregs.set rd (some ⟨BitVec.ofNat 256 ((a.m.toNat - a.v.toNat) % a.m.toNat), a.m⟩) })

/-! ## Invariants of every step -/

/-- R25: the invariant of the F and P files, kept by every step from every state. -/
def Obligations.StepKeepsElementsReducedAndAccepted : Prop :=
  let RegisterInv (s : State) : Prop :=
    (∀ i a, s.fval i = some a → a.v < a.m ∧ isPrime a.m.toNat = true ∧ 2 ≤ a.m.toNat) ∧
    ∀ i P, s.pval i = some P →
      (P.x.v < P.x.m ∧ isPrime P.x.m.toNat = true ∧ 2 ≤ P.x.m.toNat) ∧
      (P.y.v < P.y.m ∧ isPrime P.y.m.toNat = true ∧ 2 ≤ P.y.m.toNat)
  RegisterInv State.reset ∧ ∀ s t : State, RegisterInv s → step s = .next t → RegisterInv t

/-- The whole invariant `MachineInv`, kept by every step from every state. -/
def Obligations.StepKeepsMachineInvariant : Prop :=
  ∀ s t : State, MachineInv s → step s = .next t → MachineInv t ∧ t.cfg = s.cfg

/-! ## The host port -/

/-- R51: every mapped location is found at the address the map gives it, and the two unmapped ranges hold nothing. -/
def Obligations.AddressMapIsExact : Prop :=
  (∀ (c : Cfg) (l : Location), mapped c l → admitted (addressOf l) 4 = true ∧ locate c (addressOf l) = l) ∧
  (∀ (c : Cfg) (a : Nat), admitted a 4 = true →
    (locate c a = .unmapped ∨ (mapped c (locate c a) ∧ addressOf (locate c a) = a))) ∧
  (∀ (c : Cfg) (a : Nat), admitted a 4 = true → (0x01C ≤ a ∧ a ≤ 0x0FF) ∨ (0x660 ≤ a ∧ a ≤ 0x7FF) →
    locate c a = .unmapped) ∧
  ∀ (c : Cfg) (a : Nat), c.hasCurve = false → 0x400 ≤ a → a ≤ 0x65F → locate c a = .unmapped

/-- R54: an access that is misaligned, not 32 bits wide or outside the space is refused, and changes nothing since
there is no next state. The refusal by name is the model's form of it (log entries 5 and 8). -/
def Obligations.AccessesNotAdmittedAreRefused : Prop :=
  ∀ (s : State) (a n : Nat) (w : Word32) (rest : List Transaction), ¬(n = 4 ∧ a % 4 = 0 ∧ a ≤ 0x7FF) →
    (s.pending = .read a n :: rest → step s = .refused (.accessNotAdmitted a n)) ∧
    (s.pending = .write a n w :: rest → step s = .refused (.accessNotAdmitted a n))

/-- R56: the effect of a write to an S word, when an S register is valid, and that only reset and SRST clear a mask
bit. The list of transactions is the model's form of the port (log entry 5). -/
def Obligations.ScalarWritesSetOneWord : Prop :=
  (∀ (s : State) (i : SIdx) (j : Fin 8) (w : Word32) (rest : List Transaction), j.val < s.cfg.NW →
    s.pending = .write (0x100 + 0x20 * i.val + 4 * j.val) 4 w :: rest →
    step s =
      .next { s with pending := rest, sregs := s.sregs.set i ⟨s.sregs[i].words.set j (some w)⟩ } ∧
    ((s.sval i).isSome →
      (State.sval { s with sregs := s.sregs.set i ⟨s.sregs[i].words.set j (some w)⟩ } i).isSome)) ∧
  (∀ (s : State) (i : SIdx), (s.sval i).isSome ↔ ∀ j : Fin 8, j.val < s.cfg.NW → (s.sregs[i].words[j]).isSome) ∧
  ∀ (s t : State) (i : SIdx) (j : Fin 8), step s = .next t → (s.sregs[i].words[j]).isSome → t.sregs[i].words[j] = none →
    ∃ rest, s.pending = .reset :: rest ∨ s.pending = .write 0x000 4 0x02000000#32 :: rest

/-- R61: the NW word writes of a value, in any order, leave the register valid with that value. The list of
transactions is the model's form of the port (log entry 5). -/
def Obligations.HostWriteSInAnyOrder : Prop :=
  ∀ (s : State) (i : SIdx) (v : WideInt) (l rest : List Transaction), v.toNat < 2 ^ s.cfg.W →
    l.Perm (hostWriteS s.cfg i v) → s.pending = l ++ rest →
    ∃ t, Host.Core.run Sys2Proof.core l.length s = .next t ∧ State.sval t i = some v ∧
      t = { s with pending := rest, sregs := t.sregs } ∧ ∀ j : SIdx, j ≠ i → t.sregs[j] = s.sregs[j]

/-- R57: a read returns the word of a valid register and a new free value for an unspecified word; it has no other
effect. The free value, the replies and the list of transactions are the model's own (log entries 2, 5, 6). -/
def Obligations.HostReadsReturnTheWord : Prop :=
  ∀ (s : State) (l : Location) (rest : List Transaction), mapped s.cfg l → s.pending = .read (addressOf l) 4 :: rest →
    (∀ w, viewWord s l = some w → step s = .next { s with pending := rest, replies := w :: s.replies }) ∧
    (viewWord s l = none →
      step s =
        .next { s with pending := rest, replies := Config.freeWord s.draws :: s.replies, draws := s.draws + 1 }) ∧
    (∀ i j, l = .sWord i j → viewWord s l = s.sregs[i].words[j]) ∧
    (∀ i j, l = .sWord i j → ∀ v, s.sval i = some v → viewWord s l = some (v.extractLsb' (32 * j.val) 32)) ∧
    (∀ i j, l = .fWord i .v j → viewWord s l = (s.fval i).map fun a => a.v.extractLsb' (32 * j.val) 32) ∧
    (∀ i j, l = .fWord i .m j → viewWord s l = (s.fval i).map fun a => a.m.extractLsb' (32 * j.val) 32) ∧
    (∀ i j, l = .pWord i .xv j → viewWord s l = (s.pval i).map fun P => P.x.v.extractLsb' (32 * j.val) 32) ∧
    (∀ i j, l = .pWord i .xm j → viewWord s l = (s.pval i).map fun P => P.x.m.extractLsb' (32 * j.val) 32) ∧
    (∀ i j, l = .pWord i .yv j → viewWord s l = (s.pval i).map fun P => P.y.v.extractLsb' (32 * j.val) 32) ∧
    (∀ i j, l = .pWord i .ym j → viewWord s l = (s.pval i).map fun P => P.y.m.extractLsb' (32 * j.val) 32)

/-- R58: unmapped words and CMD read 0; writes to unmapped and read-only words are ignored; for `W = 64` words 2 to 7
of every slot are unmapped. The replies and the list of transactions are the model's own (log entries 5 and 6). -/
def Obligations.UnmappedAndReadOnlyWords : Prop :=
  (∀ (s : State) (a : Nat) (rest : List Transaction), admitted a 4 = true →
    locate s.cfg a ∈ [.cmd, .unmapped] → s.pending = .read a 4 :: rest →
    step s = .next { s with pending := rest, replies := 0 :: s.replies }) ∧
  (∀ (s : State) (a : Nat) (w : Word32) (rest : List Transaction), admitted a 4 = true →
    locate s.cfg a ≠ .cmd → (∀ i j, locate s.cfg a ≠ .sWord i j) → s.pending = .write a 4 w :: rest →
    step s = .next { s with pending := rest }) ∧
  ∀ (c : Cfg) (a : Nat), c.width = .w64 → 0x100 ≤ a → a < 0x660 → 2 ≤ a % 0x20 / 4 → locate c a = .unmapped

/-- R28 to R31: the control registers at their addresses, bit by bit. -/
def Obligations.ControlRegisterViews : Prop :=
  ∀ s : State,
    (peek s 0x004 = some (statusWord s.status) ∧ peek s 0x008 = some s.ecmd ∧
      (statusWord s.status).getLsbD 0 = s.status.err ∧ (statusWord s.status).getLsbD 1 = s.status.drop ∧
      (statusWord s.status).getLsbD 2 = s.status.prime ∧ (statusWord s.status).getLsbD 3 = s.status.eq ∧
      (statusWord s.status).extractLsb' 4 4 = 0 ∧ (statusWord s.status).extractLsb' 8 4 = s.status.ecode ∧
      (statusWord s.status).extractLsb' 12 20 = 0) ∧
    (peek s 0x00C = some (configWord s.cfg) ∧ (configWord s.cfg).extractLsb' 0 8 = BitVec.ofNat 8 s.cfg.NW ∧
      (configWord s.cfg).getLsbD 8 = s.cfg.exp0 ∧ (configWord s.cfg).getLsbD 9 = s.cfg.hasCurve ∧
      (configWord s.cfg).extractLsb' 10 22 = 0 ∧ configWord .thisHardware = 0x00000208#32) ∧
    peek s 0x010 = some (svalidWord s) ∧ peek s 0x014 = some (fvalidWord s) ∧ peek s 0x018 = some (pvalidWord s) ∧
    (∀ i : SIdx, (svalidWord s).getLsbD i.val = (s.sval i).isSome) ∧ (svalidWord s).extractLsb' 8 24 = 0 ∧
    (∀ i : FIdx, (fvalidWord s).getLsbD i.val = (s.fval i).isSome) ∧ (fvalidWord s).extractLsb' 8 24 = 0 ∧
    (s.cfg.hasCurve = true → ∀ i : PIdx, (pvalidWord s).getLsbD i.val = (s.pval i).isSome) ∧
    (pvalidWord s).extractLsb' 4 28 = 0 ∧ (s.cfg.hasCurve = false → pvalidWord s = 0)
end

