-- ==== Sys2Proof/Machine/Assembler.lean ====
section
/-! DEFINITION. The assembler notation of 30_encoding.md R90 to R94, on lists of characters: lines, register names,
literals, pseudo-instructions and host directives, each turned into the host transactions it stands for. What the
notation leaves open is in log entry 15. -/

namespace Sys2Proof.Machine

/-! ## Characters -/

def isBlank (ch : Char) : Bool := ch = ' ' ∨ ch = '\t' ∨ ch = '\r'

/-- The pieces between occurrences of a separator. -/
def splitAtChar (sep : Char) : List Char → List (List Char)
  | [] => [[]]
  | ch :: rest =>
    if ch = sep then [] :: splitAtChar sep rest
    else
      match splitAtChar sep rest with
      | [] => [[ch]]
      | w :: ws => (ch :: w) :: ws

/-- Blanks at both ends removed. -/
def trimBlanks (l : List Char) : List Char := ((l.dropWhile isBlank).reverse.dropWhile isBlank).reverse

/-- The part of a line before a comment (R90). -/
def beforeComment (l : List Char) : List Char := l.takeWhile (· ≠ ';')

/-- The value of a digit in a base of at most 16, letters of either case (R93). -/
def digitValue (base : Nat) (ch : Char) : Option Nat :=
  let n := ch.toNat
  let d :=
    if 48 ≤ n ∧ n ≤ 57 then n - 48
    else if 97 ≤ n ∧ n ≤ 102 then n - 87
    else if 65 ≤ n ∧ n ≤ 70 then n - 55
    else 16
  if d < base then some d else none

/-- The value of a digit string, `acc` the value so far. -/
def numeralValue (base : Nat) : Nat → List Char → Option Nat
  | acc, [] => some acc
  | acc, ch :: rest =>
    match digitValue base ch with
    | some d => numeralValue base (acc * base + d) rest
    | none => none

/-- A literal (R93): decimal, or hexadecimal with the prefix `0x` or `0X`. -/
def literalValue : List Char → Option Nat
  | [] => none
  | '0' :: 'x' :: ch :: rest => numeralValue 16 0 (ch :: rest)
  | '0' :: 'X' :: ch :: rest => numeralValue 16 0 (ch :: rest)
  | ch :: rest => numeralValue 10 0 (ch :: rest)

/-! ## Registers -/

/-- The index of a register of the file with letter `file` and `n` registers (R91): `S0`..`S7`, `F0`..`F7`,
`P0`..`P3`; another letter is an assembly error. -/
def registerIndex (file : Char) (n : Nat) (w : List Char) : Option (Fin n) :=
  match w with
  | [f, d] =>
    if f = file then
      match digitValue 10 d with
      | some i => if h : i < n then some ⟨i, h⟩ else none
      | none => none
    else none
  | _ => none

def asmS (w : List Char) : Option SIdx := registerIndex 'S' 8 w
def asmF (w : List Char) : Option FIdx := registerIndex 'F' 8 w
def asmP (w : List Char) : Option PIdx := registerIndex 'P' 4 w

/-- The control registers of 10_state.md R28 to R32 (92_eei_decisions.md D7). -/
inductive ControlName where
  | cmd
  | status
  | ecmd
  | config
  | svalid
  | fvalid
  | pvalid
  deriving DecidableEq, Repr

/-- What HREAD and EXPECT can name (R92): a register of a file, a constant register (10_state.md R20, R36) or a
control register. -/
inductive ReadName where
  | s (i : SIdx)
  | f (i : FIdx)
  | p (i : PIdx)
  | constant (k : DomainConst)
  | control (r : ControlName)
  deriving DecidableEq, Repr

/-- The name of a constant or control register, as the map of 20_memory.md R51 writes it. -/
def namedRegister (w : List Char) : Option ReadName :=
  match w with
  | ['C', 'M', 'D'] => some (.control .cmd)
  | ['S', 'T', 'A', 'T', 'U', 'S'] => some (.control .status)
  | ['E', 'C', 'M', 'D'] => some (.control .ecmd)
  | ['C', 'O', 'N', 'F', 'I', 'G'] => some (.control .config)
  | ['S', 'V', 'A', 'L', 'I', 'D'] => some (.control .svalid)
  | ['F', 'V', 'A', 'L', 'I', 'D'] => some (.control .fvalid)
  | ['P', 'V', 'A', 'L', 'I', 'D'] => some (.control .pvalid)
  | ['p'] => some (.constant .p)
  | ['G', 'x'] => some (.constant .gx)
  | ['G', 'y'] => some (.constant .gy)
  | _ => none

def readName (w : List Char) : Option ReadName :=
  namedRegister w <|> (asmS w).map .s <|> (asmF w).map .f <|> (asmP w).map .p

/-- What an EXPECT line states: a register and the value its read must return (R92), each value of the register's own
shape and width. -/
inductive Expectation where
  | s (i : SIdx) (v : WideInt)
  | f (i : FIdx) (a : FieldElement)
  | p (i : PIdx) (P : Point)
  | constant (k : DomainConst) (v : WideInt)
  | control (r : ControlName) (w : Word32)
  deriving DecidableEq, Repr

/-- The register an EXPECT line reads. -/
def Expectation.name : Expectation → ReadName
  | .s i _ => .s i
  | .f i _ => .f i
  | .p i _ => .p i
  | .constant k _ => .constant k
  | .control r _ => .control r

/-! ## Lines -/

/-- One line of a program text (R90, R92, R94). -/
inductive AsmLine where
  | empty
  | command (i : Instr)
  | pseudo (q : Pseudo)
  | hwrite (i : SIdx) (v : WideInt)
  | hread (x : ReadName)
  | expect (e : Expectation)
  deriving DecidableEq, Repr

/-- A command line: the mnemonic and its used operands in the order `rd`, `ra`, `rb` (R90). -/
def asmCommand (mnemonic : List Char) (ops : List (List Char)) : Option Instr :=
  match mnemonic, ops with
  | ['N', 'O', 'P'], [] => some .nop
  | ['C', 'L', 'R', 'E', 'R', 'R'], [] => some .clrerr
  | ['S', 'R', 'S', 'T'], [] => some .srst
  | ['I', 'S', 'P', 'R', 'I', 'M', 'E'], [a] => do return .isprime (← asmS a)
  | ['F', 'N', 'E', 'W'], [d, a, b] => do return .fnew (← asmF d) (← asmS a) (← asmS b)
  | ['F', 'M', 'O', 'V'], [d, a] => do return .fmov (← asmF d) (← asmF a)
  | ['F', 'Z', 'E', 'R', 'O'], [d, a] => do return .fzero (← asmF d) (← asmF a)
  | ['F', 'O', 'N', 'E'], [d, a] => do return .fone (← asmF d) (← asmF a)
  | ['F', 'E', 'Q'], [a, b] => do return .feq (← asmF a) (← asmF b)
  | ['F', 'A', 'D', 'D'], [d, a, b] => do return .fadd (← asmF d) (← asmF a) (← asmF b)
  | ['F', 'S', 'U', 'B'], [d, a, b] => do return .fsub (← asmF d) (← asmF a) (← asmF b)
  | ['F', 'M', 'U', 'L'], [d, a, b] => do return .fmul (← asmF d) (← asmF a) (← asmF b)
  | ['F', 'S', 'Q', 'R'], [d, a] => do return .fsqr (← asmF d) (← asmF a)
  | ['F', 'E', 'X', 'P'], [d, a, b] => do return .fexp (← asmF d) (← asmF a) (← asmS b)
  | ['F', 'I', 'N', 'V'], [d, a] => do return .finv (← asmF d) (← asmF a)
  | ['F', 'D', 'I', 'V'], [d, a, b] => do return .fdiv (← asmF d) (← asmF a) (← asmF b)
  | ['P', 'N', 'E', 'W'], [d, a, b] => do return .pnew (← asmP d) (← asmS a) (← asmS b)
  | ['P', 'S', 'E', 'T'], [d, a, b] => do return .pset (← asmP d) (← asmF a) (← asmF b)
  | ['P', 'G', 'E', 'N'], [d] => do return .pgen (← asmP d)
  | ['P', 'I', 'N', 'F'], [d] => do return .pinf (← asmP d)
  | ['P', 'M', 'O', 'V'], [d, a] => do return .pmov (← asmP d) (← asmP a)
  | ['P', 'G', 'E', 'T', 'X'], [d, a] => do return .pgetx (← asmF d) (← asmP a)
  | ['P', 'G', 'E', 'T', 'Y'], [d, a] => do return .pgety (← asmF d) (← asmP a)
  | ['P', 'E', 'Q'], [a, b] => do return .peq (← asmP a) (← asmP b)
  | ['P', 'D', 'B', 'L'], [d, a] => do return .pdbl (← asmP d) (← asmP a)
  | ['P', 'A', 'D', 'D'], [d, a, b] => do return .padd (← asmP d) (← asmP a) (← asmP b)
  | ['P', 'M', 'U', 'L'], [d, a, b] => do return .pmul (← asmP d) (← asmP a) (← asmS b)
  | _, _ => none

/-- A pseudo-instruction line (R94); its condition is part of the line being legal. -/
def asmPseudo (mnemonic : List Char) (ops : List (List Char)) : Option Pseudo :=
  let q : Option Pseudo :=
    match mnemonic, ops with
    | ['F', 'D', 'B', 'L'], [d, a] => do return .fdbl (← asmF d) (← asmF a)
    | ['F', 'N', 'E', 'G'], [d, a] => do return .fneg (← asmF d) (← asmF a)
    | ['P', 'T', 'P', 'L'], [d, a] => do return .ptpl (← asmP d) (← asmP a)
    | _, _ => none
  q.filter Pseudo.wellFormed

/-- A literal below `2^n`; a larger one is an assembly error (for HWRITE by R92, for EXPECT log entry 15). -/
def literalBelow (n : Nat) (w : List Char) : Option Nat := (literalValue w).filter fun v => v < 2 ^ n

/-- A W-bit literal. -/
def asmWide (c : Cfg) (w : List Char) : Option WideInt := (literalBelow c.W w).map toWide

/-- What stands between an opening parenthesis at the start and a closing one at the end, and nothing without them. -/
def insideParens (w : List Char) : Option (List Char) :=
  match w with
  | '(' :: rest => if rest.getLast? = some ')' then some (trimBlanks rest.dropLast) else none
  | _ => none

/-- A field element `(v, m)`, as 42_field_construct.md R140 writes one. R92 gives EXPECT no written form of a value;
this one is the model's choice, log entry 15. -/
def asmElement (c : Cfg) (w : List Char) : Option FieldElement := do
  match (splitAtChar ',' (← insideParens w)).map trimBlanks with
  | [v, m] => return ⟨← asmWide c v, ← asmWide c m⟩
  | _ => none

/-- A point `((x.v, x.m), (y.v, y.m))`, as 46_point_construct.md R215 writes one; the model's choice too. -/
def asmPoint (c : Cfg) (w : List Char) : Option Point := do
  match splitAtChar ',' (← insideParens w) with
  | [xv, xm, yv, ym] =>
    return ⟨← asmElement c (trimBlanks (xv ++ ',' :: xm)), ← asmElement c (trimBlanks (yv ++ ',' :: ym))⟩
  | _ => none

/-- The value of an EXPECT line, read in the form and the width of the register it names. -/
def asmExpectation (c : Cfg) (x : ReadName) (w : List Char) : Option Expectation :=
  match x with
  | .s i => (asmWide c w).map (.s i)
  | .f i => (asmElement c w).map (.f i)
  | .p i => (asmPoint c w).map (.p i)
  | .constant k => (asmWide c w).map (.constant k)
  | .control r => (literalBelow 32 w).map fun v => .control r (BitVec.ofNat 32 v)

/-- A host directive (R92): `HWRITE Si, <literal>` with the literal below `2^W`, `HREAD X`, `EXPECT X = <value>`. -/
def asmDirective (c : Cfg) (word rest : List Char) : Option AsmLine :=
  match word with
  | ['H', 'W', 'R', 'I', 'T', 'E'] =>
    match (splitAtChar ',' rest).map trimBlanks with
    | [r, l] => do return .hwrite (← asmS r) (← asmWide c l)
    | _ => none
  | ['H', 'R', 'E', 'A', 'D'] => do return .hread (← readName rest)
  | ['E', 'X', 'P', 'E', 'C', 'T'] =>
    match (splitAtChar '=' rest).map trimBlanks with
    | [x, v] => do return .expect (← asmExpectation c (← readName x) v)
    | _ => none
  | _ => none

/-- One line of text; none is an assembly error. A command line is one of R85 in either configuration (R90): a curve
command that the configuration lacks is assembled, and raises IllegalCommand when it is issued (R86). -/
def asmLine (c : Cfg) (text : List Char) : Option AsmLine :=
  let l := trimBlanks (beforeComment text)
  if l.isEmpty then some .empty
  else
    let word := l.takeWhile fun ch => !isBlank ch
    let rest := trimBlanks (l.dropWhile fun ch => !isBlank ch)
    let ops := if rest.isEmpty then [] else (splitAtChar ',' rest).map trimBlanks
    (asmCommand word ops).map .command <|> (asmPseudo word ops).map .pseudo <|> asmDirective c word rest

/-- A program text: a sequence of lines (R90). -/
def assemble (c : Cfg) (text : List Char) : Option (List AsmLine) := (splitAtChar '\n' text).mapM (asmLine c)

/-! ## What a line stands for -/

/-- The address of a control register (20_memory.md R51). -/
def ControlName.address : ControlName → Nat
  | .cmd => addressOf .cmd
  | .status => addressOf .status
  | .ecmd => addressOf .ecmd
  | .config => addressOf .config
  | .svalid => addressOf .svalid
  | .fvalid => addressOf .fvalid
  | .pvalid => addressOf .pvalid

/-- `HostRead(X)` (20_memory.md R61): the reads of all words of a register. R61 gives them no order; the model's
choice is `v` before `m`, `x` before `y` and the least significant word first, log entry 15. -/
def hostReadRegister (c : Cfg) : ReadName → List Transaction
  | .s i => hostReadSlot c (addressOf (.sWord i 0))
  | .f i => hostReadSlot c (addressOf (.fWord i .v 0)) ++ hostReadSlot c (addressOf (.fWord i .m 0))
  | .p i =>
    hostReadSlot c (addressOf (.pWord i .xv 0)) ++ hostReadSlot c (addressOf (.pWord i .xm 0)) ++
      hostReadSlot c (addressOf (.pWord i .yv 0)) ++ hostReadSlot c (addressOf (.pWord i .ym 0))
  | .constant k => hostReadSlot c (addressOf (.constWord k 0))
  | .control r => [.read r.address 4]

/-- The words of a W-bit value in the slot at `base`, each with its address (20_memory.md R51). -/
def slotWords (c : Cfg) (base : Nat) (v : WideInt) : List (Nat × Word32) :=
  (List.range c.NW).map fun j => (base + 4 * j, wordOf v j)

/-- What an EXPECT line states, word by word: an address and the word the read there must return. The pairs stand in
the order of the reads of `hostReadRegister`, and say the same in any order. -/
def Expectation.reads (c : Cfg) : Expectation → List (Nat × Word32)
  | .s i v => slotWords c (addressOf (.sWord i 0)) v
  | .f i a => slotWords c (addressOf (.fWord i .v 0)) a.v ++ slotWords c (addressOf (.fWord i .m 0)) a.m
  | .p i P =>
    slotWords c (addressOf (.pWord i .xv 0)) P.x.v ++ slotWords c (addressOf (.pWord i .xm 0)) P.x.m ++
      slotWords c (addressOf (.pWord i .yv 0)) P.y.v ++ slotWords c (addressOf (.pWord i .ym 0)) P.y.m
  | .constant k v => slotWords c (addressOf (.constWord k 0)) v
  | .control r w => [(r.address, w)]

/-- What an EXPECT line states holds in a state: every read must return its word, so none may be unspecified. -/
def Expectation.holds (e : Expectation) (s : State) : Bool :=
  (e.reads s.cfg).all fun x => peek s x.1 = some x.2

/-- The host transactions of a line (R92, R94). EXPECT reads what HREAD reads and states `Expectation.reads`. -/
def AsmLine.transactions (c : Cfg) : AsmLine → List Transaction
  | .empty => []
  | .command i => [hostIssue (encode i)]
  | .pseudo q => (q.expand.getD []).map fun i => hostIssue (encode i)
  | .hwrite i v => hostWriteS c i v
  | .hread x => hostReadRegister c x
  | .expect e => hostReadRegister c e.name

/-- The host transactions of a program. -/
def programTransactions (c : Cfg) (lines : List AsmLine) : List Transaction :=
  lines.flatMap (AsmLine.transactions c)

end Sys2Proof.Machine
end

