-- ==== Sys2Proof/Laws/Assembler.lean ====
section
/-! SUPPORT. What the host directives of the assembler read: only words the port admits, and for EXPECT exactly the
words it states. -/

namespace Sys2Proof.Machine

@[simp] theorem slotWords_reads (c : Cfg) (base : Nat) (v : WideInt) :
    (slotWords c base v).map (fun x => Transaction.read x.1 4) = hostReadSlot c base := by
  simp [slotWords, hostReadSlot, Function.comp_def]

/-- EXPECT states one word for each of its reads, at the address read. -/
theorem Expectation.reads_eq (c : Cfg) (e : Expectation) :
    (e.reads c).map (fun x => Transaction.read x.1 4) = hostReadRegister c e.name := by
  cases e <;> simp [Expectation.reads, Expectation.name, hostReadRegister]

theorem NW_le (c : Cfg) : c.NW ≤ 8 := by
  rcases c with ⟨_ | _, _⟩ <;> simp [Cfg.NW, Cfg.W]

theorem hostReadSlot_admitted {c : Cfg} {base : Nat} (h4 : base % 4 = 0) (hb : base + 0x20 ≤ 0x800) :
    ∀ t ∈ hostReadSlot c base, ∃ a, t = .read a 4 ∧ admitted a 4 = true := by
  intro t ht
  obtain ⟨j, hj, rfl⟩ := List.mem_map.1 ht
  have := NW_le c
  have := List.mem_range.1 hj
  exact ⟨_, rfl, decide_eq_true ⟨rfl, by omega, by omega⟩⟩

/-- HREAD and EXPECT make only admitted reads, whatever they name. -/
theorem hostReadRegister_admitted (c : Cfg) (x : ReadName) :
    ∀ t ∈ hostReadRegister c x, ∃ a, t = .read a 4 ∧ admitted a 4 = true := by
  intro t ht
  cases x with
  | control r =>
    obtain rfl := List.mem_singleton.1 ht
    exact ⟨_, rfl, by cases r <;> decide⟩
  | constant k => refine hostReadSlot_admitted ?_ ?_ t ht <;> cases k <;> decide
  | s i => exact hostReadSlot_admitted (by simp only [addressOf]; omega) (by simp only [addressOf]; omega) t ht
  | f i =>
    simp only [hostReadRegister, List.mem_append] at ht
    rcases ht with ht | ht <;>
      exact hostReadSlot_admitted (by simp only [addressOf]; omega) (by simp only [addressOf]; omega) t ht
  | p i =>
    simp only [hostReadRegister, List.mem_append] at ht
    rcases ht with ((ht | ht) | ht) | ht <;>
      exact hostReadSlot_admitted (by simp only [addressOf]; omega) (by simp only [addressOf]; omega) t ht

end Sys2Proof.Machine
end

