-- ==== Sys2Proof/Laws/State.lean ====
section
/-! SUPPORT. One lemma for each field of State under each named update, so that no proof unfolds a record update. -/

namespace Sys2Proof.Machine

@[simp] theorem setF_cfg (s : State) (i : FIdx) (a : FieldElement) : (setF s i a).cfg = s.cfg := rfl
@[simp] theorem setF_sregs (s : State) (i : FIdx) (a : FieldElement) : (setF s i a).sregs = s.sregs := rfl
@[simp] theorem setF_fregs (s : State) (i : FIdx) (a : FieldElement) : (setF s i a).fregs = s.fregs.set i (some a) := rfl
@[simp] theorem setF_pregs (s : State) (i : FIdx) (a : FieldElement) : (setF s i a).pregs = s.pregs := rfl
@[simp] theorem setF_status (s : State) (i : FIdx) (a : FieldElement) : (setF s i a).status = s.status := rfl
@[simp] theorem setF_ecmd (s : State) (i : FIdx) (a : FieldElement) : (setF s i a).ecmd = s.ecmd := rfl
@[simp] theorem setF_pending (s : State) (i : FIdx) (a : FieldElement) : (setF s i a).pending = s.pending := rfl
@[simp] theorem setF_replies (s : State) (i : FIdx) (a : FieldElement) : (setF s i a).replies = s.replies := rfl
@[simp] theorem setF_draws (s : State) (i : FIdx) (a : FieldElement) : (setF s i a).draws = s.draws := rfl

@[simp] theorem setP_cfg (s : State) (i : PIdx) (P : Point) : (setP s i P).cfg = s.cfg := rfl
@[simp] theorem setP_sregs (s : State) (i : PIdx) (P : Point) : (setP s i P).sregs = s.sregs := rfl
@[simp] theorem setP_fregs (s : State) (i : PIdx) (P : Point) : (setP s i P).fregs = s.fregs := rfl
@[simp] theorem setP_pregs (s : State) (i : PIdx) (P : Point) : (setP s i P).pregs = s.pregs.set i (some P) := rfl
@[simp] theorem setP_status (s : State) (i : PIdx) (P : Point) : (setP s i P).status = s.status := rfl
@[simp] theorem setP_ecmd (s : State) (i : PIdx) (P : Point) : (setP s i P).ecmd = s.ecmd := rfl
@[simp] theorem setP_pending (s : State) (i : PIdx) (P : Point) : (setP s i P).pending = s.pending := rfl
@[simp] theorem setP_replies (s : State) (i : PIdx) (P : Point) : (setP s i P).replies = s.replies := rfl
@[simp] theorem setP_draws (s : State) (i : PIdx) (P : Point) : (setP s i P).draws = s.draws := rfl

@[simp] theorem setSWord_cfg (s : State) (i : SIdx) (j : Fin 8) (w : Word32) : (setSWord s i j w).cfg = s.cfg := rfl
@[simp] theorem setSWord_sregs (s : State) (i : SIdx) (j : Fin 8) (w : Word32) : (setSWord s i j w).sregs = s.sregs.set i { words := s.sregs[i].words.set j (some w) } := rfl
@[simp] theorem setSWord_fregs (s : State) (i : SIdx) (j : Fin 8) (w : Word32) : (setSWord s i j w).fregs = s.fregs := rfl
@[simp] theorem setSWord_pregs (s : State) (i : SIdx) (j : Fin 8) (w : Word32) : (setSWord s i j w).pregs = s.pregs := rfl
@[simp] theorem setSWord_status (s : State) (i : SIdx) (j : Fin 8) (w : Word32) : (setSWord s i j w).status = s.status := rfl
@[simp] theorem setSWord_ecmd (s : State) (i : SIdx) (j : Fin 8) (w : Word32) : (setSWord s i j w).ecmd = s.ecmd := rfl
@[simp] theorem setSWord_pending (s : State) (i : SIdx) (j : Fin 8) (w : Word32) : (setSWord s i j w).pending = s.pending := rfl
@[simp] theorem setSWord_replies (s : State) (i : SIdx) (j : Fin 8) (w : Word32) : (setSWord s i j w).replies = s.replies := rfl
@[simp] theorem setSWord_draws (s : State) (i : SIdx) (j : Fin 8) (w : Word32) : (setSWord s i j w).draws = s.draws := rfl

@[simp] theorem setPrime_cfg (s : State) (b : Bool) : (setPrime s b).cfg = s.cfg := rfl
@[simp] theorem setPrime_sregs (s : State) (b : Bool) : (setPrime s b).sregs = s.sregs := rfl
@[simp] theorem setPrime_fregs (s : State) (b : Bool) : (setPrime s b).fregs = s.fregs := rfl
@[simp] theorem setPrime_pregs (s : State) (b : Bool) : (setPrime s b).pregs = s.pregs := rfl
@[simp] theorem setPrime_status (s : State) (b : Bool) : (setPrime s b).status = { s.status with prime := b } := rfl
@[simp] theorem setPrime_ecmd (s : State) (b : Bool) : (setPrime s b).ecmd = s.ecmd := rfl
@[simp] theorem setPrime_pending (s : State) (b : Bool) : (setPrime s b).pending = s.pending := rfl
@[simp] theorem setPrime_replies (s : State) (b : Bool) : (setPrime s b).replies = s.replies := rfl
@[simp] theorem setPrime_draws (s : State) (b : Bool) : (setPrime s b).draws = s.draws := rfl

@[simp] theorem setEq_cfg (s : State) (b : Bool) : (setEq s b).cfg = s.cfg := rfl
@[simp] theorem setEq_sregs (s : State) (b : Bool) : (setEq s b).sregs = s.sregs := rfl
@[simp] theorem setEq_fregs (s : State) (b : Bool) : (setEq s b).fregs = s.fregs := rfl
@[simp] theorem setEq_pregs (s : State) (b : Bool) : (setEq s b).pregs = s.pregs := rfl
@[simp] theorem setEq_status (s : State) (b : Bool) : (setEq s b).status = { s.status with eq := b } := rfl
@[simp] theorem setEq_ecmd (s : State) (b : Bool) : (setEq s b).ecmd = s.ecmd := rfl
@[simp] theorem setEq_pending (s : State) (b : Bool) : (setEq s b).pending = s.pending := rfl
@[simp] theorem setEq_replies (s : State) (b : Bool) : (setEq s b).replies = s.replies := rfl
@[simp] theorem setEq_draws (s : State) (b : Bool) : (setEq s b).draws = s.draws := rfl

@[simp] theorem faultEntry_cfg (k : ErrorKind) (c : Word32) (s : State) : (faultEntry k c s).cfg = s.cfg := rfl
@[simp] theorem faultEntry_sregs (k : ErrorKind) (c : Word32) (s : State) : (faultEntry k c s).sregs = s.sregs := rfl
@[simp] theorem faultEntry_fregs (k : ErrorKind) (c : Word32) (s : State) : (faultEntry k c s).fregs = s.fregs := rfl
@[simp] theorem faultEntry_pregs (k : ErrorKind) (c : Word32) (s : State) : (faultEntry k c s).pregs = s.pregs := rfl
@[simp] theorem faultEntry_status (k : ErrorKind) (c : Word32) (s : State) : (faultEntry k c s).status = { s.status with err := true, ecode := k.code } := rfl
@[simp] theorem faultEntry_ecmd (k : ErrorKind) (c : Word32) (s : State) : (faultEntry k c s).ecmd = c := rfl
@[simp] theorem faultEntry_pending (k : ErrorKind) (c : Word32) (s : State) : (faultEntry k c s).pending = s.pending := rfl
@[simp] theorem faultEntry_replies (k : ErrorKind) (c : Word32) (s : State) : (faultEntry k c s).replies = s.replies := rfl
@[simp] theorem faultEntry_draws (k : ErrorKind) (c : Word32) (s : State) : (faultEntry k c s).draws = s.draws := rfl

@[simp] theorem clearFault_cfg (s : State) : (clearFault s).cfg = s.cfg := rfl
@[simp] theorem clearFault_sregs (s : State) : (clearFault s).sregs = s.sregs := rfl
@[simp] theorem clearFault_fregs (s : State) : (clearFault s).fregs = s.fregs := rfl
@[simp] theorem clearFault_pregs (s : State) : (clearFault s).pregs = s.pregs := rfl
@[simp] theorem clearFault_status (s : State) : (clearFault s).status = { s.status with err := false, drop := false, ecode := 0 } := rfl
@[simp] theorem clearFault_ecmd (s : State) : (clearFault s).ecmd = 0 := rfl
@[simp] theorem clearFault_pending (s : State) : (clearFault s).pending = s.pending := rfl
@[simp] theorem clearFault_replies (s : State) : (clearFault s).replies = s.replies := rfl
@[simp] theorem clearFault_draws (s : State) : (clearFault s).draws = s.draws := rfl

@[simp] theorem dropCommand_cfg (s : State) : (dropCommand s).cfg = s.cfg := rfl
@[simp] theorem dropCommand_sregs (s : State) : (dropCommand s).sregs = s.sregs := rfl
@[simp] theorem dropCommand_fregs (s : State) : (dropCommand s).fregs = s.fregs := rfl
@[simp] theorem dropCommand_pregs (s : State) : (dropCommand s).pregs = s.pregs := rfl
@[simp] theorem dropCommand_status (s : State) : (dropCommand s).status = { s.status with drop := true } := rfl
@[simp] theorem dropCommand_ecmd (s : State) : (dropCommand s).ecmd = s.ecmd := rfl
@[simp] theorem dropCommand_pending (s : State) : (dropCommand s).pending = s.pending := rfl
@[simp] theorem dropCommand_replies (s : State) : (dropCommand s).replies = s.replies := rfl
@[simp] theorem dropCommand_draws (s : State) : (dropCommand s).draws = s.draws := rfl

@[simp] theorem resetCore_cfg (s : State) : (resetCore s).cfg = s.cfg := rfl
@[simp] theorem resetCore_sregs (s : State) : (resetCore s).sregs = Vector.replicate 8 .blank := rfl
@[simp] theorem resetCore_fregs (s : State) : (resetCore s).fregs = Vector.replicate 8 none := rfl
@[simp] theorem resetCore_pregs (s : State) : (resetCore s).pregs = Vector.replicate 4 none := rfl
@[simp] theorem resetCore_status (s : State) : (resetCore s).status = .cleared := rfl
@[simp] theorem resetCore_ecmd (s : State) : (resetCore s).ecmd = 0 := rfl
@[simp] theorem resetCore_pending (s : State) : (resetCore s).pending = s.pending := rfl
@[simp] theorem resetCore_replies (s : State) : (resetCore s).replies = s.replies := rfl
@[simp] theorem resetCore_draws (s : State) : (resetCore s).draws = s.draws := rfl

@[simp] theorem pushReply_cfg (w : Word32) (s : State) : (pushReply w s).cfg = s.cfg := rfl
@[simp] theorem pushReply_sregs (w : Word32) (s : State) : (pushReply w s).sregs = s.sregs := rfl
@[simp] theorem pushReply_fregs (w : Word32) (s : State) : (pushReply w s).fregs = s.fregs := rfl
@[simp] theorem pushReply_pregs (w : Word32) (s : State) : (pushReply w s).pregs = s.pregs := rfl
@[simp] theorem pushReply_status (w : Word32) (s : State) : (pushReply w s).status = s.status := rfl
@[simp] theorem pushReply_ecmd (w : Word32) (s : State) : (pushReply w s).ecmd = s.ecmd := rfl
@[simp] theorem pushReply_pending (w : Word32) (s : State) : (pushReply w s).pending = s.pending := rfl
@[simp] theorem pushReply_replies (w : Word32) (s : State) : (pushReply w s).replies = w :: s.replies := rfl
@[simp] theorem pushReply_draws (w : Word32) (s : State) : (pushReply w s).draws = s.draws := rfl

@[simp] theorem countDraw_cfg (s : State) : (countDraw s).cfg = s.cfg := rfl
@[simp] theorem countDraw_sregs (s : State) : (countDraw s).sregs = s.sregs := rfl
@[simp] theorem countDraw_fregs (s : State) : (countDraw s).fregs = s.fregs := rfl
@[simp] theorem countDraw_pregs (s : State) : (countDraw s).pregs = s.pregs := rfl
@[simp] theorem countDraw_status (s : State) : (countDraw s).status = s.status := rfl
@[simp] theorem countDraw_ecmd (s : State) : (countDraw s).ecmd = s.ecmd := rfl
@[simp] theorem countDraw_pending (s : State) : (countDraw s).pending = s.pending := rfl
@[simp] theorem countDraw_replies (s : State) : (countDraw s).replies = s.replies := rfl
@[simp] theorem countDraw_draws (s : State) : (countDraw s).draws = s.draws + 1 := rfl

@[simp] theorem placeCommand_cfg (w : Word32) (s : State) : (placeCommand w s).cfg = s.cfg := rfl
@[simp] theorem placeCommand_sregs (w : Word32) (s : State) : (placeCommand w s).sregs = s.sregs := rfl
@[simp] theorem placeCommand_fregs (w : Word32) (s : State) : (placeCommand w s).fregs = s.fregs := rfl
@[simp] theorem placeCommand_pregs (w : Word32) (s : State) : (placeCommand w s).pregs = s.pregs := rfl
@[simp] theorem placeCommand_status (w : Word32) (s : State) : (placeCommand w s).status = s.status := rfl
@[simp] theorem placeCommand_ecmd (w : Word32) (s : State) : (placeCommand w s).ecmd = s.ecmd := rfl
@[simp] theorem placeCommand_pending (w : Word32) (s : State) : (placeCommand w s).pending = hostIssue w :: s.pending := rfl
@[simp] theorem placeCommand_replies (w : Word32) (s : State) : (placeCommand w s).replies = s.replies := rfl
@[simp] theorem placeCommand_draws (w : Word32) (s : State) : (placeCommand w s).draws = s.draws := rfl

end Sys2Proof.Machine
end

