-- ==== Sys2Proof/Laws/Operands.lean ====
section
/-! SUPPORT. What reading and writing a register of each file says about the others. -/

namespace Sys2Proof.Machine

/-! ## Source reads -/

@[simp] theorem sourceOf_eq_ok {α : Type} {r : Option α} {a : α} : sourceOf r = .ok a ↔ r = some a := by
  cases r <;> simp [sourceOf]

@[simp] theorem sourceOf_some {α : Type} (a : α) : sourceOf (some a) = .ok a := rfl

@[simp] theorem sourceOf_none {α : Type} : sourceOf (none : Option α) = .error .uninit := rfl

theorem sourceOf_error {α : Type} {r : Option α} {k : ErrorKind} (h : sourceOf r = .error k) :
    r = none ∧ k = .uninit := by
  cases r with
  | none => simpa [sourceOf, eq_comm] using h
  | some a => simp [sourceOf] at h

@[simp] theorem readS_eq_ok {s : State} {i : SIdx} {n : WideInt} : readS s i = .ok n ↔ s.sval i = some n :=
  sourceOf_eq_ok
@[simp] theorem readF_eq_ok {s : State} {i : FIdx} {a : FieldElement} : readF s i = .ok a ↔ s.fval i = some a :=
  sourceOf_eq_ok
@[simp] theorem readP_eq_ok {s : State} {i : PIdx} {P : Point} : readP s i = .ok P ↔ s.pval i = some P :=
  sourceOf_eq_ok

/-! ## Register files under the updates -/

theorem fval_setF (s : State) (i j : FIdx) (a : FieldElement) :
    (setF s i a).fval j = if i = j then some a else s.fval j := by
  simp [State.fval, Vector.getElem_set, Fin.ext_iff]

@[simp] theorem fval_setF_same (s : State) (i : FIdx) (a : FieldElement) : (setF s i a).fval i = some a := by
  simp [fval_setF]

theorem fval_setF_other (s : State) {i j : FIdx} (a : FieldElement) (h : i ≠ j) :
    (setF s i a).fval j = s.fval j := by
  simp [fval_setF, h]

theorem pval_setP (s : State) (i j : PIdx) (P : Point) :
    (setP s i P).pval j = if i = j then some P else s.pval j := by
  simp [State.pval, Vector.getElem_set, Fin.ext_iff]

@[simp] theorem pval_setP_same (s : State) (i : PIdx) (P : Point) : (setP s i P).pval i = some P := by
  simp [pval_setP]

theorem pval_setP_other (s : State) {i j : PIdx} (P : Point) (h : i ≠ j) :
    (setP s i P).pval j = s.pval j := by
  simp [pval_setP, h]

theorem words_setSWord (s : State) (i i' : SIdx) (j j' : Fin 8) (w : Word32) :
    (setSWord s i j w).sregs[i'].words[j'] = if i = i' ∧ j = j' then some w else s.sregs[i'].words[j'] := by
  by_cases hi : i = i' <;> by_cases hj : j = j' <;>
    simp_all [Fin.ext_iff]

/-! ## A file does not see what is written elsewhere -/

theorem sval_congr {s t : State} (hs : t.sregs = s.sregs) (hc : t.cfg = s.cfg) (i : SIdx) :
    t.sval i = s.sval i := by
  simp [State.sval, hs, hc]

theorem fval_congr {s t : State} (h : t.fregs = s.fregs) (i : FIdx) : t.fval i = s.fval i := by
  simp [State.fval, h]

theorem pval_congr {s t : State} (h : t.pregs = s.pregs) (i : PIdx) : t.pval i = s.pval i := by
  simp [State.pval, h]

/-! ## Reset -/

@[simp] theorem fval_resetCore (s : State) (i : FIdx) : (resetCore s).fval i = none := by
  simp [State.fval]

@[simp] theorem pval_resetCore (s : State) (i : PIdx) : (resetCore s).pval i = none := by
  simp [State.pval]

@[simp] theorem words_resetCore (s : State) (i : SIdx) (j : Fin 8) :
    (resetCore s).sregs[i].words[j] = none := by
  simp [SReg.blank]

theorem sval_resetCore (s : State) (i : SIdx) : (resetCore s).sval i = none := by
  rcases hw : s.cfg.width with _ | _ <;>
    simp [State.sval, SReg.value, SReg.blank, Cfg.NW, Cfg.W, hw, joinWords]

end Sys2Proof.Machine
end

