-- ==== Sys2Proof/Laws/Ops.lean ====
section
/-! SUPPORT. What the shared frame `command` can answer, said once, and what a whole command can do. -/

namespace Sys2Proof.Machine

/-! ## Except -/

@[simp] theorem ok_bind {ε α β : Type} (a : α) (f : α → Except ε β) : (Except.ok a >>= f) = f a := rfl
@[simp] theorem error_bind {ε α β : Type} (e : ε) (f : α → Except ε β) : (Except.error e >>= f) = .error e := rfl
@[simp] theorem map_ok {ε α β : Type} (f : α → β) (a : α) : f <$> (Except.ok a : Except ε α) = .ok (f a) := rfl
@[simp] theorem map_error {ε α β : Type} (f : α → β) (e : ε) : f <$> (Except.error e : Except ε α) = .error e := rfl
@[simp] theorem pure_eq_ok {ε α : Type} (a : α) : (pure a : Except ε α) = .ok a := rfl

theorem bind_eq_ok {ε α β : Type} {x : Except ε α} {f : α → Except ε β} {b : β} :
    (x >>= f) = .ok b ↔ ∃ a, x = .ok a ∧ f a = .ok b := by
  cases x <;> simp [bind, Except.bind]

theorem bind_eq_error {ε α β : Type} {x : Except ε α} {f : α → Except ε β} {e : ε} :
    (x >>= f) = .error e ↔ x = .error e ∨ ∃ a, x = .ok a ∧ f a = .error e := by
  cases x <;> simp [bind, Except.bind]

/-! ## The frame of a command -/

theorem command_faulted {i : Instr} {s : State} {body : Except ErrorKind State} (h : s.status.err = true) :
    command i s body = .next (dropCommand s) := by
  simp [command, h]

theorem command_absent {i : Instr} {s : State} {body : Except ErrorKind State} (h : s.status.err = false)
    (hw : i.wellFormed s.cfg = false) : command i s body = .next (faultEntry .illegalCommand (encode i) s) := by
  simp [command, h, hw]

theorem command_completes {i : Instr} {s t : State} {body : Except ErrorKind State} (h : s.status.err = false)
    (hw : i.wellFormed s.cfg = true) (hb : body = .ok t) : command i s body = .next t := by
  simp [command, h, hw, hb]

theorem command_raises {i : Instr} {s : State} {body : Except ErrorKind State} {k : ErrorKind}
    (h : s.status.err = false) (hw : i.wellFormed s.cfg = true) (hb : body = .error k) :
    command i s body = .next (faultEntry k (encode i) s) := by
  simp [command, h, hw, hb]

/-- Everything `command` can answer. -/
theorem command_cases {i : Instr} {s t : State} {body : Except ErrorKind State} (h : command i s body = .next t) :
    (s.status.err = true ∧ t = dropCommand s) ∨
    (s.status.err = false ∧ i.wellFormed s.cfg = false ∧ t = faultEntry .illegalCommand (encode i) s) ∨
    (s.status.err = false ∧ i.wellFormed s.cfg = true ∧ ∃ k, body = .error k ∧ t = faultEntry k (encode i) s) ∨
    (s.status.err = false ∧ i.wellFormed s.cfg = true ∧ body = .ok t) := by
  rcases he : s.status.err with _ | _
  · rcases hw : i.wellFormed s.cfg with _ | _
    · rw [command_absent he hw] at h; cases h; simp
    · cases hb : body with
      | ok u => rw [command_completes he hw hb] at h; cases h; simp
      | error k => rw [command_raises he hw hb] at h; cases h; simp
  · rw [command_faulted he] at h; cases h; simp

/-! ## What a command does when it completes -/

/-- The commands that R274 step 1 never drops. -/
def alwaysExecuted : Instr → Prop
  | .clrerr => True
  | .srst => True
  | _ => False

/-- The pseudocode of each command as `exec` runs it: its sources, its unit function, its destination. -/
def bodyOf (s : State) : Instr → Except ErrorKind State
  | .nop => .ok s
  | .clrerr => .ok (clearFault s)
  | .srst => .ok (resetCore s)
  | .isprime ra => do let n ← readS s ra; return setPrime s (isPrime n.toNat)
  | .fnew rd ra rb => do let v ← readS s ra; let m ← readS s rb; let r ← fnew v m; return setF s rd r
  | .fmov rd ra => fieldOp1 s rd ra fun a => .ok a
  | .fzero rd ra => fieldOp1 s rd ra fun a => .ok ⟨0, a.m⟩
  | .fone rd ra => fieldOp1 s rd ra fun a => .ok ⟨1, a.m⟩
  | .feq ra rb => do let a ← readF s ra; let b ← readF s rb; return setEq s (feq a b)
  | .fadd rd ra rb => fieldOp2 s rd ra rb (fadd s.cfg)
  | .fsub rd ra rb => fieldOp2 s rd ra rb (fsub s.cfg)
  | .fmul rd ra rb => fieldOp2 s rd ra rb fmul
  | .fsqr rd ra => fieldOp1 s rd ra fsqr
  | .fexp rd ra rb => do let a ← readF s ra; let e ← readS s rb; return setF s rd (fexp s.cfg a e.toNat)
  | .finv rd ra => fieldOp1 s rd ra (finv s.cfg)
  | .fdiv rd ra rb => fieldOp2 s rd ra rb (fdiv s.cfg)
  | .pnew rd ra rb => do
    let u ← readS s ra; let v ← readS s rb; let x ← fnew u domainP; let y ← fnew v domainP; return setP s rd ⟨x, y⟩
  | .pset rd ra rb => do let x ← readF s ra; let y ← readF s rb; return setP s rd ⟨x, y⟩
  | .pgen rd => .ok (setP s rd pointG)
  | .pinf rd => .ok (setP s rd pointInf)
  | .pmov rd ra => do let P ← readP s ra; return setP s rd P
  | .pgetx rd ra => do let P ← readP s ra; return setF s rd P.x
  | .pgety rd ra => do let P ← readP s ra; return setF s rd P.y
  | .peq ra rb => do let P ← readP s ra; let Q ← readP s rb; return setEq s (peq P Q)
  | .pdbl rd ra => do let P ← readP s ra; let r ← pdbl s.cfg P; return setP s rd r
  | .padd rd ra rb => do let P ← readP s ra; let Q ← readP s rb; let r ← padd s.cfg P Q; return setP s rd r
  | .pmul rd ra rb => do let P ← readP s ra; let k ← readS s rb; let r ← pmul s.cfg P k.toNat; return setP s rd r

theorem exec_eq_command {i : Instr} {s : State} (h : ¬alwaysExecuted i) : exec i s = command i s (bodyOf s i) := by
  cases i <;> first | rfl | exact absurd trivial h

theorem exec_completes {i : Instr} {s t : State} (ha : ¬alwaysExecuted i) (h : s.status.err = false)
    (hw : i.wellFormed s.cfg = true) (hb : bodyOf s i = .ok t) : exec i s = .next t := by
  rw [exec_eq_command ha, command_completes h hw hb]

theorem exec_raises {i : Instr} {s : State} {k : ErrorKind} (ha : ¬alwaysExecuted i) (h : s.status.err = false)
    (hw : i.wellFormed s.cfg = true) (hb : bodyOf s i = .error k) :
    exec i s = .next (faultEntry k (encode i) s) := by
  rw [exec_eq_command ha, command_raises h hw hb]

theorem exec_dropped {i : Instr} {s : State} (ha : ¬alwaysExecuted i) (h : s.status.err = true) :
    exec i s = .next (dropCommand s) := by
  rw [exec_eq_command ha, command_faulted h]

theorem exec_absent {i : Instr} {s : State} (ha : ¬alwaysExecuted i) (h : s.status.err = false)
    (hw : i.wellFormed s.cfg = false) : exec i s = .next (faultEntry .illegalCommand (encode i) s) := by
  rw [exec_eq_command ha, command_absent h hw]

/-- Every command answers a next state (70_reset_and_hazards.md R305 is about this). -/
theorem exec_eq_next (i : Instr) (s : State) :
    ∃ t, exec i s = .next t := by
  cases i <;> exact ⟨_, rfl⟩

/-- Everything a command can do: CLRERR and SRST do their work in any state; every other command is dropped while
faulted, raises one error and changes nothing else, or completes with what its pseudocode answers. -/
theorem exec_cases {i : Instr} {s t : State} (h : exec i s = .next t) :
    (i = .clrerr ∧ t = clearFault s) ∨ (i = .srst ∧ t = resetCore s) ∨
    (¬alwaysExecuted i ∧ s.status.err = true ∧ t = dropCommand s) ∨
    (¬alwaysExecuted i ∧ s.status.err = false ∧ i.wellFormed s.cfg = false ∧
      t = faultEntry .illegalCommand (encode i) s) ∨
    (¬alwaysExecuted i ∧ s.status.err = false ∧ i.wellFormed s.cfg = true ∧
      ∃ k, bodyOf s i = .error k ∧ t = faultEntry k (encode i) s) ∨
    (¬alwaysExecuted i ∧ s.status.err = false ∧ i.wellFormed s.cfg = true ∧ bodyOf s i = .ok t) := by
  by_cases ha : alwaysExecuted i
  · cases i <;> first | exact absurd ha id | skip
    · exact .inl ⟨rfl, by cases h; rfl⟩
    · exact .inr (.inl ⟨rfl, by cases h; rfl⟩)
  · rw [exec_eq_command ha] at h
    rcases command_cases h with h | h | h | h
    · exact .inr (.inr (.inl ⟨ha, h⟩))
    · exact .inr (.inr (.inr (.inl ⟨ha, h⟩)))
    · exact .inr (.inr (.inr (.inr (.inl ⟨ha, h⟩))))
    · exact .inr (.inr (.inr (.inr (.inr ⟨ha, h⟩))))

/-- Everything a completing pseudocode can write (10_state.md R27, "written as destination by"). -/
theorem bodyOf_writes {i : Instr} {s t : State} (ha : ¬alwaysExecuted i) (h : bodyOf s i = .ok t) :
    t = s ∨ (∃ rd r, t = setF s rd r) ∨ (∃ rd r, t = setP s rd r) ∨ (∃ b, t = setPrime s b) ∨
      ∃ b, t = setEq s b := by
  cases i with
  | nop => exact .inl (by cases h; rfl)
  | clrerr => exact absurd trivial ha
  | srst => exact absurd trivial ha
  | isprime ra =>
    cases hr : readS s ra <;> simp [bodyOf, hr, bind, Except.bind, pure, Except.pure] at h
    exact .inr (.inr (.inr (.inl ⟨_, h.symm⟩)))
  | feq ra rb =>
    cases hr : readF s ra <;> cases hr' : readF s rb <;>
      simp [bodyOf, hr, hr', bind, Except.bind, pure, Except.pure] at h
    exact .inr (.inr (.inr (.inr ⟨_, h.symm⟩)))
  | peq ra rb =>
    cases hr : readP s ra <;> cases hr' : readP s rb <;>
      simp [bodyOf, hr, hr', bind, Except.bind, pure, Except.pure] at h
    exact .inr (.inr (.inr (.inr ⟨_, h.symm⟩)))
  | pgen rd => exact .inr (.inr (.inl ⟨rd, _, by cases h; rfl⟩))
  | pinf rd => exact .inr (.inr (.inl ⟨rd, _, by cases h; rfl⟩))
  | _ =>
    simp only [bodyOf, fieldOp1, fieldOp2, bind, Except.bind, pure, Except.pure] at h
    repeat' split at h
    all_goals cases h
    all_goals first | exact .inr (.inl ⟨_, _, rfl⟩) | exact .inr (.inr (.inl ⟨_, _, rfl⟩))

end Sys2Proof.Machine
end

