-- ==== Sys2Proof/Laws/Primality.lean ====
section
/-! SUPPORT. The modular power of MRP is the remainder of the true power, what acceptance says of a modulus, and the
verdict on the domain prime. -/

namespace Sys2Proof.Machine

theorem powModLoop_eq (n fuel d acc x : Nat) (h : d < 2 ^ fuel) :
    powModLoop n fuel d acc x % n = acc * x ^ d % n := by
  induction fuel generalizing d acc x with
  | zero =>
    have : d = 0 := by simpa using h
    simp [powModLoop, this]
  | succ fuel ih =>
    rw [powModLoop]
    split
    · simp [*]
    · have hd : d / 2 < 2 ^ fuel := by rw [Nat.pow_succ] at h; omega
      rw [ih _ _ _ hd]
      have hx : (x * x % n) ^ (d / 2) % n = x ^ (2 * (d / 2)) % n := by
        rw [pow_mul, pow_two, ← Nat.pow_mod]
      split
      · next ho =>
        have hs : acc * x ^ d = acc * x * x ^ (2 * (d / 2)) := by
          conv_lhs => rw [show d = 2 * (d / 2) + 1 by omega]
          ring
        rw [hs, Nat.mul_mod, hx, Nat.mod_mod, ← Nat.mul_mod]
      · next ho =>
        have hs : acc * x ^ d = acc * x ^ (2 * (d / 2)) := by
          conv_lhs => rw [show d = 2 * (d / 2) by omega]
        rw [hs, Nat.mul_mod, hx, ← Nat.mul_mod]

theorem powModLoop_reduced (n fuel d acc x : Nat) (h : acc % n = acc) :
    powModLoop n fuel d acc x % n = powModLoop n fuel d acc x := by
  induction fuel generalizing d acc x with
  | zero => simpa [powModLoop] using h
  | succ fuel ih =>
    rw [powModLoop]
    split
    · exact h
    · apply ih
      split <;> simp [h]

/-- `powMod a d n` is `a^d mod n` (41_primality.md R127). -/
theorem powMod_eq (a d n : Nat) : powMod a d n = a ^ d % n := by
  have hd : d < 2 ^ (d.log2 + 1) := Nat.lt_log2_self
  rw [powMod, ← powModLoop_reduced _ _ _ _ _ (Nat.mod_mod 1 n), powModLoop_eq _ _ _ _ _ hd]
  rw [Nat.mul_mod, Nat.mod_mod, ← Nat.pow_mod, ← Nat.mul_mod, one_mul]

/-- An accepted modulus is at least 2 (R121). -/
theorem two_le_of_isPrime {n : Nat} (h : isPrime n = true) : 2 ≤ n := by
  by_contra hn
  simp [isPrime, show n < 2 by omega] at h

/-- An accepted modulus is 2 or odd (R121). -/
theorem two_or_odd_of_isPrime {n : Nat} (h : isPrime n = true) : n = 2 ∨ n % 2 = 1 := by
  unfold isPrime at h
  split at h
  · cases h
  · split at h
    · omega
    · split at h
      · cases h
      · omega

/-- `is_prime(p) = true` (10_state.md R36), by evaluating the 79 bases. -/
theorem isPrime_domainP : isPrime domainP.toNat = true := by decide +kernel

end Sys2Proof.Machine
end

