-- ==== Sys2Proof/Laws/FieldEngine.lean ====
section
/-! SUPPORT. What each unit function of the Prime Field Engine answers, said once: its value on elements that meet
`ElementInv`, its modulus, and every error it can raise. -/

namespace Sys2Proof.Machine

/-! ## Integers -/

theorem osub_of_le {W a b : Nat} (h : b ≤ a) (ha : a < 2 ^ W) : osub W a b = (a - b, false) := by
  simp only [osub, Prod.mk.injEq, decide_eq_false_iff_not, not_lt]
  refine ⟨?_, h⟩
  rw [show a + 2 ^ W - b = (a - b) + 2 ^ W by omega, Nat.add_mod_right, Nat.mod_eq_of_lt (by omega)]

/-- A value below one that the container holds survives the container. -/
theorem toNat_of_lt {n : Nat} (x : WideInt) (h : n < x.toNat) : (BitVec.ofNat 256 n).toNat = n := by
  have := x.isLt
  rw [BitVec.toNat_ofNat]; exact Nat.mod_eq_of_lt (by omega)

theorem exp0_le_one (c : Cfg) : c.EXP0 ≤ 1 := by
  unfold Cfg.EXP0; cases c.exp0 <;> simp

/-- R160: the circuit is the modular sum. -/
theorem addMod_eq {W a b m : Nat} (h2 : 2 ≤ m) (hm : m ≤ 2 ^ W - 1) (ha : a ≤ m) (hb : b ≤ m) :
    addMod W a b m = (a + b) % m := by
  have hW : m < 2 ^ W := by omega
  unfold addMod
  simp only [osub_of_le hm (show 2 ^ W - 1 < 2 ^ W by omega), oadd, red]
  split
  · next h =>
    simp only [decide_eq_true_eq] at h
    have h1 : (a + b) % 2 ^ W = a + b - 2 ^ W := by
      rw [Nat.mod_eq_sub_mod h, Nat.mod_eq_of_lt (by omega)]
    rw [h1, show a + b - 2 ^ W + (2 ^ W - 1 - m + 1) = a + b - m by omega,
      Nat.mod_eq_of_lt (show a + b - m < 2 ^ W by omega), Nat.mod_eq_sub_mod (show a + b ≥ m by omega)]
  · next h =>
    simp only [decide_eq_true_eq, not_le] at h
    rw [Nat.mod_eq_of_lt h]

/-- Whatever its operands, the adder answers a remainder modulo `m`. -/
theorem addMod_is_remainder (W a b m : Nat) : ∃ n, addMod W a b m = n % m := by
  by_cases h : 2 ^ W ≤ a + b
  · exact ⟨_, by simp [addMod, oadd, red, h]; rfl⟩
  · exact ⟨(a + b) % 2 ^ W, by simp [addMod, oadd, red, h]⟩

/-- R190: the ladder. -/
theorem expLoop_eq (m fuel r acc base : Nat) (h : r < 2 ^ fuel) (hm : acc < m) :
    expLoop m fuel r acc base = acc * base ^ r % m := by
  induction fuel generalizing r acc base with
  | zero =>
    have : r = 0 := by simpa using h
    simp [expLoop, this, Nat.mod_eq_of_lt hm]
  | succ fuel ih =>
    rw [expLoop]
    split
    · next h => simp [h, Nat.mod_eq_of_lt hm]
    · have hd : r / 2 < 2 ^ fuel := by rw [Nat.pow_succ] at h; omega
      have hx : ∀ k, (base * base % m) ^ k % m = base ^ (2 * k) % m := by
        intro k; rw [pow_mul, pow_two, ← Nat.pow_mod]
      simp only [shr, bitAt, mulMod, pow_one, pow_zero, Nat.div_one, decide_eq_true_eq]
      rw [ih _ _ _ hd (by split; exacts [Nat.mod_lt _ (by omega), hm])]
      split
      · next ho =>
        rw [Nat.mul_mod, hx, Nat.mod_mod, ← Nat.mul_mod]
        conv_rhs => rw [show r = 2 * (r / 2) + 1 by omega]
        ring_nf
      · next ho =>
        rw [Nat.mul_mod, hx, ← Nat.mul_mod]
        conv_rhs => rw [show r = 2 * (r / 2) by omega]

/-- R190, R191. -/
theorem expMod_eq {c : Cfg} {a e m : Nat} (h2 : 2 ≤ m) (hm : m < 2 ^ c.W) :
    expMod c a e m = if e % (m - 1) = 0 then c.EXP0 else a ^ (e % (m - 1)) % m := by
  simp only [expMod, osub_of_le (show 1 ≤ m by omega) hm, red]
  split
  · rfl
  · have := Nat.mod_lt e (show m - 1 > 0 by omega)
    rw [expLoop_eq _ _ _ _ _ (by omega) (by omega), one_mul]

theorem expLoop_lt {m : Nat} (fuel r acc base : Nat) (h : acc < m) : expLoop m fuel r acc base < m := by
  induction fuel generalizing r acc base with
  | zero => exact h
  | succ f ih =>
    rw [expLoop]; split
    · exact h
    · apply ih; split
      · exact Nat.mod_lt _ (by omega)
      · exact h

theorem expMod_lt {c : Cfg} {a e m : Nat} (hm : 2 ≤ m) : expMod c a e m < m := by
  simp only [expMod]; split
  · have := exp0_le_one c
    omega
  · exact expLoop_lt _ _ _ _ (by omega)

/-! ## Values on elements that meet the invariant -/

theorem two_le_of_elementInv {c : Cfg} {a : FieldElement} (h : ElementInv c a) : 2 ≤ a.m.toNat :=
  two_le_of_isPrime h.2.1

theorem feq_iff_eq (a b : FieldElement) : feq a b = true ↔ a = b := by
  rcases a; rcases b; simp [feq]

theorem feq_of_ne {a b : FieldElement} (h : a ≠ b) : feq a b = false := by
  rw [Bool.eq_false_iff]; exact fun hh => h ((feq_iff_eq _ _).1 hh)

theorem fadd_eq {c : Cfg} {a b : FieldElement} (ha : ElementInv c a) (hb : ElementInv c b) (hm : a.m = b.m) :
    fadd c a b = .ok ⟨BitVec.ofNat 256 ((a.v.toNat + b.v.toNat) % a.m.toNat), a.m⟩ := by
  have h2 := two_le_of_elementInv ha
  obtain ⟨ha1, -, ha3⟩ := ha
  obtain ⟨hb1, -, -⟩ := hb
  simp only [fadd, fieldGuard, hm, if_true]
  rw [← hm] at *
  simp only [ok_bind, pure_eq_ok, toWide, addMod_eq h2 (show a.m.toNat ≤ 2 ^ c.W - 1 by omega) ha1.le hb1.le]

theorem fsub_eq {c : Cfg} {a b : FieldElement} (ha : ElementInv c a) (hb : ElementInv c b) (hm : a.m = b.m) :
    fsub c a b = .ok ⟨BitVec.ofNat 256 ((a.v.toNat + a.m.toNat - b.v.toNat) % a.m.toNat), a.m⟩ := by
  have h2 := two_le_of_elementInv ha
  obtain ⟨ha1, -, ha3⟩ := ha
  obtain ⟨hb1, -, -⟩ := hb
  simp only [fsub, fieldGuard, hm, if_true]
  rw [← hm] at *
  simp only [ok_bind, pure_eq_ok, toWide, negRaw, osub_of_le hb1.le ha3]
  rw [addMod_eq h2 (show a.m.toNat ≤ 2 ^ c.W - 1 by omega) ha1.le (by omega)]
  congr 4; omega

theorem fmul_eq {a b : FieldElement} (hm : a.m = b.m) :
    fmul a b = .ok ⟨BitVec.ofNat 256 (a.v.toNat * b.v.toNat % a.m.toNat), a.m⟩ := by
  simp [fmul, fieldGuard, hm, mulMod, toWide]

theorem fexp_eq {c : Cfg} {a : FieldElement} {e : Nat} (ha : ElementInv c a) :
    fexp c a e =
      ⟨BitVec.ofNat 256
        (if e % (a.m.toNat - 1) = 0 then c.EXP0 else a.v.toNat ^ (e % (a.m.toNat - 1)) % a.m.toNat), a.m⟩ := by
  simp only [fexp, toWide, expMod_eq (two_le_of_elementInv ha) ha.2.2]

/-- R195: what the inverter computes, `a^(m - 2)` with the exponent reduced modulo `m - 1`. -/
def inverseValue (c : Cfg) (a : FieldElement) : Nat :=
  if a.m.toNat = 2 then c.EXP0 else a.v.toNat ^ (a.m.toNat - 2) % a.m.toNat

theorem inverseValue_lt {c : Cfg} {a : FieldElement} (ha : ElementInv c a) : inverseValue c a < a.m.toNat := by
  have h2 := two_le_of_elementInv ha
  have h1 := exp0_le_one c
  unfold inverseValue
  split
  · omega
  · exact Nat.mod_lt _ (by omega)

theorem finv_eq {c : Cfg} {a : FieldElement} (ha : ElementInv c a) (h0 : a.v ≠ 0) :
    finv c a = .ok ⟨BitVec.ofNat 256 (inverseValue c a), a.m⟩ := by
  have h2 := two_le_of_elementInv ha
  simp only [finv, h0, if_false, osub_of_le h2 ha.2.2, fexp_eq ha, inverseValue]
  by_cases hm : a.m.toNat = 2
  · simp [hm]
  · simp only [hm, if_false]
    rw [Nat.mod_eq_of_lt (show a.m.toNat - 2 < a.m.toNat - 1 by omega), if_neg (by omega)]

theorem fdiv_eq {c : Cfg} {a b : FieldElement} (hb : ElementInv c b) (hm : a.m = b.m) (h0 : b.v ≠ 0) :
    fdiv c a b = .ok ⟨BitVec.ofNat 256 (a.v.toNat * inverseValue c b % a.m.toNat), a.m⟩ := by
  simp only [fdiv, fieldGuard, hm, if_true, ok_bind, finv_eq hb h0]
  rw [fmul_eq (a := a) (b := ⟨BitVec.ofNat 256 (inverseValue c b), b.m⟩) hm]
  simp only [hm]
  rw [toNat_of_lt b.m (inverseValue_lt hb)]

/-! ## Errors -/

theorem fieldGuard_error {a b : FieldElement} {k : ErrorKind} :
    fieldGuard a b = .error k ↔ a.m ≠ b.m ∧ k = .fieldMismatch := by
  unfold fieldGuard; split <;> simp [*, eq_comm]

theorem fnew_error {v m : WideInt} {k : ErrorKind} :
    fnew v m = .error k ↔ isPrime m.toNat = false ∧ k = .notPrime := by
  unfold fnew; split <;> simp [*, eq_comm]

theorem fadd_error {c : Cfg} {a b : FieldElement} {k : ErrorKind} (h : fadd c a b = .error k) :
    a.m ≠ b.m ∧ k = .fieldMismatch := by
  simp only [fadd, bind_eq_error, fieldGuard_error] at h; simpa using h

theorem fsub_error {c : Cfg} {a b : FieldElement} {k : ErrorKind} (h : fsub c a b = .error k) :
    a.m ≠ b.m ∧ k = .fieldMismatch := by
  simp only [fsub, bind_eq_error, fieldGuard_error] at h; simpa using h

theorem fmul_error {a b : FieldElement} {k : ErrorKind} (h : fmul a b = .error k) :
    a.m ≠ b.m ∧ k = .fieldMismatch := by
  simp only [fmul, bind_eq_error, fieldGuard_error] at h; simpa using h

theorem finv_error {c : Cfg} {a : FieldElement} {k : ErrorKind} (h : finv c a = .error k) :
    a.v = 0 ∧ k = .notInvertible := by
  unfold finv at h; split at h
  · next h0 => simp at h; exact ⟨h0, h.symm⟩
  · simp at h

theorem fdiv_error {c : Cfg} {a b : FieldElement} {k : ErrorKind} (h : fdiv c a b = .error k) :
    k = .fieldMismatch ∨ k = .notInvertible := by
  simp only [fdiv, bind_eq_error, fieldGuard_error] at h
  rcases h with h | ⟨_, _, h | ⟨_, _, h⟩⟩
  · exact .inl h.2
  · exact .inr (finv_error h).2
  · exact .inl (fmul_error h).2

/-! ## Moduli -/

theorem fadd_modulus {c : Cfg} {a b r : FieldElement} (h : fadd c a b = .ok r) : r.m = a.m := by
  simp only [fadd, bind_eq_ok, pure_eq_ok, Except.ok.injEq] at h; obtain ⟨_, _, rfl⟩ := h; rfl

theorem fsub_modulus {c : Cfg} {a b r : FieldElement} (h : fsub c a b = .ok r) : r.m = a.m := by
  simp only [fsub, bind_eq_ok, pure_eq_ok, Except.ok.injEq] at h; obtain ⟨_, _, rfl⟩ := h; rfl

theorem fmul_modulus {a b r : FieldElement} (h : fmul a b = .ok r) : r.m = a.m := by
  simp only [fmul, bind_eq_ok, pure_eq_ok, Except.ok.injEq] at h; obtain ⟨_, _, rfl⟩ := h; rfl

theorem finv_modulus {c : Cfg} {a r : FieldElement} (h : finv c a = .ok r) : r.m = a.m := by
  unfold finv at h; split at h <;> cases h; rfl

theorem fdiv_modulus {c : Cfg} {a b r : FieldElement} (h : fdiv c a b = .ok r) : r.m = a.m := by
  simp only [fdiv, bind_eq_ok] at h
  obtain ⟨_, _, _, _, h⟩ := h
  exact fmul_modulus h

end Sys2Proof.Machine
end

