-- ==== Sys2Proof/Laws/CurveEngine.lean ====
section
/-! SUPPORT. What the Curve Group Engine can raise, and what its definitions say about equality and the identity. -/

namespace Sys2Proof.Machine

theorem W_of_hasCurve {c : Cfg} (h : c.hasCurve = true) : c.W = 256 := by
  rcases hw : c.width with _ | _ <;> simp [Cfg.hasCurve, Cfg.W, hw] at *

theorem width_of_no_curve {c : Cfg} (h : c.hasCurve = false) : c.width = .w64 := by
  rcases hw : c.width with _ | _ <;> simp [Cfg.hasCurve, hw] at h ⊢

theorem hasCurve_of_wellFormed {c : Cfg} {i : Instr} (hi : i.wellFormed c = true) (hc : i.isCurve = true) :
    c.hasCurve = true := by
  simpa [Instr.wellFormed, hc] using hi

theorem peq_iff_eq (P Q : Machine.Point) : peq P Q = true ↔ P = Q := by
  rcases P; rcases Q; simp [peq, feq_iff_eq]

theorem padd_self (c : Cfg) (P : Machine.Point) : padd c P P = pdbl c P := by
  simp [padd, (feq_iff_eq _ _).2 rfl]

theorem pdbl_inf (c : Cfg) : pdbl c pointInf = .ok pointInf := by simp [pdbl, pointInf]

/-- The errors of the group law (47_point_dbl_add.md R235). -/
def GroupLawError (k : ErrorKind) : Prop := k = .fieldMismatch ∨ k = .notInvertible

/-- A chain of calls raises what its calls raise. -/
theorem bind_raises {α β : Type} {Q : ErrorKind → Prop} {x : Except ErrorKind α} {f : α → Except ErrorKind β}
    (hx : ∀ k, x = .error k → Q k) (hf : ∀ a k, f a = .error k → Q k) : ∀ k, (x >>= f) = .error k → Q k := by
  intro k h
  rcases bind_eq_error.1 h with h | ⟨a, _, h⟩
  · exact hx k h
  · exact hf a k h

theorem fadd_raises {c : Cfg} {a b : FieldElement} (k : ErrorKind) (h : fadd c a b = .error k) : GroupLawError k :=
  .inl (fadd_error h).2
theorem fsub_raises {c : Cfg} {a b : FieldElement} (k : ErrorKind) (h : fsub c a b = .error k) : GroupLawError k :=
  .inl (fsub_error h).2
theorem fmul_raises {a b : FieldElement} (k : ErrorKind) (h : fmul a b = .error k) : GroupLawError k :=
  .inl (fmul_error h).2
theorem fdiv_raises {c : Cfg} {a b : FieldElement} (k : ErrorKind) (h : fdiv c a b = .error k) : GroupLawError k :=
  fdiv_error h

theorem pdbl_error {c : Cfg} {P : Machine.Point} {k : ErrorKind} (h : pdbl c P = .error k) : GroupLawError k := by
  unfold pdbl at h
  split at h
  · cases h
  · exact bind_raises fmul_raises (fun _ => bind_raises fadd_raises fun _ => bind_raises fadd_raises fun _ =>
      bind_raises fadd_raises fun _ => bind_raises fdiv_raises fun _ => bind_raises fmul_raises fun _ =>
      bind_raises fsub_raises fun _ => bind_raises fsub_raises fun _ => bind_raises fsub_raises fun _ =>
      bind_raises fmul_raises fun _ => bind_raises fsub_raises fun _ _ h => by cases h) k h

theorem padd_error {c : Cfg} {P Q : Machine.Point} {k : ErrorKind} (h : padd c P Q = .error k) :
    GroupLawError k := by
  unfold padd at h
  repeat' split at h
  · exact pdbl_error h
  · cases h
  · cases h
  · cases h
  · exact bind_raises fsub_raises (fun _ => bind_raises fsub_raises fun _ => bind_raises fdiv_raises fun _ =>
      bind_raises fmul_raises fun _ => bind_raises fsub_raises fun _ => bind_raises fsub_raises fun _ =>
      bind_raises fsub_raises fun _ => bind_raises fmul_raises fun _ => bind_raises fsub_raises fun _ _ h => by
      cases h) k h

/-- One iteration of the loop of R250. -/
theorem pmulLoop_succ {c : Cfg} {n k : Nat} {A B : Machine.Point} (hk : k ≠ 0) :
    pmulLoop c (n + 1) k A B =
      ((if bitAt k 0 then padd c A B else .ok A) >>= fun A' =>
        pdbl c B >>= fun B' => pmulLoop c n (k / 2) A' B') := by
  rw [pmulLoop, if_neg hk]
  cases bitAt k 0 <;> simp [shr]

theorem pmulLoop_error {c : Cfg} {n k : Nat} {A B : Machine.Point} {e : ErrorKind}
    (h : pmulLoop c n k A B = .error e) : GroupLawError e := by
  induction n generalizing k A B e with
  | zero => cases h
  | succ n ih =>
    by_cases hk : k = 0
    · simp [pmulLoop, hk] at h
    · rw [pmulLoop_succ hk] at h
      refine bind_raises (fun e h => ?_) (fun _ => bind_raises (fun _ => pdbl_error) fun _ _ => ih) e h
      split at h
      · exact padd_error h
      · cases h

theorem pmul_error {c : Cfg} {P : Machine.Point} {k : Nat} {e : ErrorKind} (h : pmul c P k = .error e) :
    e = .curveMismatch ∨ GroupLawError e := by
  unfold pmul at h
  split at h
  · cases h; exact .inl rfl
  · exact .inr (pmulLoop_error h)

end Sys2Proof.Machine
end

