-- ==== Sys2Proof/Laws/Decode.lean ====
section
/-! SUPPORT. The fields of a command word, and what each format of 30_encoding.md R82 accepts. -/

namespace Sys2Proof

open Machine

theorem extract_toNat (w : Word32) (s l : Nat) : (w.extractLsb' s l).toNat = w.toNat / 2 ^ s % 2 ^ l := by
  simp [BitVec.extractLsb'_toNat, Nat.shiftRight_eq_div_pow]

/-- The five fields of a packed word are the fields it was packed from. -/
theorem fields_of_packFields {op rd ra rb : Nat} (h1 : op < 256) (h2 : rd < 16) (h3 : ra < 16) (h4 : rb < 16) :
    fieldOp (packFields op rd ra rb) = op ∧ fieldRd (packFields op rd ra rb) = rd ∧
    fieldRa (packFields op rd ra rb) = ra ∧ fieldRb (packFields op rd ra rb) = rb ∧
    fieldZero (packFields op rd ra rb) = 0 := by
  have hb : op * 2 ^ 24 + rd * 2 ^ 20 + ra * 2 ^ 16 + rb * 2 ^ 12 < 2 ^ 32 := by omega
  simp only [fieldOp, fieldRd, fieldRa, fieldRb, fieldZero, extract_toNat, packFields, BitVec.toNat_ofNat,
    Nat.mod_eq_of_lt hb]
  refine ⟨?_, ?_, ?_, ?_, ?_⟩ <;> omega

/-- A word with a zero `zero` field is packed from its other fields. -/
theorem packFields_of_fields (w : Word32) (h : fieldZero w = 0) :
    packFields (fieldOp w) (fieldRd w) (fieldRa w) (fieldRb w) = w := by
  simp only [fieldOp, fieldRd, fieldRa, fieldRb, fieldZero, extract_toNat, packFields] at *
  apply BitVec.eq_of_toNat_eq
  have := w.isLt
  rw [BitVec.toNat_ofNat]
  omega

theorem index8_val (i : Fin 8) : index8 i = .ok i := by simp [index8]

theorem index4_val (i : Fin 4) : index4 i = .ok i := by simp [index4]

theorem index8_eq_ok {f : Nat} {i : Fin 8} : index8 f = .ok i ↔ i.val = f := by
  unfold index8; split
  · simp [Fin.ext_iff, eq_comm]
  · have := i.isLt
    simp; omega

theorem index4_eq_ok {f : Nat} {i : Fin 4} : index4 f = .ok i ↔ i.val = f := by
  unfold index4; split
  · simp [Fin.ext_iff, eq_comm]
  · have := i.isLt
    simp; omega

theorem mustBeZero_eq_ok {e : DecodeError} {f : Nat} {u : Unit} : mustBeZero e f = .ok u ↔ f = 0 := by
  unfold mustBeZero; split <;> simp [*]

theorem formatZ_eq_ok {i j : Instr} {w : Word32} :
    formatZ i w = .ok j ↔ fieldZero w = 0 ∧ fieldRd w = 0 ∧ fieldRa w = 0 ∧ fieldRb w = 0 ∧ i = j := by
  simp [formatZ, bind_eq_ok, mustBeZero_eq_ok]

theorem formatD_eq_ok {D : Type} {rd : Nat → Except DecodeError D} {mk : D → Instr} {j : Instr} {w : Word32} :
    formatD rd mk w = .ok j ↔
      fieldZero w = 0 ∧ fieldRa w = 0 ∧ fieldRb w = 0 ∧ ∃ d, rd (fieldRd w) = .ok d ∧ mk d = j := by
  simp [formatD, bind_eq_ok, mustBeZero_eq_ok]

theorem formatA_eq_ok {A : Type} {ra : Nat → Except DecodeError A} {mk : A → Instr} {j : Instr} {w : Word32} :
    formatA ra mk w = .ok j ↔
      fieldZero w = 0 ∧ fieldRd w = 0 ∧ fieldRb w = 0 ∧ ∃ a, ra (fieldRa w) = .ok a ∧ mk a = j := by
  simp [formatA, bind_eq_ok, mustBeZero_eq_ok]

theorem formatDA_eq_ok {D A : Type} {rd : Nat → Except DecodeError D} {ra : Nat → Except DecodeError A}
    {mk : D → A → Instr} {j : Instr} {w : Word32} :
    formatDA rd ra mk w = .ok j ↔
      fieldZero w = 0 ∧ fieldRb w = 0 ∧
        ∃ d, rd (fieldRd w) = .ok d ∧ ∃ a, ra (fieldRa w) = .ok a ∧ mk d a = j := by
  simp [formatDA, bind_eq_ok, mustBeZero_eq_ok]

theorem formatAB_eq_ok {A B : Type} {ra : Nat → Except DecodeError A} {rb : Nat → Except DecodeError B}
    {mk : A → B → Instr} {j : Instr} {w : Word32} :
    formatAB ra rb mk w = .ok j ↔
      fieldZero w = 0 ∧ fieldRd w = 0 ∧
        ∃ a, ra (fieldRa w) = .ok a ∧ ∃ b, rb (fieldRb w) = .ok b ∧ mk a b = j := by
  simp [formatAB, bind_eq_ok, mustBeZero_eq_ok]

theorem formatDAB_eq_ok {D A B : Type} {rd : Nat → Except DecodeError D} {ra : Nat → Except DecodeError A}
    {rb : Nat → Except DecodeError B} {mk : D → A → B → Instr} {j : Instr} {w : Word32} :
    formatDAB rd ra rb mk w = .ok j ↔
      fieldZero w = 0 ∧
        ∃ d, rd (fieldRd w) = .ok d ∧ ∃ a, ra (fieldRa w) = .ok a ∧ ∃ b, rb (fieldRb w) = .ok b ∧
          mk d a b = j := by
  simp [formatDAB, bind_eq_ok, mustBeZero_eq_ok]

theorem decode_eq_ok {c : Cfg} {w : Word32} {i : Instr} :
    decode c w = .ok i ↔ decodeRow w = .ok i ∧ i.wellFormed c = true := by
  unfold decode
  cases decodeRow w with
  | error e => simp
  | ok j =>
    simp only [ok_bind]
    split
    · next hw => simp; rintro rfl; exact hw
    · next hw =>
      simp [throw, throwThe, MonadExceptOf.throw]; rintro rfl; exact Bool.eq_false_iff.2 hw

end Sys2Proof
end

