-- ==== Sys2Proof/Laws/DomainPrime.lean ====
section
/-! SUPPORT. The domain prime `p` of 10_state.md R36 is a prime number, by a chain of Lucas certificates. The Primality
Tester's verdict alone would not say so (41_primality.md R126). -/

namespace Sys2Proof.Machine

-- One theorem at a time: kernel evaluations that wait for one another would take a thread each.
set_option Elab.async false

/-- A number is below every list of factors that multiplies up to it: a prime that divides a product of primes is one
of them. -/
theorem mem_of_prime_dvd_prod {l : List Nat} (hl : ∀ q ∈ l, q.Prime) {r : Nat} (hr : r.Prime) (h : r ∣ l.prod) :
    r ∈ l := by
  obtain ⟨q, hq, hd⟩ := (Prime.dvd_prod_iff (Nat.prime_iff.mp hr)).mp h
  exact ((Nat.prime_dvd_prime_iff_eq hr (hl q hq)).mp hd) ▸ hq

/-- Lucas' criterion with the powers evaluated by `powMod`: `l` lists the prime factors of `n - 1`. -/
theorem prime_of_certificate {n a : Nat} {l : List Nat} (hn : 1 < n) (hl : ∀ q ∈ l, q.Prime) (hp : l.prod = n - 1)
    (h1 : powMod a (n - 1) n = 1) (hd : ∀ q ∈ l, powMod a ((n - 1) / q) n ≠ 1) : n.Prime := by
  have cast_pow : ∀ k, powMod a k n = 1 ↔ (a : ZMod n) ^ k = 1 := by
    intro k
    have := ZMod.natCast_eq_natCast_iff' (a ^ k) 1 n
    rw [Nat.mod_eq_of_lt hn, Nat.cast_pow, Nat.cast_one] at this
    rw [powMod_eq, this]
  refine lucas_primality n (a : ZMod n) ((cast_pow _).mp h1) fun q hq hdvd => ?_
  have hm : q ∈ l := mem_of_prime_dvd_prod hl hq (hp ▸ hdvd)
  exact fun h => hd q hm ((cast_pow _).mpr h)

theorem prime_factor18 : (173378833005251801).Prime := by
  refine prime_of_certificate (a := 6) (l := [2, 2, 2, 5, 5, 2621, 24809, 13331831]) (by decide +kernel) ?_ (by decide +kernel)
    (by decide +kernel) (by decide +kernel)
  simp only [List.forall_mem_cons, List.not_mem_nil, false_imp_iff, implies_true, and_true]
  refine ⟨by norm_num, by norm_num, by norm_num, by norm_num, by norm_num, by norm_num, by norm_num, by norm_num⟩

theorem prime_factor23 : (22149492674086928081353).Prime := by
  refine prime_of_certificate (a := 5) (l := [2, 2, 2, 3, 5323, 173378833005251801]) (by decide +kernel) ?_ (by decide +kernel)
    (by decide +kernel) (by decide +kernel)
  simp only [List.forall_mem_cons, List.not_mem_nil, false_imp_iff, implies_true, and_true]
  refine ⟨by norm_num, by norm_num, by norm_num, by norm_num, by norm_num, prime_factor18⟩

theorem prime_factor24 : (132896956044521568488119).Prime := by
  refine prime_of_certificate (a := 6) (l := [2, 3, 22149492674086928081353]) (by decide +kernel) ?_ (by decide +kernel)
    (by decide +kernel) (by decide +kernel)
  simp only [List.forall_mem_cons, List.not_mem_nil, false_imp_iff, implies_true, and_true]
  refine ⟨by norm_num, by norm_num, prime_factor23⟩

theorem prime_factor39 : (255515944373312847190720520512484175977).Prime := by
  refine prime_of_certificate (a := 3) (l := [2, 2, 2, 7, 7, 11, 1627, 2657, 4423, 41201, 96557, 7240687, 107590001]) (by decide +kernel) ?_ (by decide +kernel)
    (by decide +kernel) (by decide +kernel)
  simp only [List.forall_mem_cons, List.not_mem_nil, false_imp_iff, implies_true, and_true]
  refine ⟨by norm_num, by norm_num, by norm_num, by norm_num, by norm_num, by norm_num, by norm_num, by norm_num, by norm_num, by norm_num, by norm_num, by norm_num, by norm_num⟩

theorem prime_factor72 : (205115282021455665897114700593932402728804164701536103180137503955397371).Prime := by
  refine prime_of_certificate (a := 10) (l := [2, 3, 5, 29, 29, 31, 7723, 132896956044521568488119, 255515944373312847190720520512484175977]) (by decide +kernel) ?_ (by decide +kernel)
    (by decide +kernel) (by decide +kernel)
  simp only [List.forall_mem_cons, List.not_mem_nil, false_imp_iff, implies_true, and_true]
  refine ⟨by norm_num, by norm_num, by norm_num, by norm_num, by norm_num, by norm_num, by norm_num, prime_factor24, prime_factor39⟩

theorem prime_domainP : (domainP.toNat).Prime := by
  refine prime_of_certificate (a := 3) (l := [2, 3, 7, 13441, 205115282021455665897114700593932402728804164701536103180137503955397371]) (by decide +kernel) ?_ (by decide +kernel)
    (by decide +kernel) (by decide +kernel)
  simp only [List.forall_mem_cons, List.not_mem_nil, false_imp_iff, implies_true, and_true]
  refine ⟨by norm_num, by norm_num, by norm_num, by norm_num, prime_factor72⟩

end Sys2Proof.Machine
end

