-- ==== Sys2Proof/Laws/PerInstr.lean ====
section
/-! SUPPORT. A property of every instruction as syntax, one lemma for each constructor: the word the encoder writes is
covered by the row of 30_encoding.md R85 that has the instruction's mnemonic. -/

namespace Sys2Proof.Laws

-- One theorem at a time: kernel evaluations that wait for one another would take a thread each.
set_option Elab.async false

/-- The encoding of the instruction fits its own row of the opcode map. -/
def EncodeFits.Statement (i : Instr) : Prop :=
  ∃ r ∈ opcodeTable, r.mnemonic = i.mnemonic ∧ r.covers (encode i) = true

theorem EncodeFits.nop : EncodeFits.Statement .nop :=
  ⟨.mk "NOP" 0x00000000#32 0xFFFFFFFF#32, by simp [opcodeTable], rfl, by decide +kernel⟩

theorem EncodeFits.clrerr : EncodeFits.Statement .clrerr :=
  ⟨.mk "CLRERR" 0x01000000#32 0xFFFFFFFF#32, by simp [opcodeTable], rfl, by decide +kernel⟩

theorem EncodeFits.srst : EncodeFits.Statement .srst :=
  ⟨.mk "SRST" 0x02000000#32 0xFFFFFFFF#32, by simp [opcodeTable], rfl, by decide +kernel⟩

theorem EncodeFits.isprime (ra : SIdx) : EncodeFits.Statement (.isprime ra) :=
  ⟨.mk "ISPRIME" 0x08000000#32 0xFFF8FFFF#32, by simp [opcodeTable], rfl, by revert ra; decide +kernel⟩

theorem EncodeFits.fnew (rd : FIdx) (ra rb : SIdx) : EncodeFits.Statement (.fnew rd ra rb) :=
  ⟨.mk "FNEW" 0x10000000#32 0xFF888FFF#32, by simp [opcodeTable], rfl, by revert rd ra rb; decide +kernel⟩

theorem EncodeFits.fmov (rd ra : FIdx) : EncodeFits.Statement (.fmov rd ra) :=
  ⟨.mk "FMOV" 0x11000000#32 0xFF88FFFF#32, by simp [opcodeTable], rfl, by revert rd ra; decide +kernel⟩

theorem EncodeFits.fzero (rd ra : FIdx) : EncodeFits.Statement (.fzero rd ra) :=
  ⟨.mk "FZERO" 0x12000000#32 0xFF88FFFF#32, by simp [opcodeTable], rfl, by revert rd ra; decide +kernel⟩

theorem EncodeFits.fone (rd ra : FIdx) : EncodeFits.Statement (.fone rd ra) :=
  ⟨.mk "FONE" 0x13000000#32 0xFF88FFFF#32, by simp [opcodeTable], rfl, by revert rd ra; decide +kernel⟩

theorem EncodeFits.feq (ra rb : FIdx) : EncodeFits.Statement (.feq ra rb) :=
  ⟨.mk "FEQ" 0x14000000#32 0xFFF88FFF#32, by simp [opcodeTable], rfl, by revert ra rb; decide +kernel⟩

theorem EncodeFits.fadd (rd ra rb : FIdx) : EncodeFits.Statement (.fadd rd ra rb) :=
  ⟨.mk "FADD" 0x18000000#32 0xFF888FFF#32, by simp [opcodeTable], rfl, by revert rd ra rb; decide +kernel⟩

theorem EncodeFits.fsub (rd ra rb : FIdx) : EncodeFits.Statement (.fsub rd ra rb) :=
  ⟨.mk "FSUB" 0x19000000#32 0xFF888FFF#32, by simp [opcodeTable], rfl, by revert rd ra rb; decide +kernel⟩

theorem EncodeFits.fmul (rd ra rb : FIdx) : EncodeFits.Statement (.fmul rd ra rb) :=
  ⟨.mk "FMUL" 0x1A000000#32 0xFF888FFF#32, by simp [opcodeTable], rfl, by revert rd ra rb; decide +kernel⟩

theorem EncodeFits.fsqr (rd ra : FIdx) : EncodeFits.Statement (.fsqr rd ra) :=
  ⟨.mk "FSQR" 0x1B000000#32 0xFF88FFFF#32, by simp [opcodeTable], rfl, by revert rd ra; decide +kernel⟩

theorem EncodeFits.fexp (rd ra : FIdx) (rb : SIdx) : EncodeFits.Statement (.fexp rd ra rb) :=
  ⟨.mk "FEXP" 0x1C000000#32 0xFF888FFF#32, by simp [opcodeTable], rfl, by revert rd ra rb; decide +kernel⟩

theorem EncodeFits.finv (rd ra : FIdx) : EncodeFits.Statement (.finv rd ra) :=
  ⟨.mk "FINV" 0x1D000000#32 0xFF88FFFF#32, by simp [opcodeTable], rfl, by revert rd ra; decide +kernel⟩

theorem EncodeFits.fdiv (rd ra rb : FIdx) : EncodeFits.Statement (.fdiv rd ra rb) :=
  ⟨.mk "FDIV" 0x1E000000#32 0xFF888FFF#32, by simp [opcodeTable], rfl, by revert rd ra rb; decide +kernel⟩

theorem EncodeFits.pnew (rd : PIdx) (ra rb : SIdx) : EncodeFits.Statement (.pnew rd ra rb) :=
  ⟨.mk "PNEW" 0x30000000#32 0xFFC88FFF#32, by simp [opcodeTable], rfl, by revert rd ra rb; decide +kernel⟩

theorem EncodeFits.pset (rd : PIdx) (ra rb : FIdx) : EncodeFits.Statement (.pset rd ra rb) :=
  ⟨.mk "PSET" 0x31000000#32 0xFFC88FFF#32, by simp [opcodeTable], rfl, by revert rd ra rb; decide +kernel⟩

theorem EncodeFits.pgen (rd : PIdx) : EncodeFits.Statement (.pgen rd) :=
  ⟨.mk "PGEN" 0x32000000#32 0xFFCFFFFF#32, by simp [opcodeTable], rfl, by revert rd; decide +kernel⟩

theorem EncodeFits.pinf (rd : PIdx) : EncodeFits.Statement (.pinf rd) :=
  ⟨.mk "PINF" 0x33000000#32 0xFFCFFFFF#32, by simp [opcodeTable], rfl, by revert rd; decide +kernel⟩

theorem EncodeFits.pmov (rd ra : PIdx) : EncodeFits.Statement (.pmov rd ra) :=
  ⟨.mk "PMOV" 0x34000000#32 0xFFCCFFFF#32, by simp [opcodeTable], rfl, by revert rd ra; decide +kernel⟩

theorem EncodeFits.pgetx (rd : FIdx) (ra : PIdx) : EncodeFits.Statement (.pgetx rd ra) :=
  ⟨.mk "PGETX" 0x35000000#32 0xFF8CFFFF#32, by simp [opcodeTable], rfl, by revert rd ra; decide +kernel⟩

theorem EncodeFits.pgety (rd : FIdx) (ra : PIdx) : EncodeFits.Statement (.pgety rd ra) :=
  ⟨.mk "PGETY" 0x36000000#32 0xFF8CFFFF#32, by simp [opcodeTable], rfl, by revert rd ra; decide +kernel⟩

theorem EncodeFits.peq (ra rb : PIdx) : EncodeFits.Statement (.peq ra rb) :=
  ⟨.mk "PEQ" 0x37000000#32 0xFFFCCFFF#32, by simp [opcodeTable], rfl, by revert ra rb; decide +kernel⟩

theorem EncodeFits.pdbl (rd ra : PIdx) : EncodeFits.Statement (.pdbl rd ra) :=
  ⟨.mk "PDBL" 0x38000000#32 0xFFCCFFFF#32, by simp [opcodeTable], rfl, by revert rd ra; decide +kernel⟩

theorem EncodeFits.padd (rd ra rb : PIdx) : EncodeFits.Statement (.padd rd ra rb) :=
  ⟨.mk "PADD" 0x39000000#32 0xFFCCCFFF#32, by simp [opcodeTable], rfl, by revert rd ra rb; decide +kernel⟩

theorem EncodeFits.pmul (rd ra : PIdx) (rb : SIdx) : EncodeFits.Statement (.pmul rd ra rb) :=
  ⟨.mk "PMUL" 0x3A000000#32 0xFFCC8FFF#32, by simp [opcodeTable], rfl, by revert rd ra rb; decide +kernel⟩

end Sys2Proof.Laws
end

