-- ==== Sys2Proof/Laws/Step.lean ====
section
/-! SUPPORT. Everything a command and a step can do, said once; the statements about all commands and all steps follow
from these by cases. -/

namespace Sys2Proof.Machine

/-- A completing pseudocode writes the destination of its command and nothing else. -/
theorem bodyOf_writes_destination {s t : State} {i : Instr} (h : bodyOf s i = .ok t) :
    match destination i with
    | .nothing => t = s
    | .f rd => ∃ r, t = setF s rd r
    | .p rd => ∃ r, t = setP s rd r
    | .prime => ∃ b, t = setPrime s b
    | .eq => ∃ b, t = setEq s b
    | .faultState => t = clearFault s
    | .everything => t = resetCore s := by
  cases i <;> simp only [destination, bodyOf, fieldOp1, fieldOp2, bind_eq_ok, pure_eq_ok, Except.ok.injEq] at h ⊢
  all_goals
    first
    | exact h.symm
    | exact ⟨_, h.symm⟩
    | (obtain ⟨_, _, rfl⟩ := h; exact ⟨_, rfl⟩)
    | (obtain ⟨_, _, _, _, rfl⟩ := h; exact ⟨_, rfl⟩)
    | (obtain ⟨_, _, _, _, _, _, rfl⟩ := h; exact ⟨_, rfl⟩)
    | (obtain ⟨_, _, _, _, _, _, _, _, rfl⟩ := h; exact ⟨_, rfl⟩)

/-- A command records something in STATUS and ECMD, or does what its pseudocode answers. -/
theorem exec_records_or_completes {s t : State} {i : Instr} (h : exec i s = .next t) :
    (∃ st e, t = { s with status := st, ecmd := e } ∧ st.prime = s.status.prime ∧ st.eq = s.status.eq ∧
      ¬alwaysExecuted i) ∨ bodyOf s i = .ok t := by
  rcases exec_cases h with ⟨rfl, rfl⟩ | ⟨rfl, rfl⟩ | ⟨ha, _, rfl⟩ | ⟨ha, _, _, rfl⟩ | ⟨ha, _, _, k, _, rfl⟩ | ⟨_, _, _, hb⟩
  · exact .inr rfl
  · exact .inr rfl
  · exact .inl ⟨_, _, rfl, rfl, rfl, ha⟩
  · exact .inl ⟨_, _, rfl, rfl, rfl, ha⟩
  · exact .inl ⟨_, _, rfl, rfl, rfl, ha⟩
  · exact .inr hb

theorem hostRead_eq (a : Nat) (s : State) : ∃ r d, hostRead a s = { s with replies := r, draws := d } := by
  unfold hostRead; split <;> exact ⟨_, _, rfl⟩

theorem admitted_size {a n : Nat} (h : admitted a n = true) : n = 4 := by
  simp [admitted] at h; exact h.1

/-- Everything a step can do. -/
theorem step_cases {s t : State} (h : step s = .next t) :
    t = s ∨ ∃ tr rest, s.pending = tr :: rest ∧
      let s' : State := { s with pending := rest }
      (t = s' ∨ (tr = .reset ∧ t = resetCore s') ∨
        (∃ a r d, tr = .read a 4 ∧ t = { s' with replies := r, draws := d }) ∨
        (∃ a w i j, tr = .write a 4 w ∧ locate s.cfg a = .sWord i j ∧ t = setSWord s' i j w) ∨
        ∃ a w, tr = .write a 4 w ∧ locate s.cfg a = .cmd ∧ executeWord w s' = .next t) := by
  unfold step serveHost at h
  split at h
  · cases h; exact .inl rfl
  · next tr rest hp =>
    refine .inr ⟨tr, rest, hp, ?_⟩
    intro s'
    cases tr with
    | reset => cases h; exact .inr (.inl ⟨rfl, rfl⟩)
    | read a n =>
      simp only [transact] at h
      split at h
      · next hadm =>
        obtain rfl := admitted_size hadm
        cases h
        obtain ⟨r, d, e⟩ := hostRead_eq a s'
        exact .inr (.inr (.inl ⟨a, r, d, rfl, e⟩))
      · cases h
    | write a n w =>
      simp only [transact] at h
      split at h
      · next hadm =>
        obtain rfl := admitted_size hadm
        unfold hostWrite at h
        split at h
        · next hl => exact .inr (.inr (.inr (.inr ⟨a, w, rfl, hl, h⟩)))
        · next i j hl => cases h; exact .inr (.inr (.inr (.inl ⟨a, w, i, j, rfl, hl, rfl⟩)))
        · cases h; exact .inl rfl
      · cases h

/-- Only word addresses of existing S words lead to an S word. -/
theorem locate_sWord_index {c : Cfg} {a : Nat} {i : SIdx} {j : Fin 8} (h : locate c a = .sWord i j) :
    j.val < c.NW := by
  unfold locate at h
  simp only [mappedWord] at h
  repeat' split at h
  all_goals first | (cases h; done) | (cases h; assumption)

/-- Only address 0 is CMD. -/
theorem locate_cmd {c : Cfg} {a : Nat} (h : locate c a = .cmd) : a = 0 := by
  unfold locate at h
  simp only [mappedWord] at h
  repeat' split at h
  all_goals first | (cases h; done) | rfl

end Sys2Proof.Machine
end

