-- ==== Sys2Proof/Tests/Slice0.lean ====
section
/-! SUPPORT. The model's own tests. Expected values are from the spec: the worked examples of the command rules and
the vectors of 95_test_vectors.md, named at each test. Below them, for each statement with hypotheses, a witness that
meets them. -/

namespace Sys2Proof.Tests

-- One theorem at a time: kernel evaluations that wait for one another would take a thread each.
set_option Elab.async false

open Machine

/-! ## Well-formedness: an ill-formed term for each check, refused -/

def cfg64 : Cfg := { width := .w64, exp0 := false }

theorem test_wellFormed_refuses_curve_commands_without_curve :
    [Instr.pnew 0 0 1, .pset 0 0 1, .pgen 0, .pinf 0, .pmov 0 1, .pgetx 0 1, .pgety 0 1, .peq 0 1, .pdbl 0 1,
      .padd 0 1 2, .pmul 0 1 2].all (fun i => !i.wellFormed cfg64 && i.wellFormed .thisHardware) = true := by decide

theorem test_pseudo_refuses_equal_registers :
    (Pseudo.fneg 3 3).wellFormed = false ∧ (Pseudo.ptpl 2 2).wellFormed = false ∧
    (Pseudo.fneg 3 3).expand = none ∧ (Pseudo.ptpl 1 0).expand = some [.pdbl 1 0, .padd 1 0 1] := by decide

/-! ## Decoding: words written out from R85, R87 and 95_test_vectors.md 2.1 -/

def decodesTo (w : Word32) (i : Instr) : Bool :=
  match decode .thisHardware w with
  | .ok j => j = i
  | .error _ => false

theorem test_decode_system :
    decodesTo 0x00000000#32 .nop ∧ decodesTo 0x01000000#32 .clrerr ∧ decodesTo 0x02000000#32 .srst ∧
    decodesTo 0x08050000#32 (.isprime 5) := by decide

theorem test_decode_field :
    decodesTo 0x10001000#32 (.fnew 0 0 1) ∧ decodesTo 0x11410000#32 (.fmov 4 1) ∧
    decodesTo 0x12210000#32 (.fzero 2 1) ∧ decodesTo 0x13310000#32 (.fone 3 1) ∧
    decodesTo 0x14067000#32 (.feq 6 7) ∧ decodesTo 0x18201000#32 (.fadd 2 0 1) ∧
    decodesTo 0x18777000#32 (.fadd 7 7 7) ∧ decodesTo 0x19425000#32 (.fsub 4 2 5) := by decide

theorem test_decode_field_products :
    decodesTo 0x1A301000#32 (.fmul 3 0 1) ∧ decodesTo 0x1B120000#32 (.fsqr 1 2) ∧
    decodesTo 0x1C324000#32 (.fexp 3 2 4) ∧ decodesTo 0x1D670000#32 (.finv 6 7) ∧
    decodesTo 0x1E501000#32 (.fdiv 5 0 1) := by decide

theorem test_decode_point :
    decodesTo 0x30001000#32 (.pnew 0 0 1) ∧ decodesTo 0x31101000#32 (.pset 1 0 1) ∧
    decodesTo 0x32000000#32 (.pgen 0) ∧ decodesTo 0x33300000#32 (.pinf 3) ∧ decodesTo 0x34200000#32 (.pmov 2 0) ∧
    decodesTo 0x35520000#32 (.pgetx 5 2) ∧ decodesTo 0x36620000#32 (.pgety 6 2) ∧
    decodesTo 0x37023000#32 (.peq 2 3) := by decide

theorem test_decode_group_law :
    decodesTo 0x38100000#32 (.pdbl 1 0) ∧ decodesTo 0x39201000#32 (.padd 2 0 1) ∧
    decodesTo 0x39333000#32 (.padd 3 3 3) ∧ decodesTo 0x3A307000#32 (.pmul 3 0 7) := by decide

def illegal (c : Cfg) (w : Word32) : Bool := (decode c w).toOption.isNone

theorem test_illegal_words :
    [0x03000000#32, 0x1F000000#32, 0x2A000000#32, 0xFFFFFFFF#32, 0x00000001#32, 0x01000001#32, 0x18201001#32,
      0x18801000#32, 0x32400000#32, 0x3A338000#32, 0x08150000#32, 0x14167000#32, 0x37100000#32].all
      (illegal .thisHardware) = true ∧
    illegal cfg64 0x3A307000#32 = true := by decide

theorem test_decodeTableWord :
    decodeTableWord 32 0x3A307000 = some (.pmul 3 0 7) ∧ decodeTableWord 32 0x18801000 = none := by decide

/-! ## States to run on -/

/-- An S register holding a value. -/
def sHold (c : Cfg) (v : WideInt) : SReg :=
  { words := Vector.ofFn fun j => if j.val < c.NW then some (wordOf v j.val) else none }

/-- A state after reset with values put into registers; `none` leaves an F or P register invalid. -/
def mk (c : Cfg) (ss : List WideInt) (fs : List (Option FieldElement)) (ps : List (Option Point)) : State :=
  { State.reset with
    cfg := c
    sregs := Vector.ofFn fun i => match ss[i.val]? with
      | some v => sHold c v
      | none => .blank
    fregs := Vector.ofFn fun i => (fs[i.val]?).getD none
    pregs := Vector.ofFn fun i => (ps[i.val]?).getD none }

/-- F0 = (17, 859), F1 = (849, 859), F2 = (17, 23), F3 = (0, 859), F4 = (1, 2), F5 = (7, 23), F6 = (7, 859), F7
invalid; S0 = 7871238, S1 = 23, S2 = 21, S3 = 5, S4 = 22; P0 = ((1, 23), (10, 23)), P1 = ((4, 23), (5, 23)),
P2 = ((1, 23), (10, 859)), P3 = ((1, 2), (1, 2)). -/
def small : State :=
  mk .thisHardware [7871238, 23, 21, 5, 22]
    [some ⟨17, 859⟩, some ⟨849, 859⟩, some ⟨17, 23⟩, some ⟨0, 859⟩, some ⟨1, 2⟩, some ⟨7, 23⟩, some ⟨7, 859⟩]
    [some ⟨⟨1, 23⟩, ⟨10, 23⟩⟩, some ⟨⟨4, 23⟩, ⟨5, 23⟩⟩, some ⟨⟨1, 23⟩, ⟨10, 859⟩⟩, some ⟨⟨1, 2⟩, ⟨1, 2⟩⟩]

/-- Points over `p`: P0 = G, P1 = INF, P2 = ((0, p), (5, p)), P3 = 2G; S0 = 3, S1 = p, S2 = 2^256 - 1, S3 = 0, S4 = 1,
S5 = 2. -/
def curveState : State :=
  mk .thisHardware [3, domainP, BitVec.allOnes 256, 0, 1, 2]
    [some ⟨domainP - 1, domainP⟩, some ⟨domainGx, domainP⟩]
    [some pointG, some pointInf, some ⟨⟨0, domainP⟩, ⟨5, domainP⟩⟩,
      some ⟨⟨0xC6047F9441ED7D6D3045406E95C07CD85C778E4B8CEF3CA7ABAC09B95C709EE5#256, domainP⟩,
        ⟨0x1AE168FEA63DC339A3C58419466CEAEEF7F632653266D0E1236431A950CFE52A#256, domainP⟩⟩]

/-- More points over 23 and 859: P0 = ((9, 23), (0, 23)), P1 = ((0, 23), (0, 23)), P2 = ((1, 23), (13, 23)),
P3 = ((1, 23), (10, 23)). -/
def small2 : State :=
  mk .thisHardware [0] [] [some ⟨⟨9, 23⟩, ⟨0, 23⟩⟩, some ⟨⟨0, 23⟩, ⟨0, 23⟩⟩, some ⟨⟨1, 23⟩, ⟨13, 23⟩⟩,
    some ⟨⟨1, 23⟩, ⟨10, 23⟩⟩]

/-- P0 = ((1, 23), (10, 23)), P1 = ((4, 859), (5, 859)). -/
def small3 : State := mk .thisHardware [] [] [some ⟨⟨1, 23⟩, ⟨10, 23⟩⟩, some ⟨⟨4, 859⟩, ⟨5, 859⟩⟩]

/-- A state of the 64-bit configuration: F0 = F1 = (m - 1, m) with m = 2^64 - 59, and S0 = 7. -/
def state64 : State :=
  mk cfg64 [7] [some ⟨18446744073709551556, 18446744073709551557⟩, some ⟨18446744073709551556, 18446744073709551557⟩]
    []

/-- The CORE faulted by `FADD F2, F0, F1` with different moduli, and one command dropped since (R261's example). -/
def faulted : State :=
  { small with status := { err := true, drop := true, prime := false, eq := false, ecode := 2 }, ecmd := 0x18201000#32 }

/-- The state one command leaves. -/
def after (i : Instr) (s : State) : State :=
  match exec i s with
  | .next t => t
  | .fault f => nomatch f
  | .refused _ => s

def stat (s : State) : Word32 := statusWord s.status

/-! ## One command each -/

theorem test_nop : after .nop small = small ∧ stat (after .nop faulted) = 0x00000203#32 := by decide +kernel

/-- R261, worked example. -/
theorem test_clrerr :
    stat faulted = 0x00000203#32 ∧ stat (after .clrerr faulted) = 0 ∧ (after .clrerr faulted).ecmd = 0 ∧
    (after .clrerr faulted).fregs = small.fregs := by decide +kernel

/-- R262, worked example. -/
theorem test_srst :
    stat (after .srst faulted) = 0 ∧ svalidWord (after .srst faulted) = 0 ∧ fvalidWord (after .srst faulted) = 0 ∧
    pvalidWord (after .srst faulted) = 0 ∧ configWord (after .srst faulted).cfg = 0x00000208#32 := by decide +kernel

/-- R128: 21 is not prime; 2.4: 23 is. -/
theorem test_isprime :
    stat (after (.isprime 2) small) = 0 ∧ stat (after (.isprime 1) small) = 0x00000004#32 := by decide +kernel

/-- 2.4: a strong pseudoprime to base 2, a Carmichael number, two primes, and a composite the test accepts. -/
theorem test_isprime_vectors :
    isPrime 2047 = false ∧ isPrime 561 = false ∧ isPrime 859 = true ∧ isPrime 2305843009213693951 = true ∧
    isPrime 341550071728321 = true := by decide +kernel

/-- R143, worked examples (source vectors 5 and 6). -/
theorem test_fnew :
    (after (.fnew 7 0 1) small).fval 7 = some ⟨17, 23⟩ ∧
    stat (after (.fnew 7 0 2) small) = 0x00000101#32 ∧ (after (.fnew 7 0 2) small).ecmd = 0x10702000#32 := by
  decide +kernel

/-- R144, R145, R146 and 2.5. -/
theorem test_fmov : (after (.fmov 4 0) small).fval 4 = some ⟨17, 859⟩ := by decide +kernel
theorem test_fzero : (after (.fzero 2 0) small).fval 2 = some ⟨0, 859⟩ := by decide +kernel
theorem test_fone : (after (.fone 4 3) small).fval 4 = some ⟨1, 859⟩ := by decide +kernel

/-- 2.5: equal elements; `(7, 23)` against `(7, 859)`; an invalid source. -/
theorem test_feq :
    stat (after (.feq 6 6) small) = 0x00000008#32 ∧ stat (after (.feq 5 6) small) = 0 ∧
    stat (after (.feq 0 7) small) = 0x00000701#32 := by decide +kernel

/-- R164 worked example (source vector 5); R164 at `W = 64` on the carry path. -/
theorem test_fadd :
    (after (.fadd 2 0 1) small).fval 2 = some ⟨7, 859⟩ ∧
    (after (.fadd 2 0 1) state64).fval 2 = some ⟨18446744073709551555, 18446744073709551557⟩ := by decide +kernel

/-- R167 worked example, destination also a source; 2.6 row of two fields. -/
theorem test_fsub :
    (after (.fsub 6 6 1) small).fval 6 = some ⟨17, 859⟩ ∧ stat (after (.fsub 6 0 2) small) = 0x00000201#32 := by
  decide +kernel

/-- R183 worked example (source vector 5), and R180's loop on it. -/
theorem test_fmul :
    (after (.fmul 3 0 1) small).fval 3 = some ⟨689, 859⟩ ∧ mulModDoubleAndAdd 64 17 849 859 = 689 := by
  decide +kernel

/-- R184 worked example. -/
theorem test_fsqr : (after (.fsqr 3 2) small).fval 3 = some ⟨13, 23⟩ := by decide +kernel

/-- R194 worked example (D-EXP-1) and the exponent `m - 1` (D-EXP-4). -/
theorem test_fexp :
    (after (.fexp 0 5 3) small).fval 0 = some ⟨17, 23⟩ ∧ (after (.fexp 0 5 4) small).fval 0 = some ⟨0, 23⟩ := by
  decide +kernel

/-- R196 worked example; D-INV-6. -/
theorem test_finv :
    (after (.finv 7 2) small).fval 7 = some ⟨19, 23⟩ ∧ (after (.finv 7 4) small).fval 7 = some ⟨0, 2⟩ := by
  decide +kernel

/-- R198 worked example; D-DIV-4, the guard before the zero divisor. -/
theorem test_fdiv :
    (after (.fdiv 5 0 1) small).fval 5 = some ⟨256, 859⟩ ∧ stat (after (.fdiv 7 5 3) small) = 0x00000201#32 := by
  decide +kernel

/-- R214: raw `2^256 - 1` reduces to `2^32 + 976` (D-PT-15). -/
theorem test_pnew :
    (after (.pnew 1 1 2) curveState).pval 1 = some ⟨⟨0, domainP⟩, ⟨4294968272, domainP⟩⟩ := by decide +kernel

/-- R215: two fields in one point are accepted. -/
theorem test_pset : (after (.pset 3 2 0) small).pval 3 = some ⟨⟨17, 23⟩, ⟨17, 859⟩⟩ := by decide +kernel

/-- R216 worked example: the host's view of `x.v` word 0 and `x.m` word 1. -/
theorem test_pgen :
    peek (after (.pgen 0) small) 0x400 = some 0x16F81798#32 ∧ peek (after (.pgen 0) small) 0x424 = some 0xFFFFFFFE#32 :=
  by decide +kernel

/-- R217, R218. -/
theorem test_pinf : (after (.pinf 3) small).pval 3 = some ⟨⟨0, domainP⟩, ⟨0, domainP⟩⟩ := by decide +kernel
theorem test_pmov : (after (.pmov 2 0) small).pval 2 = some ⟨⟨1, 23⟩, ⟨10, 23⟩⟩ := by decide +kernel

/-- R219, R220: the two coordinates are told apart, modulus included. -/
theorem test_pgetx : (after (.pgetx 5 2) small).fval 5 = some ⟨1, 23⟩ := by decide +kernel
theorem test_pgety : (after (.pgety 6 2) small).fval 6 = some ⟨10, 859⟩ := by decide +kernel

/-- D-PT-17: two identities over different fields are not equal. -/
theorem test_peq :
    stat (after (.peq 0 0) small) = 0x00000008#32 ∧ peq pointInf ⟨⟨0, 23⟩, ⟨0, 23⟩⟩ = false := by decide +kernel

/-- D-PT-18, and source vector 1. -/
theorem test_pdbl : (after (.pdbl 3 0) small).pval 3 = some ⟨⟨22, 23⟩, ⟨11, 23⟩⟩ := by decide +kernel
theorem test_pdbl_generator : (after (.pdbl 1 0) curveState).pval 1 = curveState.pval 3 := by decide +kernel

/-- D-PT-19, and source vector 2. -/
theorem test_padd : (after (.padd 3 0 1) small).pval 3 = some ⟨⟨8, 23⟩, ⟨17, 23⟩⟩ := by decide +kernel
theorem test_padd_generator :
    (after (.padd 2 0 3) curveState).pval 2 =
      some ⟨⟨0xF9308A019258C31049344F85F89D5229B531C845836F99B08601F113BCE036F9#256, domainP⟩,
        ⟨0x388F7B0F632DE8140FE337E62A37F3566500A99934C2231B6CB9FD7584B8E672#256, domainP⟩⟩ := by decide +kernel

/-- D-PM-4: 3G; D-PM-13: a scalar 1 on an off-curve point with `x = 0` gives INF. -/
theorem test_pmul :
    (after (.pmul 2 0 0) curveState).pval 2 =
      some ⟨⟨0xF9308A019258C31049344F85F89D5229B531C845836F99B08601F113BCE036F9#256, domainP⟩,
        ⟨0x388F7B0F632DE8140FE337E62A37F3566500A99934C2231B6CB9FD7584B8E672#256, domainP⟩⟩ ∧
    (after (.pmul 3 2 4) curveState).pval 3 = some pointInf := by decide +kernel

/-- D-PM-11: CurveMismatch, also for the scalar 0. -/
theorem test_pmul_mismatch : stat (after (.pmul 0 0 0) small2) = 0x00000301#32 := by decide +kernel

/-! ## Steps -/

theorem test_step_runs_fetched_word :
    step (State.reset.withFetchWord 32 0x32000000) = exec (.pgen 0) State.reset := rfl

/-- 2.11: from reset, an illegal word, and FADD with invalid sources. -/
theorem test_step_faults :
    step (State.reset.withFetchWord 32 0x18801000) = .next (withError State.reset 6 0x18801000#32) ∧
    step (State.reset.withFetchWord 32 0x18201000) = .next (withError State.reset 7 0x18201000#32) := ⟨rfl, rfl⟩

/-- 2.2: reads after reset. -/
theorem test_host_reads :
    peek State.reset 0x00C = some 0x00000208#32 ∧ peek State.reset 0x600 = some 0xFFFFFC2F#32 ∧
    peek State.reset 0x63C = some 0x79BE667E#32 ∧ peek State.reset 0x640 = some 0xFB10D4B8#32 ∧
    peek State.reset 0x7FC = some 0 ∧ peek State.reset 0x100 = none := by decide +kernel

/-- 2.2: one word of eight written leaves S1 invalid. -/
theorem test_host_write :
    peek (setSWord State.reset 1 0 5) 0x120 = some 5 ∧ svalidWord (setSWord State.reset 1 0 5) = 0 := by decide +kernel

/-- R90, R91: a line of program 2 with its comment, R91's assembly error, and a curve command at `W = 64`. -/
theorem test_assembler :
    assemble .thisHardware "PADD P2, P0, P1 ; 3G".toList = some [.command (.padd 2 0 1)] ∧
    assemble .thisHardware "FADD F0, S1, F2".toList = none ∧
    assemble cfg64 "PGEN P0".toList = some [.command (.pgen 0)] := by decide +kernel

/-- R92, 10_state.md R32: CMD is a control register and reads 0; a constant register; the bound of HWRITE. -/
theorem test_assembler_reads :
    assemble .thisHardware "HREAD CMD\nHREAD Gx".toList = some [.hread (.control .cmd), .hread (.constant .gx)] ∧
    hostReadRegister .thisHardware (.control .cmd) = [.read 0x000 4] ∧
    (Expectation.control .cmd 0).holds State.reset = true ∧
    (Expectation.constant .gx domainGx).holds State.reset = true ∧
    assemble cfg64 "HWRITE S0, 0x10000000000000000".toList = none := by decide +kernel

/-- Values as the listings of 95_test_vectors.md write them (program 1: `F2 = (7, 859)`). A value that does not fit
STATUS, a wrong number of fields and a stray parenthesis are no lines (log entry 15). An invalid register meets no
expectation. -/
theorem test_assembler_expect :
    assemble .thisHardware "EXPECT F2 = (7, 859)\nEXPECT P1 = ((1, 23), (10, 859))".toList =
      some [.expect (.f 2 ⟨7, 859⟩), .expect (.p 1 ⟨⟨1, 23⟩, ⟨10, 859⟩⟩)] ∧
    ["EXPECT STATUS = 0x100000203", "EXPECT F2 = 7, 859", "EXPECT S1 = 1, 2", "EXPECT S1 = 1(7",
      "EXPECT F2 = ((7), 859)"].all (fun l => (assemble .thisHardware l.toList).isNone) = true ∧
    (Expectation.f 0 ⟨17, 859⟩).holds small = true ∧ (Expectation.f 0 ⟨17, 23⟩).holds small = false ∧
    (Expectation.f 7 ⟨0, 0⟩).holds small = false := by decide +kernel

/-! ## The invariant, checked -/

/-- `ElementInv` as a check; the verdict on `p` is a law and is not evaluated again. -/
def elementOk (c : Cfg) (a : FieldElement) : Bool :=
  a.v.toNat < a.m.toNat && (a.m = domainP || isPrime a.m.toNat) && a.m.toNat < 2 ^ c.W

theorem elementInv_of_ok {c : Cfg} {a : FieldElement} (h : elementOk c a = true) : ElementInv c a := by
  simp only [elementOk, Bool.and_eq_true, Bool.or_eq_true, decide_eq_true_eq] at h
  refine ⟨h.1.1, ?_, h.2⟩
  rcases h.1.2 with h' | h'
  · rw [h']; exact isPrime_domainP
  · exact h'

def pointOk (c : Cfg) (P : Point) : Bool := elementOk c P.x && elementOk c P.y

def stateOk (s : State) : Bool :=
  (List.finRange 8).all (fun i => (s.fval i).all (elementOk s.cfg)) &&
  (List.finRange 4).all (fun i => (s.pval i).all (pointOk s.cfg) && (s.cfg.hasCurve || (s.pval i).isNone)) &&
  (List.finRange 8).all (fun i => (List.finRange 8).all fun j => j.val < s.cfg.NW || (s.sregs[i].words[j]).isNone) &&
  (if s.status.err then [1, 2, 3, 5, 6, 7].contains s.status.ecode.toNat
   else !s.status.drop && s.status.ecode = 0 && s.ecmd = 0)

theorem machineInv_of_ok {s : State} (h : stateOk s = true) : MachineInv s := by
  simp only [stateOk, Bool.and_eq_true, List.all_eq_true, List.mem_finRange, true_implies, Bool.or_eq_true,
    decide_eq_true_eq, Option.isNone_iff_eq_none] at h
  obtain ⟨⟨⟨hf, hp⟩, hw⟩, hs⟩ := h
  refine ⟨fun i a ha => ?_, fun i P hP => ?_, fun i j hj => ?_, fun hc i => ?_, fun he => ?_, fun he => ?_⟩
  · have := hf i; rw [ha] at this; exact elementInv_of_ok this
  · have := (hp i).1; rw [hP] at this
    simp only [Option.all_some, pointOk, Bool.and_eq_true] at this
    exact ⟨elementInv_of_ok this.1, elementInv_of_ok this.2⟩
  · rcases hw i j with h | h
    · omega
    · exact h
  · rcases (hp i).2 with h | h
    · rw [hc] at h; cases h
    · exact h
  · rw [he] at hs; simpa [and_assoc] using hs
  · rw [he] at hs
    simp only [if_true, List.contains_eq_mem, decide_eq_true_eq, List.mem_cons, List.not_mem_nil, or_false] at hs
    rcases hs with h | h | h | h | h | h
    · exact ⟨.notPrime, by decide, BitVec.eq_of_toNat_eq h⟩
    · exact ⟨.fieldMismatch, by decide, BitVec.eq_of_toNat_eq h⟩
    · exact ⟨.curveMismatch, by decide, BitVec.eq_of_toNat_eq h⟩
    · exact ⟨.notInvertible, by decide, BitVec.eq_of_toNat_eq h⟩
    · exact ⟨.illegalCommand, by decide, BitVec.eq_of_toNat_eq h⟩
    · exact ⟨.uninit, by decide, BitVec.eq_of_toNat_eq h⟩

theorem inv_small : MachineInv small := machineInv_of_ok (by decide +kernel)
theorem inv_small2 : MachineInv small2 := machineInv_of_ok (by decide +kernel)
theorem inv_small3 : MachineInv small3 := machineInv_of_ok (by decide +kernel)
theorem inv_curveState : MachineInv curveState := machineInv_of_ok (by decide +kernel)
theorem inv_state64 : MachineInv state64 := machineInv_of_ok (by decide +kernel)
theorem inv_faulted : MachineInv faulted := machineInv_of_ok (by decide +kernel)

theorem running_small : Running small := rfl
theorem running_curveState : Running curveState := rfl
theorem not_running_faulted : ¬Running faulted := fun h => Bool.noConfusion h

/-! ## Witnesses: states and operands that meet the hypotheses of the statements, clause by clause -/

theorem witness_NopChangesNothing : Running small ∧ ¬Running faulted := ⟨rfl, not_running_faulted⟩

theorem witness_ClrerrLeavesTheFaultState :
    (MachineInv small ∧ Running small) ∧ statusWord faulted.status = 0x00000203#32 ∧
    statusWord (setPrime faulted true).status = 0x00000207#32 := ⟨⟨inv_small, rfl⟩, by decide, by decide⟩

theorem witness_SrstAndResetPutTheResetState : State.reset.cfg = .thisHardware := rfl

theorem witness_IsprimeWritesItsVerdict : Running small ∧ small.sval 2 = some 21 := by decide +kernel

theorem witness_TrivialPrimalityCases :
    (1 : Nat) < 2 ∧ (4 ∉ [2, 3, 5] ∧ 4 % 2 = 0) ∧ ¬7 < 2 ∧ 7 ∉ [2, 3, 5] ∧ ¬7 % 2 = 0 := by decide

theorem witness_WitnessLoopDecidesStrongProbablePrimes :
    (7 ≤ 7 ∧ 7 % 2 = 1 ∧ 7 - 1 = 2 ^ 1 * 3 ∧ 3 % 2 = 1) ∧ 7 ≤ 21 ∧ 21 % 2 = 1 ∧ 21 - 1 = 2 ^ 2 * 5 ∧ 5 % 2 = 1 ∧
    2 ≤ clog10 21 + 2 ∧ 21 ≤ 10 ^ 2 := by
  decide

theorem witness_EveryPrimeIsAccepted : Nat.Prime 2 ∧ Nat.Prime 859 ∧ Nat.Prime domainP.toNat :=
  ⟨by norm_num, by norm_num, prime_domainP⟩

theorem witness_FnewReducesOrRaisesNotPrime :
    Running small ∧ small.sval 0 = some 7871238 ∧ (small.sval 1 = some 23 ∧ isPrime 23 = true) ∧
    small.sval 2 = some 21 ∧ isPrime 21 = false := by decide +kernel

theorem witness_FieldCopiesAndConstants : Running small ∧ small.fval 4 = some ⟨1, 2⟩ := by decide

theorem witness_FeqComparesValueAndModulus :
    Running small ∧ small.fval 5 = some ⟨7, 23⟩ ∧ small.fval 6 = some ⟨7, 859⟩ := by decide

theorem witness_FaddAddsModuloM :
    MachineInv state64 ∧ Running state64 ∧
    state64.fval 0 = some ⟨18446744073709551556, 18446744073709551557⟩ ∧
    state64.fval 1 = some ⟨18446744073709551556, 18446744073709551557⟩ := ⟨inv_state64, by decide⟩

theorem witness_FsubSubtractsModuloM :
    MachineInv small ∧ Running small ∧ small.fval 6 = some ⟨7, 859⟩ ∧ small.fval 1 = some ⟨849, 859⟩ :=
  ⟨inv_small, by decide⟩

theorem witness_FmulAndFsqrMultiplyModuloM :
    Running small ∧ small.fval 0 = some ⟨17, 859⟩ ∧ small.fval 1 = some ⟨849, 859⟩ := by decide

theorem witness_FexpRaisesToTheReducedExponent :
    MachineInv small ∧ Running small ∧ small.fval 5 = some ⟨7, 23⟩ ∧ (small.sval 3 = some 5 ∧ 5 % (23 - 1) ≠ 0) ∧
    small.sval 4 = some 22 ∧ 22 % (23 - 1) = 0 := ⟨inv_small, by decide +kernel⟩

theorem witness_FinvInvertsNonzeroElements :
    MachineInv small ∧ Running small ∧ (small.fval 4 = some ⟨1, 2⟩ ∧ (1 : WideInt) ≠ 0) ∧
    small.fval 2 = some ⟨17, 23⟩ ∧ (17 : WideInt) ≠ 0 ∧ Nat.Prime 23 ∧ 3 ≤ 23 :=
  ⟨inv_small, by decide, by decide, by decide, by decide, by norm_num, by decide⟩

theorem witness_FdivDividesWithinOneField :
    MachineInv small ∧ Running small ∧ (small.fval 0 = some ⟨17, 859⟩ ∧ small.fval 1 = some ⟨849, 859⟩) ∧
    (849 : WideInt) ≠ 0 ∧ Nat.Prime 859 ∧ 3 ≤ 859 :=
  ⟨inv_small, by decide, by decide, by decide, by norm_num, by decide⟩

theorem witness_FieldErrorsAreRaised :
    Running small ∧ (small.fval 0 = some ⟨17, 859⟩ ∧ small.fval 2 = some ⟨17, 23⟩ ∧ (859 : WideInt) ≠ 23) ∧
    small.fval 3 = some ⟨0, 859⟩ := by decide

theorem witness_OverflowDetectingPrimitives : 2 ^ 64 - 1 < 2 ^ 64 ∧ 1 < 2 ^ 64 := by decide

theorem witness_ModularAdditionIsExact :
    (2 ≤ 2 ∧ 2 ≤ 2 ^ 64 - 1) ∧ 2 ≤ 2 ^ 64 - 59 ∧ 2 ^ 64 - 59 ≤ 2 ^ 64 - 1 ∧ 2 ^ 64 - 60 ≤ 2 ^ 64 - 59 ∧
    (oadd 64 (2 ^ 64 - 60) (2 ^ 64 - 60)).2 = true := by decide

theorem witness_SubtractionAddsTheAdditiveInverse :
    (0 < 2 ^ 64 - 59 ∧ 2 ^ 64 - 59 < 2 ^ 64) ∧ ElementInv .thisHardware ⟨7, 859⟩ ∧
    ElementInv .thisHardware ⟨849, 859⟩ :=
  ⟨by decide, elementInv_of_ok (by decide +kernel), elementInv_of_ok (by decide +kernel)⟩

theorem witness_MultiplierLoopComputesProduct :
    (2 ≤ 2 ∧ 2 < 2 ^ 2 ∧ 1 < 2) ∧ 2 ≤ 859 ∧ 859 < 2 ^ 64 ∧ 17 < 859 ∧ 849 < 859 ∧ 64 ≤ 64 := by decide

theorem witness_ExponentiationComputesReducedPower :
    2 ≤ 23 ∧ 23 < 2 ^ Cfg.thisHardware.W ∧ 7 < 23 ∧ 0 < 23 ∧ 27 % (23 - 1) ≠ 0 ∧ 44 % (23 - 1) = 0 ∧ 0 < 44 ∧
    Nat.Prime 23 :=
  ⟨by decide, by decide, by decide, by decide, by decide, by decide, by decide, by norm_num⟩

theorem witness_FieldResultsDoNotDependOnWidth :
    cfg64.width = .w64 ∧ Cfg.thisHardware.width = .w256 ∧ cfg64.exp0 = Cfg.thisHardware.exp0 ∧
    ElementInv cfg64 ⟨17, 859⟩ ∧ ElementInv cfg64 ⟨849, 859⟩ :=
  ⟨rfl, rfl, rfl, elementInv_of_ok (by decide +kernel), elementInv_of_ok (by decide +kernel)⟩

theorem witness_PnewReducesModuloDomainPrime :
    Running curveState ∧ curveState.cfg.hasCurve = true ∧ curveState.sval 1 = some domainP ∧
    curveState.sval 2 = some (BitVec.allOnes 256) := by decide +kernel

theorem witness_PsetPgenPinfConstruct :
    Running small ∧ small.cfg.hasCurve = true ∧ small.fval 2 = some ⟨17, 23⟩ ∧ small.fval 0 = some ⟨17, 859⟩ := by decide

theorem witness_PointCopiesAndCoordinates :
    Running small ∧ small.cfg.hasCurve = true ∧ small.pval 2 = some ⟨⟨1, 23⟩, ⟨10, 859⟩⟩ := by decide

theorem witness_PeqComparesAllFourIntegers :
    Running small ∧ small.cfg.hasCurve = true ∧ small.pval 0 = some ⟨⟨1, 23⟩, ⟨10, 23⟩⟩ ∧
    small.pval 2 = some ⟨⟨1, 23⟩, ⟨10, 859⟩⟩ := by decide

theorem witness_PdblDoubles :
    (MachineInv small2 ∧ Running small2 ∧ small2.cfg.hasCurve = true ∧ small2.pval 0 = some ⟨⟨9, 23⟩, ⟨0, 23⟩⟩) ∧
    MachineInv small ∧ Running small ∧ small.cfg.hasCurve = true ∧ small.pval 0 = some ⟨⟨1, 23⟩, ⟨10, 23⟩⟩ ∧
    (10 : WideInt) ≠ 0 ∧ (23 : WideInt) ≠ 2 := ⟨⟨inv_small2, by decide⟩, inv_small, by decide⟩

theorem witness_PdblRaisesItsErrors :
    MachineInv small ∧ Running small ∧ small.cfg.hasCurve = true ∧
    (small.pval 2 = some ⟨⟨1, 23⟩, ⟨10, 859⟩⟩ ∧ (10 : WideInt) ≠ 0 ∧ (23 : WideInt) ≠ 859) ∧
    (small.pval 3 = some ⟨⟨1, 2⟩, ⟨1, 2⟩⟩ ∧ (1 : WideInt) ≠ 0 ∧ 2 * 1 % 2 = 0) ∧
    small.pval 0 = some ⟨⟨1, 23⟩, ⟨10, 23⟩⟩ ∧ 2 * 10 % 23 ≠ 0 := ⟨inv_small, by decide⟩

theorem witness_PaddAdds :
    (MachineInv small ∧ Running small ∧ small.cfg.hasCurve = true ∧
      (small.pval 0 = some ⟨⟨1, 23⟩, ⟨10, 23⟩⟩ ∧
        (pdbl small.cfg ⟨⟨1, 23⟩, ⟨10, 23⟩⟩).toOption = some ⟨⟨22, 23⟩, ⟨11, 23⟩⟩) ∧
      small.pval 1 = some ⟨⟨4, 23⟩, ⟨5, 23⟩⟩) ∧
    (MachineInv small2 ∧ Running small2 ∧ small2.cfg.hasCurve = true ∧
      small2.pval 2 = some ⟨⟨1, 23⟩, ⟨13, 23⟩⟩ ∧ small2.pval 3 = some ⟨⟨1, 23⟩, ⟨10, 23⟩⟩ ∧
      small2.pval 1 = some ⟨⟨0, 23⟩, ⟨0, 23⟩⟩) :=
  ⟨⟨inv_small, by decide +kernel⟩, inv_small2, by decide⟩

theorem witness_PaddRaisesItsErrors :
    (MachineInv small ∧ small.pval 3 = some ⟨⟨1, 2⟩, ⟨1, 2⟩⟩ ∧
      (match pdbl small.cfg ⟨⟨1, 2⟩, ⟨1, 2⟩⟩ with
       | .error k => k = .notInvertible
       | .ok _ => False)) ∧
    MachineInv small3 ∧ Running small3 ∧ small3.cfg.hasCurve = true ∧
    small3.pval 0 = some ⟨⟨1, 23⟩, ⟨10, 23⟩⟩ ∧ small3.pval 1 = some ⟨⟨4, 859⟩, ⟨5, 859⟩⟩ :=
  ⟨⟨inv_small, by decide, rfl⟩, inv_small3, by decide⟩

/-- `((0, p), (5, p))`, `((0, 23), (0, 23))`, `G`, `-G` and `((9, 23), (0, 23))` stand for the clauses. -/
theorem witness_AdditionCornerCases :
    (pointG.x.v ≠ 0 ∧ pointG.y ≠ ⟨domainP - domainGy, domainP⟩) ∧
    ((⟨0, domainP⟩ : FieldElement) = ⟨0, domainP⟩ ∧ (5 : WideInt) ≠ 0) ∧ (23 : WideInt) ≠ domainP := by decide

theorem witness_PmulCompletesExactlyOverTheDomainPrime :
    (MachineInv small ∧ Running small ∧ small.cfg.hasCurve = true ∧ small.pval 2 = some ⟨⟨1, 23⟩, ⟨10, 859⟩⟩ ∧
      small.sval 3 = some 5 ∧ (23 : WideInt) ≠ domainP) ∧
    MachineInv curveState ∧ Running curveState ∧ curveState.cfg.hasCurve = true ∧
    curveState.pval 2 = some ⟨⟨0, domainP⟩, ⟨5, domainP⟩⟩ ∧ curveState.pval 1 = some pointInf ∧
    curveState.sval 3 = some 0 ∧ curveState.sval 4 = some 1 ∧ curveState.sval 5 = some 2 :=
  ⟨⟨inv_small, by decide +kernel⟩, inv_curveState, by decide +kernel⟩

/-- The generator is a point of the curve. -/
theorem generator_nonsingular :
    secpCurve.Nonsingular (domainGx.toNat : ZMod domainP.toNat) (domainGy.toNat : ZMod domainP.toNat) := by
  have heq : ((domainGy.toNat ^ 2 : ℕ) : ZMod domainP.toNat) = ((domainGx.toNat ^ 3 + 7 : ℕ) : ZMod domainP.toNat) :=
    (ZMod.natCast_eq_natCast_iff' _ _ _).2 (by decide +kernel)
  have hne : ((2 * domainGy.toNat : ℕ) : ZMod domainP.toNat) ≠ ((0 : ℕ) : ZMod domainP.toNat) := by
    rw [Ne, ZMod.natCast_eq_natCast_iff']; decide +kernel
  push_cast at heq hne
  rw [WeierstrassCurve.Affine.nonsingular_iff, WeierstrassCurve.Affine.equation_iff]
  simp only [secpCurve]
  refine ⟨by linear_combination heq, .inr fun h => hne ?_⟩
  linear_combination h

theorem witness_PointAdditionIsTheGroupLaw :
    domainP.toNat.Prime ∧ Cfg.thisHardware.hasCurve = true ∧
    (∃ X : secpCurve.Point, Represents pointG X) ∧ Represents pointInf WeierstrassCurve.Affine.Point.zero :=
  ⟨prime_domainP, rfl, ⟨.some _ _ generator_nonsingular, rfl, rfl, by decide, by decide, rfl, rfl⟩, rfl⟩

theorem witness_ScalarMultiplicationIsTheGroupMultiple :
    domainP.toNat.Prime ∧ Running curveState ∧ curveState.cfg.hasCurve = true ∧ curveState.pval 0 = some pointG ∧
    curveState.sval 2 = some (BitVec.allOnes 256) ∧ ∃ X : secpCurve.Point, Represents pointG X :=
  ⟨prime_domainP, rfl, rfl, rfl, by decide +kernel, witness_PointAdditionIsTheGroupLaw.2.2.1⟩

theorem witness_CommandsAreDroppedWhileFaulted :
    ¬Running faulted ∧ (0x03000000#32 ≠ 0x01000000#32 ∧ 0x03000000#32 ≠ 0x02000000#32) ∧
    peek faulted 0x004 = some 0x00000203#32 ∧ (7 : Fin 8).val < faulted.cfg.NW := by decide

theorem witness_IllegalWordsRaiseIllegalCommand :
    Running small ∧ (decode small.cfg 0x18801000#32).toOption = none ∧
    (decode small.cfg 0x18201000#32).toOption = some (.fadd 2 0 1) := by decide

theorem witness_InvalidSourcesRaiseUninit :
    Running small ∧ (Instr.fadd 2 0 7).wellFormed small.cfg = true ∧ sourcesValid small (.fadd 2 0 7) = false ∧
    sourcesValid small (.fadd 7 0 1) = true := by decide

theorem witness_ErrorsArePrecise :
    (executeWord 0x10702000#32 small = .next (withError small 1 0x10702000#32) ∧ Running small ∧
      (withError small 1 0x10702000#32).status.err = true ∧ MachineInv small) ∧
    executeWord 0 faulted = .next (withDrop faulted) ∧ ¬Running faulted ∧ (0 : Word32) ≠ 0x01000000#32 ∧
    (0 : Word32) ≠ 0x02000000#32 :=
  ⟨⟨rfl, rfl, rfl, inv_small⟩, rfl, not_running_faulted, by decide, by decide⟩

theorem witness_CommandsRaiseOnlyTheirErrors :
    (MachineInv small ∧ Running small ∧ exec (.fadd 7 0 2) small = .next (withError small 2 0x18702000#32) ∧
      (Instr.fadd 7 0 2).wellFormed small.cfg = true ∧ (withError small 2 0x18702000#32).status.err = true) ∧
    MachineInv state64 ∧ Running state64 ∧ exec (.pgen 0) state64 = .next (withError state64 6 0x32000000#32) ∧
    (Instr.pgen 0).wellFormed state64.cfg = false :=
  ⟨⟨inv_small, rfl, rfl, rfl, rfl⟩, inv_state64, rfl, rfl, rfl⟩

theorem witness_StepRunsTheDecodedCommand :
    (State.reset.withFetchWord 32 0x18201000).pending = .write 0x000 4 0x18201000#32 :: [] ∧
    (decode Cfg.thisHardware 0x18201000#32).toOption = some (.fadd 2 0 1) := by decide

/-! A step on `small` with one transaction waiting. -/

def waiting (t : Transaction) : State := { small with pending := [t] }

theorem inv_waiting (t : Transaction) : MachineInv (waiting t) := by
  obtain ⟨h1, h2, h3, h4, h5, h6⟩ := inv_small
  exact ⟨h1, h2, h3, h4, h5, h6⟩

theorem witness_FieldWritersFrame :
    destination (.fadd 2 0 1) = .f 2 ∧
    exec (.fadd 2 0 1) small = .next { small with fregs := small.fregs.set 2 (some ⟨7, 859⟩) } ∧
    (∀ part j, locate small.cfg 0x100 ≠ .fWord 2 part j) ∧ locate small.cfg 0x100 ∉ [.fvalid, .status, .ecmd] :=
  ⟨rfl, rfl, fun _ _ h => Location.noConfusion h, by decide⟩

theorem witness_PointWritersFrame :
    destination (.pinf 3) = .p 3 ∧
    exec (.pinf 3) small = .next { small with pregs := small.pregs.set 3 (some pointInf) } ∧
    (∀ part j, locate small.cfg 0x57C ≠ .pWord 3 part j) ∧ locate small.cfg 0x57C ∉ [.pvalid, .status, .ecmd] :=
  ⟨rfl, rfl, fun _ _ h => absurd (Location.pWord.inj h).1 (by decide), by decide⟩

theorem witness_FlagWritersFrame :
    (destination (.feq 0 0) ∈ [.nothing, .prime, .eq, .faultState] ∧ destination (.feq 0 0) ≠ .prime ∧
      exec (.feq 0 0) small = .next (setEq small true) ∧ locate small.cfg 0x010 ∉ [.status, .ecmd]) ∧
    destination (.isprime 1) ∈ [.nothing, .prime, .eq, .faultState] ∧ destination (.isprime 1) ≠ .eq ∧
    exec (.isprime 1) small = .next (setPrime small true) :=
  ⟨⟨by decide, by decide, rfl, by decide⟩, by decide, by decide, rfl⟩

theorem witness_DecodeInvertsEncode :
    (Instr.pmul 3 3 7).wellFormed .thisHardware = true ∧ (Instr.fdiv 7 0 7).wellFormed cfg64 = true := by decide

theorem witness_EncodeInvertsDecode : decode cfg64 0x1E707000#32 = .ok (.fdiv 7 0 7) := rfl

theorem witness_DecodeMatchesOpcodeTable :
    (∃ r ∈ opcodeTable, r.covers 0x3A307000#32 = true) ∧ decodeRow 0x3A307000#32 = .ok (.pmul 3 0 7) :=
  ⟨by decide, rfl⟩

theorem witness_PseudoInstructionsDoubleAndNegate :
    MachineInv small ∧ Running small ∧ small.fval 1 = some ⟨849, 859⟩ ∧ small.fval 3 = some ⟨0, 859⟩ ∧
    (7 : FIdx) ≠ 1 := ⟨inv_small, by decide⟩

theorem witness_StepKeepsElementsReducedAndAccepted :
    (∀ i a, small.fval i = some a → a.v < a.m ∧ isPrime a.m.toNat = true) ∧
    step (waiting (hostIssue 0x18201000#32)) =
      .next { small with fregs := small.fregs.set 2 (some ⟨7, 859⟩) } :=
  ⟨fun i a h => ⟨BitVec.lt_def.2 (inv_small.fields i a h).1, (inv_small.fields i a h).2.1⟩, rfl⟩

theorem witness_StepKeepsMachineInvariant :
    MachineInv (waiting (hostIssue 0x18702000#32)) ∧
    step (waiting (hostIssue 0x18702000#32)) = .next (withError small 2 0x18702000#32) := ⟨inv_waiting _, rfl⟩

/-- The ends of the two unmapped ranges, of the P file and of the constants. -/
theorem witness_AddressMapIsExact :
    (mapped .thisHardware (.pWord 3 .ym 7) ∧ addressOf (.pWord 3 .ym 7) = 0x5FC ∧
      mapped cfg64 (.fWord 7 .m 1) ∧ addressOf (.fWord 7 .m 1) = 0x3E4) ∧
    [0x01C, 0x0FC, 0x660, 0x7FC, 0x400, 0x65C].all (fun a => admitted a 4) = true ∧ cfg64.hasCurve = false :=
  ⟨⟨⟨rfl, by decide⟩, rfl, (by decide : 1 < 2), rfl⟩, by decide, rfl⟩

/-- Misaligned, narrow, and just outside. -/
theorem witness_AccessesNotAdmittedAreRefused :
    [(0x102, 4), (0x100, 2), (0x800, 4)].all (fun x => decide ¬(x.2 = 4 ∧ x.1 % 4 = 0 ∧ x.1 ≤ 0x7FF)) = true ∧
    (waiting (.read 0x102 4)).pending = [.read 0x102 4] := by decide

/-- The last word of S7; and SRST, issued by a write to CMD, clears a mask bit. -/
theorem witness_ScalarWritesSetOneWord :
    ((7 : Fin 8).val < small.cfg.NW ∧ (0x1FC : Nat) = 0x100 + 0x20 * (7 : Fin 8).val + 4 * (7 : Fin 8).val ∧
      (waiting (.write 0x1FC 4 9)).pending = .write 0x1FC 4 9 :: []) ∧
    ∃ t, step (waiting (.write 0x000 4 0x02000000#32)) = .next t ∧
      ((waiting (.write 0x000 4 0x02000000#32)).sregs[0].words[7]).isSome ∧ t.sregs[0].words[7] = none :=
  ⟨by decide, _, rfl, by decide, by decide⟩

/-- Most significant word first at `W = 64`. -/
theorem witness_HostWriteSInAnyOrder :
    (12345678901234567890#256).toNat < 2 ^ cfg64.W ∧
    [Transaction.write 0x144 4 0xAB54A98C#32, .write 0x140 4 0xEB1F0AD2#32].Perm
      (hostWriteS cfg64 2 12345678901234567890#256) := ⟨by decide, by decide⟩

theorem witness_HostReadsReturnTheWord :
    (mapped small.cfg (.fWord 1 .m 0) ∧ addressOf (.fWord 1 .m 0) = 0x260 ∧
      viewWord small (.fWord 1 .m 0) = some 859) ∧
    (mapped small.cfg (.pWord 3 .ym 7) ∧ viewWord small (.pWord 3 .ym 7) = some 0) ∧
    (mapped small.cfg (.sWord 0 0) ∧ small.sval 0 = some 7871238 ∧ viewWord small (.sWord 0 0) = some 7871238) ∧
    (mapped small.cfg (.sWord 5 0) ∧ viewWord small (.sWord 5 0) = none) ∧
    (waiting (.read 0x260 4)).pending = [.read 0x260 4] :=
  have h0 : 0 < 8 := by decide
  ⟨⟨h0, rfl, by decide⟩, ⟨⟨rfl, by decide⟩, by decide⟩, ⟨h0, by decide, by decide⟩, ⟨h0, by decide⟩, rfl⟩

/-- CMD, an unmapped word and a read-only word; word 2 of a slot and the end of the constants at `W = 64`. -/
theorem witness_UnmappedAndReadOnlyWords :
    (locate small.cfg 0x000 = .cmd ∧ locate small.cfg 0x01C = .unmapped ∧ locate small.cfg 0x004 = .status) ∧
    [0x000, 0x01C, 0x004].all (fun a => admitted a 4) = true ∧
    cfg64.width = .w64 ∧ 2 ≤ 0x108 % 0x20 / 4 ∧ 2 ≤ 0x65C % 0x20 / 4 := by decide

theorem witness_ControlRegisterViews :
    small.cfg.hasCurve = true ∧ state64.cfg.hasCurve = false ∧ pvalidWord small = 0x0000000F#32 := by decide

end Sys2Proof.Tests
end

/-! 00_scope.md R8 for the field functions: on elements that meet `ElementInv` at two configurations with the
same `EXP0`, each function gives one result, because its value (`Laws/FieldEngine.lean`) does not mention `W`. -/

namespace Sys2Proof.Machine

/-! ## What the field functions answer on a mismatch and on zero, at every width -/

theorem fieldGuard_of_ne {a b : FieldElement} (h : a.m ≠ b.m) : fieldGuard a b = .error .fieldMismatch :=
  fieldGuard_error.2 ⟨h, rfl⟩

theorem fadd_of_ne (c : Cfg) {a b : FieldElement} (h : a.m ≠ b.m) : fadd c a b = .error .fieldMismatch := by
  simp only [fadd, fieldGuard_of_ne h, error_bind]

theorem fsub_of_ne (c : Cfg) {a b : FieldElement} (h : a.m ≠ b.m) : fsub c a b = .error .fieldMismatch := by
  simp only [fsub, fieldGuard_of_ne h, error_bind]

theorem finv_of_zero (c : Cfg) {a : FieldElement} (h : a.v = 0) : finv c a = .error .notInvertible :=
  if_pos h

/-! ## The invariant and the free value at two configurations -/

/-- An element of a configuration is one of every wider configuration. -/
theorem elementInv_of_width_le {c d : Cfg} {a : FieldElement} (hW : c.W ≤ d.W) (h : ElementInv c a) :
    ElementInv d a := by
  obtain ⟨hv, hp, hm⟩ := h
  exact ⟨hv, hp, hm.trans_le (Nat.pow_le_pow_right two_pos hW)⟩

theorem width_le_of_w64_of_w256 {c d : Cfg} (hc : c.width = .w64) (hd : d.width = .w256) : c.W ≤ d.W := by
  simp [Cfg.W, hc, hd]

theorem EXP0_congr {c d : Cfg} (h : c.exp0 = d.exp0) : c.EXP0 = d.EXP0 := by
  simp only [Cfg.EXP0, h]

/-! ## One result at both configurations -/

section TwoConfigurations

variable {c d : Cfg} {a b : FieldElement}

theorem fadd_congr_cfg (hac : ElementInv c a) (hbc : ElementInv c b) (had : ElementInv d a) (hbd : ElementInv d b) :
    fadd c a b = fadd d a b := by
  by_cases hm : a.m = b.m
  · rw [fadd_eq hac hbc hm, fadd_eq had hbd hm]
  · rw [fadd_of_ne c hm, fadd_of_ne d hm]

theorem fsub_congr_cfg (hac : ElementInv c a) (hbc : ElementInv c b) (had : ElementInv d a) (hbd : ElementInv d b) :
    fsub c a b = fsub d a b := by
  by_cases hm : a.m = b.m
  · rw [fsub_eq hac hbc hm, fsub_eq had hbd hm]
  · rw [fsub_of_ne c hm, fsub_of_ne d hm]

theorem fexp_congr_cfg (hx : c.exp0 = d.exp0) (hac : ElementInv c a) (had : ElementInv d a) (e : Nat) :
    fexp c a e = fexp d a e := by
  rw [fexp_eq hac, fexp_eq had, EXP0_congr hx]

theorem inverseValue_congr_cfg (hx : c.exp0 = d.exp0) (a : FieldElement) : inverseValue c a = inverseValue d a := by
  simp only [inverseValue, EXP0_congr hx]

theorem finv_congr_cfg (hx : c.exp0 = d.exp0) (hac : ElementInv c a) (had : ElementInv d a) :
    finv c a = finv d a := by
  by_cases h0 : a.v = 0
  · rw [finv_of_zero c h0, finv_of_zero d h0]
  · rw [finv_eq hac h0, finv_eq had h0, inverseValue_congr_cfg hx]

/-- Division reads the configuration only through the inverse of its divisor (45_field_exp.md R197). -/
theorem fdiv_congr_cfg (h : finv c b = finv d b) (a : FieldElement) : fdiv c a b = fdiv d a b := by
  simp only [fdiv, h]

end TwoConfigurations

end Sys2Proof.Machine

namespace Sys2Proof

open Machine

/-- Settles O24: elements that meet the invariant at 64 bits meet it at 256 bits, and there each function has the same
value or error. -/
theorem fieldResultsDoNotDependOnWidth : Obligations.FieldResultsDoNotDependOnWidth := by
  intro c d a b e hc hd hx ha hb
  have hW : c.W ≤ d.W := width_le_of_w64_of_w256 hc hd
  have ha' : ElementInv d a := elementInv_of_width_le hW ha
  have hb' : ElementInv d b := elementInv_of_width_le hW hb
  exact ⟨fadd_congr_cfg ha hb ha' hb', fsub_congr_cfg ha hb ha' hb', fexp_congr_cfg hx ha ha' e,
    finv_congr_cfg hx ha ha', fdiv_congr_cfg (finv_congr_cfg hx hb hb') a⟩

end Sys2Proof

/-! 10_state.md R25: the elements a command computes are reduced and keep to the moduli of its sources. The lemmas
leave open which moduli are meant, so that they serve R25 as it is stated and the machine's invariant, which bounds a
modulus by `2^W` too. -/

namespace Sys2Proof.Machine

/-! ## Computations that may raise an error -/

/-- Whatever the computation answers, when it answers at all, has the property. -/
def Answers {α : Type} (Q : α → Prop) (x : Except ErrorKind α) : Prop := ∀ a, x = .ok a → Q a

theorem answers_ok {α : Type} {Q : α → Prop} {a : α} (h : Q a) : Answers Q (.ok a) := by
  rintro _ ⟨⟩; exact h

theorem answers_error {α : Type} {Q : α → Prop} {k : ErrorKind} : Answers Q (.error k : Except ErrorKind α) := nofun

theorem answers_bind {α β : Type} {P : α → Prop} {Q : β → Prop} {x : Except ErrorKind α} {f : α → Except ErrorKind β}
    (hx : Answers P x) (hf : ∀ a, P a → Answers Q (f a)) : Answers Q (x >>= f) := by
  intro b h
  obtain ⟨a, ha, hb⟩ := bind_eq_ok.1 h
  exact hf a (hx a ha) b hb

/-! ## Elements and points over a set of moduli -/

/-- A reduced element whose modulus is one of `M`. -/
def ReducedOver (M : WideInt → Prop) (a : FieldElement) : Prop := a.v.toNat < a.m.toNat ∧ M a.m

/-- A point with both coordinates reduced and over moduli of `M`. -/
def PointOver (M : WideInt → Prop) (P : Point) : Prop := ReducedOver M P.x ∧ ReducedOver M P.y

theorem reducedOver_toWide {M : WideInt → Prop} {m : WideInt} {n : Nat} (hn : n < m.toNat) (hm : M m) :
    ReducedOver M ⟨toWide n, m⟩ :=
  ⟨by rwa [toWide, toNat_of_lt m hn], hm⟩

theorem pointOver_pointG {M : WideInt → Prop} (hp : M domainP) : PointOver M pointG :=
  ⟨⟨by decide, hp⟩, ⟨by decide, hp⟩⟩

theorem pointOver_pointInf {M : WideInt → Prop} (hp : M domainP) : PointOver M pointInf :=
  ⟨⟨by decide, hp⟩, ⟨by decide, hp⟩⟩

/-- FEMUX passes on or raises, and says nothing about the element computed behind it. -/
theorem answers_guarded {M : WideInt → Prop} {a b r : FieldElement} (hr : ReducedOver M r) :
    Answers (ReducedOver M) (fieldGuard a b >>= fun _ => .ok r) :=
  answers_bind (P := fun _ => True) (fun _ _ => trivial) fun _ _ => answers_ok hr

/-- FNEW reduces by the modulus it has accepted (42_field_construct.md R142). -/
theorem answers_fnew {M : WideInt → Prop} {v m : WideInt} (hm : isPrime m.toNat = true → M m) :
    Answers (ReducedOver M) (fnew v m) := by
  unfold fnew
  split
  · next h =>
    have := two_le_of_isPrime h
    exact answers_ok (reducedOver_toWide (Nat.mod_lt _ (by omega)) (hm h))
  · exact answers_error

section OverAcceptedModuli

variable {M : WideInt → Prop} {c : Cfg} {a b : FieldElement} {P Q : Point}
variable (hM : ∀ m, M m → isPrime m.toNat = true)
include hM

theorem two_le_of_reducedOver (h : ReducedOver M a) : 2 ≤ a.m.toNat := two_le_of_isPrime (hM _ h.2)

theorem reducedOver_of_remainder (h : ReducedOver M a) (n : Nat) : ReducedOver M ⟨toWide (n % a.m.toNat), a.m⟩ := by
  have := two_le_of_reducedOver hM h
  exact reducedOver_toWide (Nat.mod_lt _ (by omega)) h.2

theorem reducedOver_zero (h : ReducedOver M a) : ReducedOver M ⟨0, a.m⟩ := by
  have := two_le_of_reducedOver hM h
  exact ⟨by simp; omega, h.2⟩

theorem reducedOver_one (h : ReducedOver M a) : ReducedOver M ⟨1, a.m⟩ := by
  have := two_le_of_reducedOver hM h
  exact ⟨by simp; omega, h.2⟩

/-! ### The Prime Field Engine: each result is a remainder modulo the first operand's modulus -/

theorem answers_fadd (h : ReducedOver M a) : Answers (ReducedOver M) (fadd c a b) := by
  obtain ⟨n, hn⟩ := addMod_is_remainder c.W a.v.toNat b.v.toNat a.m.toNat
  simp only [fadd, hn]
  exact answers_guarded (reducedOver_of_remainder hM h n)

theorem answers_fsub (h : ReducedOver M a) : Answers (ReducedOver M) (fsub c a b) := by
  obtain ⟨n, hn⟩ := addMod_is_remainder c.W a.v.toNat (negRaw c.W b.v.toNat a.m.toNat) a.m.toNat
  simp only [fsub, hn]
  exact answers_guarded (reducedOver_of_remainder hM h n)

theorem answers_fmul (h : ReducedOver M a) : Answers (ReducedOver M) (fmul a b) :=
  answers_guarded (reducedOver_of_remainder hM h _)

theorem reducedOver_fexp (h : ReducedOver M a) (e : Nat) : ReducedOver M (fexp c a e) :=
  reducedOver_toWide (expMod_lt (two_le_of_reducedOver hM h)) h.2

theorem answers_finv (h : ReducedOver M a) : Answers (ReducedOver M) (finv c a) := by
  unfold finv
  split
  · exact answers_error
  · exact answers_ok (reducedOver_fexp hM h _)

theorem answers_fdiv (h : ReducedOver M a) : Answers (ReducedOver M) (fdiv c a b) :=
  answers_bind (P := fun _ => True) (fun _ _ => trivial) fun _ _ =>
    answers_bind (P := fun _ => True) (fun _ _ => trivial) fun _ _ => answers_fmul hM h

/-! ### The Curve Group Engine -/

/-- 47_point_dbl_add.md R230: the tangent's coordinates are differences that begin in the field of `x` or of the slope,
and the slope's field is that of `x`. -/
theorem answers_pdbl (hp : M domainP) (h : PointOver M P) : Answers (PointOver M) (pdbl c P) := by
  obtain ⟨hx, hy⟩ := h
  unfold pdbl
  split
  · exact answers_ok (pointOver_pointInf hp)
  · exact answers_bind (answers_fmul hM hx) fun _ hxx => answers_bind (answers_fadd hM hxx) fun _ h2 =>
      answers_bind (answers_fadd hM h2) fun _ hn => answers_bind (answers_fadd hM hy) fun _ _ =>
      answers_bind (answers_fdiv hM hn) fun _ hl => answers_bind (answers_fmul hM hl) fun _ hll =>
      answers_bind (answers_fsub hM hll) fun _ hu => answers_bind (answers_fsub hM hu) fun _ hx3 =>
      answers_bind (answers_fsub hM hx) fun _ _ => answers_bind (answers_fmul hM hl) fun _ hw =>
      answers_bind (answers_fsub hM hw) fun _ hy3 => answers_ok ⟨hx3, hy3⟩

/-- 47_point_dbl_add.md R232. -/
theorem answers_padd (hp : M domainP) (hP : PointOver M P) (hQ : PointOver M Q) :
    Answers (PointOver M) (padd c P Q) := by
  unfold padd
  split
  · split
    · exact answers_pdbl hM hp hP
    · exact answers_ok (pointOver_pointInf hp)
  split
  · exact answers_ok hQ
  split
  · exact answers_ok hP
  · obtain ⟨hx, hy⟩ := hP
    exact answers_bind (answers_fsub hM hy) fun _ hn => answers_bind (answers_fsub hM hx) fun _ _ =>
      answers_bind (answers_fdiv hM hn) fun _ hl => answers_bind (answers_fmul hM hl) fun _ hll =>
      answers_bind (answers_fsub hM hll) fun _ hu => answers_bind (answers_fsub hM hu) fun _ hx3 =>
      answers_bind (answers_fsub hM hx) fun _ _ => answers_bind (answers_fmul hM hl) fun _ hw =>
      answers_bind (answers_fsub hM hw) fun _ hy3 => answers_ok ⟨hx3, hy3⟩

theorem answers_pmulLoop (hp : M domainP) {n k : Nat} (hP : PointOver M P) (hQ : PointOver M Q) :
    Answers (PointOver M) (pmulLoop c n k P Q) := by
  induction n generalizing k P Q with
  | zero => exact answers_ok hP
  | succ n ih =>
    by_cases hk : k = 0
    · rw [pmulLoop, if_pos hk]; exact answers_ok hP
    · rw [pmulLoop_succ hk]
      have hacc : Answers (PointOver M) (if bitAt k 0 then padd c P Q else .ok P) := by
        split
        · exact answers_padd hM hp hP hQ
        · exact answers_ok hP
      exact answers_bind hacc fun _ hP' => answers_bind (answers_pdbl hM hp hQ) fun _ hQ' => ih hP' hQ'

theorem answers_pmul (hp : M domainP) {k : Nat} (hP : PointOver M P) : Answers (PointOver M) (pmul c P k) := by
  unfold pmul
  split
  · exact answers_error
  · exact answers_pmulLoop hM hp (pointOver_pointInf hp) hP

end OverAcceptedModuli

/-! ## The F and P files -/

/-- Every valid F register and both coordinates of every valid P register are reduced and over moduli of `M`. -/
def FilesOver (M : WideInt → Prop) (s : State) : Prop :=
  (∀ i a, s.fval i = some a → ReducedOver M a) ∧ ∀ i P, s.pval i = some P → PointOver M P

theorem filesOver_resetCore (M : WideInt → Prop) (s : State) : FilesOver M (resetCore s) :=
  ⟨fun i a h => by simp at h, fun i P h => by simp at h⟩

theorem filesOver_setF {M : WideInt → Prop} {s : State} {a : FieldElement} (h : FilesOver M s)
    (ha : ReducedOver M a) (rd : FIdx) : FilesOver M (setF s rd a) := by
  refine ⟨fun i b hb => ?_, h.2⟩
  rw [fval_setF] at hb
  split at hb
  · cases hb; exact ha
  · exact h.1 i b hb

theorem filesOver_setP {M : WideInt → Prop} {s : State} {P : Point} (h : FilesOver M s)
    (hP : PointOver M P) (rd : PIdx) : FilesOver M (setP s rd P) := by
  refine ⟨h.1, fun i Q hQ => ?_⟩
  rw [pval_setP] at hQ
  split at hQ
  · cases hQ; exact hP
  · exact h.2 i Q hQ

/-- The moduli a command run from `s` cannot leave: accepted ones, with every accepted value of the S file, which FNEW
may take, and with `p` where the configuration has the curve. -/
structure ModuliKept (M : WideInt → Prop) (s : State) : Prop where
  accepted : ∀ m, M m → isPrime m.toNat = true
  scalars : ∀ i m, s.sval i = some m → isPrime m.toNat = true → M m
  domain : s.cfg.hasCurve = true → M domainP

section Reads

variable {M : WideInt → Prop} {s : State}

theorem answers_readS (s : State) (i : SIdx) : Answers (fun n => s.sval i = some n) (readS s i) :=
  fun _ => readS_eq_ok.1

theorem answers_readF (h : FilesOver M s) (i : FIdx) : Answers (ReducedOver M) (readF s i) :=
  fun a ha => h.1 i a (readF_eq_ok.1 ha)

theorem answers_readP (h : FilesOver M s) (i : PIdx) : Answers (PointOver M) (readP s i) :=
  fun P hP => h.2 i P (readP_eq_ok.1 hP)

theorem answers_fieldOp1 (h : FilesOver M s) {rd ra : FIdx} {f : FieldElement → Except ErrorKind FieldElement}
    (hf : ∀ a, ReducedOver M a → Answers (ReducedOver M) (f a)) : Answers (FilesOver M) (fieldOp1 s rd ra f) :=
  answers_bind (answers_readF h ra) fun a ha => answers_bind (hf a ha) fun _ hr => answers_ok (filesOver_setF h hr rd)

theorem answers_fieldOp2 (h : FilesOver M s) {rd ra rb : FIdx}
    {f : FieldElement → FieldElement → Except ErrorKind FieldElement}
    (hf : ∀ a b, ReducedOver M a → Answers (ReducedOver M) (f a b)) :
    Answers (FilesOver M) (fieldOp2 s rd ra rb f) :=
  answers_bind (answers_readF h ra) fun a ha => answers_bind (answers_readF h rb) fun b _ =>
    answers_bind (hf a b ha) fun _ hr => answers_ok (filesOver_setF h hr rd)

end Reads

/-- A completing command leaves the F and P files over the moduli they were over. -/
theorem bodyOf_keeps_filesOver {M : WideInt → Prop} {s : State} {i : Instr} (hM : ModuliKept M s)
    (hw : i.wellFormed s.cfg = true) (h : FilesOver M s) : Answers (FilesOver M) (bodyOf s i) := by
  obtain ⟨hacc, hscalar, hdomain⟩ := hM
  have hp : i.isCurve = true → M domainP := fun hc => hdomain (hasCurve_of_wellFormed hw hc)
  cases i with
  | nop => exact answers_ok h
  | clrerr => exact answers_ok h
  | srst => exact answers_ok (filesOver_resetCore M s)
  | isprime ra => exact answers_bind (answers_readS s ra) fun _ _ => answers_ok h
  | fnew rd ra rb =>
    exact answers_bind (answers_readS s ra) fun _ _ => answers_bind (answers_readS s rb) fun m hm =>
      answers_bind (answers_fnew (hscalar rb m hm)) fun _ hr => answers_ok (filesOver_setF h hr rd)
  | fmov rd ra => exact answers_fieldOp1 h fun _ => answers_ok
  | fzero rd ra => exact answers_fieldOp1 h fun _ ha => answers_ok (reducedOver_zero hacc ha)
  | fone rd ra => exact answers_fieldOp1 h fun _ ha => answers_ok (reducedOver_one hacc ha)
  | feq ra rb =>
    exact answers_bind (answers_readF h ra) fun _ _ => answers_bind (answers_readF h rb) fun _ _ => answers_ok h
  | fadd rd ra rb => exact answers_fieldOp2 h fun _ _ => answers_fadd hacc
  | fsub rd ra rb => exact answers_fieldOp2 h fun _ _ => answers_fsub hacc
  | fmul rd ra rb => exact answers_fieldOp2 h fun _ _ => answers_fmul hacc
  | fsqr rd ra => exact answers_fieldOp1 h fun _ => answers_fmul hacc
  | fexp rd ra rb =>
    exact answers_bind (answers_readF h ra) fun _ ha => answers_bind (answers_readS s rb) fun _ _ =>
      answers_ok (filesOver_setF h (reducedOver_fexp hacc ha _) rd)
  | finv rd ra => exact answers_fieldOp1 h fun _ => answers_finv hacc
  | fdiv rd ra rb => exact answers_fieldOp2 h fun _ _ => answers_fdiv hacc
  | pnew rd ra rb =>
    exact answers_bind (answers_readS s ra) fun _ _ => answers_bind (answers_readS s rb) fun _ _ =>
      answers_bind (answers_fnew fun _ => hp rfl) fun _ hx => answers_bind (answers_fnew fun _ => hp rfl) fun _ hy =>
      answers_ok (filesOver_setP h ⟨hx, hy⟩ rd)
  | pset rd ra rb =>
    exact answers_bind (answers_readF h ra) fun _ hx => answers_bind (answers_readF h rb) fun _ hy =>
      answers_ok (filesOver_setP h ⟨hx, hy⟩ rd)
  | pgen rd => exact answers_ok (filesOver_setP h (pointOver_pointG (hp rfl)) rd)
  | pinf rd => exact answers_ok (filesOver_setP h (pointOver_pointInf (hp rfl)) rd)
  | pmov rd ra => exact answers_bind (answers_readP h ra) fun _ hP => answers_ok (filesOver_setP h hP rd)
  | pgetx rd ra => exact answers_bind (answers_readP h ra) fun _ hP => answers_ok (filesOver_setF h hP.1 rd)
  | pgety rd ra => exact answers_bind (answers_readP h ra) fun _ hP => answers_ok (filesOver_setF h hP.2 rd)
  | peq ra rb =>
    exact answers_bind (answers_readP h ra) fun _ _ => answers_bind (answers_readP h rb) fun _ _ => answers_ok h
  | pdbl rd ra =>
    exact answers_bind (answers_readP h ra) fun _ hP => answers_bind (answers_pdbl hacc (hp rfl) hP) fun _ hr =>
      answers_ok (filesOver_setP h hr rd)
  | padd rd ra rb =>
    exact answers_bind (answers_readP h ra) fun _ hP => answers_bind (answers_readP h rb) fun _ hQ =>
      answers_bind (answers_padd hacc (hp rfl) hP hQ) fun _ hr => answers_ok (filesOver_setP h hr rd)
  | pmul rd ra rb =>
    exact answers_bind (answers_readP h ra) fun _ hP => answers_bind (answers_readS s rb) fun _ _ =>
      answers_bind (answers_pmul hacc (hp rfl) hP) fun _ hr => answers_ok (filesOver_setP h hr rd)

end Sys2Proof.Machine

/-! What a step does to a predicate on states: it holds after the step when each of the step's effects keeps it. The
effects are those of `step_cases` and `exec_cases`. -/

namespace Sys2Proof.Machine

/-! ## The kinds a command records -/

/-- An error kind that some command raises (60_exceptions.md R273). -/
def Raised (k : ErrorKind) : Prop := k ≠ .notImplemented

theorem raised_of_groupLawError {k : ErrorKind} (h : GroupLawError k) : Raised k := by
  rcases h with rfl | rfl <;> exact nofun

theorem ok_raises {α : Type} (a : α) : ∀ k, (.ok a : Except ErrorKind α) = .error k → Raised k := nofun

theorem sourceOf_raises {α : Type} (r : Option α) : ∀ k, sourceOf r = .error k → Raised k := by
  intro k h
  obtain ⟨-, rfl⟩ := sourceOf_error h
  exact nofun

theorem fnew_raises (v m : WideInt) : ∀ k, fnew v m = .error k → Raised k := by
  intro k h
  obtain ⟨-, rfl⟩ := fnew_error.1 h
  exact nofun

theorem finv_raises (c : Cfg) (a : FieldElement) : ∀ k, finv c a = .error k → Raised k := by
  intro k h
  obtain ⟨-, rfl⟩ := finv_error h
  exact nofun

theorem pmul_raises (c : Cfg) (P : Point) (n : Nat) : ∀ k, pmul c P n = .error k → Raised k := by
  intro k h
  rcases pmul_error h with rfl | h
  · exact nofun
  · exact raised_of_groupLawError h

theorem fieldOp1_raises {s : State} {rd ra : FIdx} {f : FieldElement → Except ErrorKind FieldElement}
    (hf : ∀ a k, f a = .error k → Raised k) : ∀ k, fieldOp1 s rd ra f = .error k → Raised k :=
  bind_raises (sourceOf_raises _) fun a => bind_raises (hf a) fun _ => ok_raises _

theorem fieldOp2_raises {s : State} {rd ra rb : FIdx} {f : FieldElement → FieldElement → Except ErrorKind FieldElement}
    (hf : ∀ a b k, f a b = .error k → Raised k) : ∀ k, fieldOp2 s rd ra rb f = .error k → Raised k :=
  bind_raises (sourceOf_raises _) fun a => bind_raises (sourceOf_raises _) fun b =>
    bind_raises (hf a b) fun _ => ok_raises _

/-- No command raises the reserved kind. -/
theorem bodyOf_raises (s : State) (i : Instr) : ∀ k, bodyOf s i = .error k → Raised k := by
  cases i with
  | nop | clrerr | srst | pgen _ | pinf _ => exact ok_raises _
  | isprime _ | pmov _ _ | pgetx _ _ | pgety _ _ => exact bind_raises (sourceOf_raises _) fun _ => ok_raises _
  | feq _ _ | fexp _ _ _ | pset _ _ _ | peq _ _ =>
    exact bind_raises (sourceOf_raises _) fun _ => bind_raises (sourceOf_raises _) fun _ => ok_raises _
  | fmov _ _ | fzero _ _ | fone _ _ => exact fieldOp1_raises fun _ => ok_raises _
  | fsqr _ _ => exact fieldOp1_raises fun _ k h => raised_of_groupLawError (fmul_raises k h)
  | finv _ _ => exact fieldOp1_raises (finv_raises _)
  | fadd _ _ _ => exact fieldOp2_raises fun _ _ k h => raised_of_groupLawError (fadd_raises k h)
  | fsub _ _ _ => exact fieldOp2_raises fun _ _ k h => raised_of_groupLawError (fsub_raises k h)
  | fmul _ _ _ => exact fieldOp2_raises fun _ _ k h => raised_of_groupLawError (fmul_raises k h)
  | fdiv _ _ _ => exact fieldOp2_raises fun _ _ k h => raised_of_groupLawError (fdiv_raises k h)
  | fnew _ _ _ =>
    exact bind_raises (sourceOf_raises _) fun _ => bind_raises (sourceOf_raises _) fun _ =>
      bind_raises (fnew_raises _ _) fun _ => ok_raises _
  | pnew _ _ _ =>
    exact bind_raises (sourceOf_raises _) fun _ => bind_raises (sourceOf_raises _) fun _ =>
      bind_raises (fnew_raises _ _) fun _ => bind_raises (fnew_raises _ _) fun _ => ok_raises _
  | pdbl _ _ =>
    exact bind_raises (sourceOf_raises _) fun _ =>
      bind_raises (fun _ h => raised_of_groupLawError (pdbl_error h)) fun _ => ok_raises _
  | padd _ _ _ =>
    exact bind_raises (sourceOf_raises _) fun _ => bind_raises (sourceOf_raises _) fun _ =>
      bind_raises (fun _ h => raised_of_groupLawError (padd_error h)) fun _ => ok_raises _
  | pmul _ _ _ =>
    exact bind_raises (sourceOf_raises _) fun _ => bind_raises (sourceOf_raises _) fun _ =>
      bind_raises (pmul_raises _ _ _) fun _ => ok_raises _

/-! ## Predicates that every effect keeps -/

/-- Every effect a step can have keeps the predicate: the host's side of the port moves on, the CORE is reset, a word
of an S register is written, a command is dropped, records an error, clears the fault state or completes. -/
structure KeptByEffects (I : State → Prop) : Prop where
  host : ∀ s p r d, I s → I { s with pending := p, replies := r, draws := d }
  reset : ∀ s, I s → I (resetCore s)
  word : ∀ s i (j : Fin 8) w, j.val < s.cfg.NW → I s → I (setSWord s i j w)
  drop : ∀ s, s.status.err = true → I s → I (dropCommand s)
  fault : ∀ s k w, Raised k → I s → I (faultEntry k w s)
  clear : ∀ s, I s → I (clearFault s)
  complete : ∀ i s t, ¬alwaysExecuted i → i.wellFormed s.cfg = true → bodyOf s i = .ok t → I s → I t

section Kept

variable {I : State → Prop} (hI : KeptByEffects I) {s t : State}
include hI

theorem exec_keeps {i : Instr} (hs : I s) (h : exec i s = .next t) : I t := by
  rcases exec_cases h with ⟨-, rfl⟩ | ⟨-, rfl⟩ | ⟨-, he, rfl⟩ | ⟨-, -, -, rfl⟩ | ⟨-, -, -, k, hk, rfl⟩ | ⟨ha, -, hw, hb⟩
  · exact hI.clear s hs
  · exact hI.reset s hs
  · exact hI.drop s he hs
  · exact hI.fault s .illegalCommand _ nofun hs
  · exact hI.fault s k _ (bodyOf_raises s i k hk) hs
  · exact hI.complete i s t ha hw hb hs

theorem executeWord_keeps {w : Word32} (hs : I s) (h : executeWord w s = .next t) : I t := by
  unfold executeWord at h
  split at h
  · exact exec_keeps hI hs h
  · cases h
    split
    · next he => exact hI.drop s he hs
    · exact hI.fault s .illegalCommand w nofun hs

theorem step_keeps (hs : I s) (h : step s = .next t) : I t := by
  rcases step_cases h with rfl | ⟨tr, rest, -, h⟩
  · exact hs
  have hs' : I { s with pending := rest } := hI.host s rest s.replies s.draws hs
  rcases h with rfl | ⟨-, rfl⟩ | ⟨-, r, d, -, rfl⟩ | ⟨a, w, i, j, -, hl, rfl⟩ | ⟨-, w, -, -, h⟩
  · exact hs'
  · exact hI.reset _ hs'
  · exact hI.host s rest r d hs
  · exact hI.word _ i j w (locate_sWord_index hl) hs'
  · exact executeWord_keeps hI hs' h

end Kept

/-! ## Two such predicates -/

theorem keptByEffects_cfg (c : Cfg) : KeptByEffects (fun s => s.cfg = c) where
  host _ _ _ _ h := h
  reset _ h := h
  word _ _ _ _ _ h := h
  drop _ _ h := h
  fault _ _ _ _ h := h
  clear _ h := h
  complete i s t ha _ hb h := by
    rcases bodyOf_writes ha hb with rfl | ⟨_, _, rfl⟩ | ⟨_, _, rfl⟩ | ⟨_, rfl⟩ | ⟨_, rfl⟩ <;> exact h

theorem keptByEffects_filesOver {M : WideInt → Prop} (hM : ∀ s, ModuliKept M s) : KeptByEffects (FilesOver M) where
  host _ _ _ _ h := h
  reset s _ := filesOver_resetCore M s
  word _ _ _ _ _ h := h
  drop _ _ h := h
  fault _ _ _ _ h := h
  clear _ h := h
  complete _ s t _ hw hb h := bodyOf_keeps_filesOver (hM s) hw h t hb

/-! ## R25 as it is stated -/

/-- `is_prime` accepts the modulus (41_primality.md R125). -/
def Accepted (m : WideInt) : Prop := isPrime m.toNat = true

theorem moduliKept_accepted (s : State) : ModuliKept Accepted s where
  accepted _ := id
  scalars _ _ _ := id
  domain _ := isPrime_domainP

theorem reducedOver_accepted_iff (a : FieldElement) :
    ReducedOver Accepted a ↔ a.v < a.m ∧ isPrime a.m.toNat = true ∧ 2 ≤ a.m.toNat := by
  rw [BitVec.lt_def]
  exact ⟨fun ⟨hv, hm⟩ => ⟨hv, hm, two_le_of_isPrime hm⟩, fun ⟨hv, hm, _⟩ => ⟨hv, hm⟩⟩

end Sys2Proof.Machine

namespace Sys2Proof

open Machine

/-- Settles O52: R25 says of a state that both files are over accepted moduli, which each effect of a step keeps. -/
theorem stepKeepsElementsReducedAndAccepted : Obligations.StepKeepsElementsReducedAndAccepted := by
  unfold Obligations.StepKeepsElementsReducedAndAccepted
  intro RegisterInv
  have hiff : ∀ s, RegisterInv s ↔ FilesOver Accepted s := by
    intro s
    simp only [RegisterInv, FilesOver, PointOver, reducedOver_accepted_iff]
  simp only [hiff]
  exact ⟨filesOver_resetCore Accepted State.reset, fun s t => step_keeps (keptByEffects_filesOver moduliKept_accepted)⟩

end Sys2Proof

/-! The whole invariant of the machine, kept by every effect of a step. -/

namespace Sys2Proof.Machine

/-! ## A scalar register holds a W-bit value -/

theorem joinWords_lt {l : List (Option Word32)} {n : Nat} (h : joinWords l = some n) : n < 2 ^ (32 * l.length) := by
  induction l generalizing n with
  | nil => cases h; simp
  | cons w ws ih =>
    simp only [joinWords] at h
    split at h
    · next x m hm =>
      cases h
      have hx := x.isLt
      have := ih hm
      rw [List.length_cons, Nat.mul_succ, Nat.add_comm, Nat.pow_add]
      nlinarith
    · cases h

theorem mul_NW (c : Cfg) : 32 * c.NW = c.W := by
  rcases c with ⟨_ | _, _⟩ <;> simp [Cfg.NW, Cfg.W]

theorem toNat_sval_lt {s : State} {i : SIdx} {v : WideInt} (h : s.sval i = some v) : v.toNat < 2 ^ s.cfg.W := by
  obtain ⟨n, hn, rfl⟩ := Option.map_eq_some_iff.1 h
  have hlen : (s.sregs[i].words.toList.take s.cfg.NW).length ≤ s.cfg.NW := List.length_take_le _ _
  calc (BitVec.ofNat 256 n).toNat ≤ n := by rw [BitVec.toNat_ofNat]; exact Nat.mod_le _ _
    _ < 2 ^ (32 * (s.sregs[i].words.toList.take s.cfg.NW).length) := joinWords_lt hn
    _ ≤ 2 ^ s.cfg.W := Nat.pow_le_pow_right two_pos (by rw [← mul_NW]; omega)

/-! ## The parts of the invariant -/

/-- A modulus of a configuration: accepted and within `W` bits. -/
def ModulusOf (c : Cfg) (m : WideInt) : Prop := isPrime m.toNat = true ∧ m.toNat < 2 ^ c.W

theorem moduliKept_modulusOf (s : State) : ModuliKept (ModulusOf s.cfg) s where
  accepted _ h := h.1
  scalars _ _ hv hm := ⟨hm, toNat_sval_lt hv⟩
  domain hc := ⟨isPrime_domainP, by rw [W_of_hasCurve hc]; exact domainP.isLt⟩

/-- The clauses of the invariant about STATUS and ECMD (10_state.md R28, R29; 60_exceptions.md R273). -/
def StatusLegal (s : State) : Prop :=
  (s.status.err = false → s.status.drop = false ∧ s.status.ecode = 0 ∧ s.ecmd = 0) ∧
  (s.status.err = true → ∃ k, Raised k ∧ s.status.ecode = k.code)

theorem statusLegal_of_machineInv {s : State} (h : MachineInv s) : StatusLegal s := ⟨h.clean, h.faulted⟩

theorem statusLegal_dropCommand {s : State} (h : StatusLegal s) (he : s.status.err = true) :
    StatusLegal (dropCommand s) :=
  ⟨fun he' => absurd (he.symm.trans he') nofun, h.2⟩

theorem statusLegal_faultEntry {k : ErrorKind} (hk : Raised k) (w : Word32) (s : State) :
    StatusLegal (faultEntry k w s) :=
  ⟨nofun, fun _ => ⟨k, hk, rfl⟩⟩

theorem statusLegal_clearFault (s : State) : StatusLegal (clearFault s) :=
  ⟨fun _ => ⟨rfl, rfl, rfl⟩, nofun⟩

theorem filesOver_of_machineInv {s : State} (h : MachineInv s) : FilesOver (ModulusOf s.cfg) s := ⟨h.fields, h.points⟩

/-! ## Every effect keeps it -/

/-- The invariant after an effect that leaves the configuration and the S file: what is left to show is R25, that no
point appears without the curve, and STATUS. -/
theorem machineInv_of_effect {s t : State} (h : MachineInv s) (hc : t.cfg = s.cfg) (hS : t.sregs = s.sregs)
    (hfiles : FilesOver (ModulusOf s.cfg) t) (hcurve : s.cfg.hasCurve = false → t.pregs = s.pregs)
    (hstatus : StatusLegal t) : MachineInv t where
  fields := by rw [hc]; exact hfiles.1
  points := by rw [hc]; exact hfiles.2
  words := by rw [hc, hS]; exact h.words
  curve hw i := by
    rw [hc] at hw
    rw [pval_congr (hcurve hw)]
    exact h.curve hw i
  clean := hstatus.1
  faulted := hstatus.2

/-- An effect that changes STATUS and ECMD alone. -/
theorem machineInv_of_record {s : State} (h : MachineInv s) {st : Status} {e : Word32}
    (hstatus : StatusLegal { s with status := st, ecmd := e }) : MachineInv { s with status := st, ecmd := e } :=
  machineInv_of_effect h rfl rfl ⟨h.fields, h.points⟩ (fun _ => rfl) hstatus

theorem machineInv_resetCore (s : State) : MachineInv (resetCore s) where
  fields := (filesOver_resetCore (ModulusOf s.cfg) s).1
  points := (filesOver_resetCore (ModulusOf s.cfg) s).2
  words i j _ := words_resetCore s i j
  curve _ i := pval_resetCore s i
  clean _ := ⟨rfl, rfl, rfl⟩
  faulted := nofun

theorem machineInv_setSWord {s : State} (h : MachineInv s) {j : Fin 8} (hj : j.val < s.cfg.NW) (i : SIdx)
    (w : Word32) : MachineInv (setSWord s i j w) :=
  { h with
    words := fun i' j' hj' => by
      have hne : j ≠ j' := by rintro rfl; exact absurd hj' (by simpa using hj)
      rw [words_setSWord, if_neg fun ⟨_, he⟩ => hne he]
      exact h.words i' j' hj' }

theorem isCurve_of_destination_p {i : Instr} {rd : PIdx} (h : destination i = .p rd) : i.isCurve = true := by
  cases i <;> first | rfl | cases h

theorem eq_srst_of_destination_everything {i : Instr} (h : destination i = .everything) : i = .srst := by
  cases i <;> first | rfl | cases h

/-- Only a curve command writes the P file. -/
theorem bodyOf_pregs {i : Instr} {s t : State} (ha : ¬alwaysExecuted i) (hb : bodyOf s i = .ok t)
    (hc : i.isCurve = false) : t.pregs = s.pregs := by
  have hd := bodyOf_writes_destination hb
  split at hd
  · rw [hd]
  · obtain ⟨_, rfl⟩ := hd; rfl
  · next h => rw [isCurve_of_destination_p h] at hc; cases hc
  · obtain ⟨_, rfl⟩ := hd; rfl
  · obtain ⟨_, rfl⟩ := hd; rfl
  · rw [hd]; rfl
  · next h => rw [eq_srst_of_destination_everything h] at ha; exact absurd trivial ha

theorem machineInv_bodyOf {i : Instr} {s t : State} (ha : ¬alwaysExecuted i) (hw : i.wellFormed s.cfg = true)
    (hb : bodyOf s i = .ok t) (h : MachineInv s) : MachineInv t := by
  have hfiles := bodyOf_keeps_filesOver (moduliKept_modulusOf s) hw (filesOver_of_machineInv h) t hb
  have hcurve : s.cfg.hasCurve = false → t.pregs = s.pregs := by
    intro hc
    refine bodyOf_pregs ha hb (Bool.eq_false_iff.2 fun hi => ?_)
    rw [hasCurve_of_wellFormed hw hi] at hc
    cases hc
  have hstatus := statusLegal_of_machineInv h
  rcases bodyOf_writes ha hb with rfl | ⟨_, _, rfl⟩ | ⟨_, _, rfl⟩ | ⟨_, rfl⟩ | ⟨_, rfl⟩ <;>
    exact machineInv_of_effect h rfl rfl hfiles hcurve hstatus

theorem keptByEffects_machineInv : KeptByEffects MachineInv where
  host _ _ _ _ h := { h with }
  reset s _ := machineInv_resetCore s
  word _ i _ w hj h := machineInv_setSWord h hj i w
  drop _ he h := machineInv_of_record h (statusLegal_dropCommand (statusLegal_of_machineInv h) he)
  fault s _ w hk h := machineInv_of_record h (statusLegal_faultEntry hk w s)
  clear s h := machineInv_of_record h (statusLegal_clearFault s)
  complete _ _ _ ha hw hb h := machineInv_bodyOf ha hw hb h

end Sys2Proof.Machine

namespace Sys2Proof

open Machine

/-- Settles O53: each effect of a step keeps the invariant and the configuration. -/
theorem stepKeepsMachineInvariant : Obligations.StepKeepsMachineInvariant := fun s _ hs h =>
  ⟨step_keeps keptByEffects_machineInv hs h, step_keeps (keptByEffects_cfg s.cfg) rfl h⟩

/-- Settles O2: the reset state is what SRST makes of itself, and SRST leaves the invariant from every state. -/
theorem resetStateMeetsInvariant : Obligations.ResetStateMeetsInvariant := machineInv_resetCore State.reset

end Sys2Proof

/-! What a command leaves unchanged: the words of the register space outside its destination. -/

namespace Sys2Proof.Machine

/-! ## A word of the register space after one update -/

section Views

variable (s : State) {l : Location}

/-- STATUS and ECMD are read at their own addresses only. -/
theorem viewWord_record (st : Status) (e : Word32) (hl : l ∉ [.status, .ecmd]) :
    viewWord { s with status := st, ecmd := e } l = viewWord s l := by
  cases l with
  | status => simp at hl
  | ecmd => simp at hl
  | _ => rfl

/-- `F[rd]` is read in its own slots and in FVALID only. -/
theorem viewWord_setF {rd : FIdx} (r : FieldElement) (hw : ∀ part j, l ≠ .fWord rd part j) (hl : l ≠ .fvalid) :
    viewWord (setF s rd r) l = viewWord s l := by
  cases l with
  | fWord i part j =>
    have hne : rd ≠ i := by rintro rfl; exact hw part j rfl
    simp only [viewWord, fval_setF_other s r hne]
  | fvalid => exact absurd rfl hl
  | _ => rfl

/-- `P[rd]` is read in its own slots and in PVALID only. -/
theorem viewWord_setP {rd : PIdx} (r : Point) (hw : ∀ part j, l ≠ .pWord rd part j) (hl : l ≠ .pvalid) :
    viewWord (setP s rd r) l = viewWord s l := by
  cases l with
  | pWord i part j =>
    have hne : rd ≠ i := by rintro rfl; exact hw part j rfl
    simp only [viewWord, pval_setP_other s r hne]
  | pvalid => exact absurd rfl hl
  | _ => rfl

end Views

/-! ## What a command writes, by its destination -/

section Destinations

variable {i : Instr} {s t : State}

theorem bodyOf_writes_f {rd : FIdx} (hd : destination i = .f rd) (h : bodyOf s i = .ok t) : ∃ r, t = setF s rd r := by
  simpa only [hd] using bodyOf_writes_destination h

theorem bodyOf_writes_p {rd : PIdx} (hd : destination i = .p rd) (h : bodyOf s i = .ok t) : ∃ r, t = setP s rd r := by
  simpa only [hd] using bodyOf_writes_destination h

/-- A command with neither a register nor the whole state as destination changes STATUS and ECMD alone, and of the two
flags only the one it writes. -/
theorem exec_writes_flags (hd : destination i ∈ [.nothing, .prime, .eq, .faultState]) (h : exec i s = .next t) :
    ∃ st e, t = { s with status := st, ecmd := e } ∧ (destination i ≠ .prime → st.prime = s.status.prime) ∧
      (destination i ≠ .eq → st.eq = s.status.eq) := by
  rcases exec_records_or_completes h with ⟨st, e, ht, hprime, heq, -⟩ | hb
  · exact ⟨st, e, ht, fun _ => hprime, fun _ => heq⟩
  · have hw := bodyOf_writes_destination hb
    simp only [List.mem_cons, List.not_mem_nil, or_false] at hd
    rcases hd with hd | hd | hd | hd <;> simp only [hd] at hw ⊢
    · exact ⟨s.status, s.ecmd, hw, fun _ => rfl, fun _ => rfl⟩
    · obtain ⟨b, rfl⟩ := hw
      exact ⟨_, s.ecmd, rfl, fun hne => absurd rfl hne, fun _ => rfl⟩
    · obtain ⟨b, rfl⟩ := hw
      exact ⟨_, s.ecmd, rfl, fun _ => rfl, fun hne => absurd rfl hne⟩
    · exact ⟨_, _, hw, fun _ => rfl, fun _ => rfl⟩

end Destinations

end Sys2Proof.Machine

namespace Sys2Proof

open Machine

/-- Settles O44: such a command records something in STATUS and ECMD or writes `F[rd]`. -/
theorem fieldWritersFrame : Obligations.FieldWritersFrame := by
  intro i rd s t hd h
  rcases exec_records_or_completes h with ⟨st, e, rfl, hprime, heq, -⟩ | hb
  · refine ⟨rfl, rfl, rfl, fun _ _ => rfl, hprime, heq, rfl, rfl, rfl, .inr rfl, fun a _ ha => ?_⟩
    exact viewWord_record s st e (List.not_mem_of_not_mem_cons ha)
  · obtain ⟨r, rfl⟩ := bodyOf_writes_f hd hb
    refine ⟨rfl, rfl, rfl, fun _ hj => fval_setF_other s r hj.symm, rfl, rfl, rfl, rfl, rfl, .inl ⟨rfl, rfl⟩,
      fun a hw ha => ?_⟩
    exact viewWord_setF s r hw (List.ne_of_not_mem_cons ha)

/-- Settles O45: such a command records something in STATUS and ECMD or writes `P[rd]`. -/
theorem pointWritersFrame : Obligations.PointWritersFrame := by
  intro i rd s t hd h
  rcases exec_records_or_completes h with ⟨st, e, rfl, hprime, heq, -⟩ | hb
  · refine ⟨rfl, rfl, rfl, fun _ _ => rfl, hprime, heq, rfl, rfl, rfl, .inr rfl, fun a _ ha => ?_⟩
    exact viewWord_record s st e (List.not_mem_of_not_mem_cons ha)
  · obtain ⟨r, rfl⟩ := bodyOf_writes_p hd hb
    refine ⟨rfl, rfl, rfl, fun _ hj => pval_setP_other s r hj.symm, rfl, rfl, rfl, rfl, rfl, .inl ⟨rfl, rfl⟩,
      fun a hw ha => ?_⟩
    exact viewWord_setP s r hw (List.ne_of_not_mem_cons ha)

/-- Settles O46: such a command changes STATUS and ECMD alone. -/
theorem flagWritersFrame : Obligations.FlagWritersFrame := by
  intro i s t hd h
  obtain ⟨st, e, rfl, hprime, heq⟩ := exec_writes_flags hd h
  exact ⟨rfl, rfl, rfl, rfl, hprime, heq, rfl, rfl, rfl, fun a => viewWord_record s st e⟩

/-- Settles O43: CMD stands at address 0, whose word write R54 admits. -/
theorem stepRunsTheDecodedCommand : Obligations.StepRunsTheDecodedCommand := by
  intro s w rest i hp hd
  have hstep : step s = executeWord w { s with pending := rest } := by
    simp only [step, serveHost, hp]; rfl
  simp only [hstep, executeWord, hd]

end Sys2Proof

/-! The control registers of 10_state.md R28 to R31, bit by bit. -/

namespace Sys2Proof.Machine

/-! ## Fields of a packed word -/

theorem getLsbD_eq_of_digit {w : Word32} {i : Nat} {b : Bool} (h : w.toNat / 2 ^ i % 2 = b.toNat) :
    w.getLsbD i = b := by
  rw [BitVec.getLsbD, Nat.testBit_eq_decide_div_mod_eq, h]
  cases b <;> rfl

theorem extract_eq_of_digits {w : Word32} {i k : Nat} {v : BitVec k} (h : w.toNat / 2 ^ i % 2 ^ k = v.toNat) :
    w.extractLsb' i k = v :=
  BitVec.eq_of_toNat_eq (by rw [extract_toNat, h])

theorem extract_eq_zero_of_digits {w : Word32} {i k : Nat} (h : w.toNat / 2 ^ i % 2 ^ k = 0) :
    w.extractLsb' i k = 0 :=
  extract_eq_of_digits (by simpa using h)

/-- R28: the digits of the number STATUS packs. -/
theorem statusWord_fields (t : Status) :
    (statusWord t).getLsbD 0 = t.err ∧ (statusWord t).getLsbD 1 = t.drop ∧ (statusWord t).getLsbD 2 = t.prime ∧
    (statusWord t).getLsbD 3 = t.eq ∧ (statusWord t).extractLsb' 4 4 = 0 ∧
    (statusWord t).extractLsb' 8 4 = t.ecode ∧ (statusWord t).extractLsb' 12 20 = 0 := by
  have herr := t.err.toNat_le
  have hdrop := t.drop.toNat_le
  have hprime := t.prime.toNat_le
  have heq := t.eq.toNat_le
  have hcode := t.ecode.isLt
  have hn : (statusWord t).toNat =
      t.err.toNat + 2 * t.drop.toNat + 4 * t.prime.toNat + 8 * t.eq.toNat + 256 * t.ecode.toNat := by
    rw [statusWord, BitVec.toNat_ofNat]
    omega
  refine ⟨getLsbD_eq_of_digit ?_, getLsbD_eq_of_digit ?_, getLsbD_eq_of_digit ?_, getLsbD_eq_of_digit ?_,
    extract_eq_zero_of_digits ?_, extract_eq_of_digits ?_, extract_eq_zero_of_digits ?_⟩ <;>
    · rw [hn]; omega

/-- R30, one configuration at a time. -/
theorem configWord_fields (c : Cfg) :
    (configWord c).extractLsb' 0 8 = BitVec.ofNat 8 c.NW ∧ (configWord c).getLsbD 8 = c.exp0 ∧
    (configWord c).getLsbD 9 = c.hasCurve ∧ (configWord c).extractLsb' 10 22 = 0 := by
  rcases c with ⟨_ | _, _ | _⟩ <;> decide

/-! ## Valid words -/

/-- The number whose binary digits are the truth values, least significant first. -/
def packBits (bits : List Bool) : Nat := bits.foldr (fun b n => b.toNat + 2 * n) 0

theorem validWord_eq (bits : List Bool) : validWord bits = BitVec.ofNat 32 (packBits bits) := rfl

theorem packBits_cons (b : Bool) (bits : List Bool) : packBits (b :: bits) = Nat.bit b (packBits bits) := by
  rw [Nat.bit_val, Nat.add_comm]; rfl

theorem testBit_packBits (bits : List Bool) (i : Nat) : (packBits bits).testBit i = bits.getD i false := by
  induction bits generalizing i with
  | nil => simp [packBits]
  | cons b bits ih =>
    rw [packBits_cons]
    cases i with
    | zero => simp
    | succ i => simp [Nat.testBit_bit_succ, ih]

theorem getLsbD_validWord (bits : List Bool) {i : Nat} (hi : i < 32) :
    (validWord bits).getLsbD i = bits.getD i false := by
  rw [validWord_eq, BitVec.getLsbD_ofNat, decide_eq_true hi, Bool.true_and, testBit_packBits]

/-- R31: bit `i` is the truth value of register `i`. -/
theorem getLsbD_validWord_finRange {n : Nat} (hn : n ≤ 32) (f : Fin n → Bool) (i : Fin n) :
    (validWord ((List.finRange n).map f)).getLsbD i.val = f i := by
  rw [getLsbD_validWord _ (by omega)]
  simp

/-- R31: the bits above the last register are 0. -/
theorem extract_validWord_finRange {n k : Nat} (hk : n + k = 32) (f : Fin n → Bool) :
    (validWord ((List.finRange n).map f)).extractLsb' n k = 0 := by
  apply BitVec.eq_of_getLsbD_eq
  intro j hj
  rw [BitVec.getLsbD_extractLsb', getLsbD_validWord _ (by omega)]
  simp

end Sys2Proof.Machine

namespace Sys2Proof

open Machine

/-- Settles O60: STATUS and CONFIG are read off their digits, and bit `i` of a valid word is its `i`-th truth value. -/
theorem controlRegisterViews : Obligations.ControlRegisterViews := by
  intro s
  refine ⟨⟨rfl, rfl, statusWord_fields s.status⟩, ?_, rfl, rfl, rfl, getLsbD_validWord_finRange (by decide) _,
    extract_validWord_finRange rfl _, getLsbD_validWord_finRange (by decide) _, extract_validWord_finRange rfl _,
    fun hc i => ?_, ?_, fun hc => ?_⟩
  · obtain ⟨hNW, hexp0, hcurve, hzero⟩ := configWord_fields s.cfg
    exact ⟨rfl, hNW, hexp0, hcurve, hzero, by decide⟩
  · rw [pvalidWord, if_pos hc]
    exact getLsbD_validWord_finRange (by decide) _ i
  · unfold pvalidWord
    split
    · exact extract_validWord_finRange rfl _
    · decide
  · rw [pvalidWord, if_neg (by simp [hc])]

end Sys2Proof

/-! 20_memory.md R51: where each location stands, and what stands at each address. -/

namespace Sys2Proof.Machine

theorem admitted_iff {a n : Nat} : admitted a n = true ↔ n = 4 ∧ a % 4 = 0 ∧ a < 0x800 := by simp [admitted]

section Map

variable {c : Cfg} {a : Nat}

theorem mappedWord_of_lt {j : Fin 8} (h : j.val < c.NW) (l : Location) : mappedWord c j l = l := if_pos h

theorem mappedWord_of_le {j : Fin 8} (h : c.NW ≤ j.val) (l : Location) : mappedWord c j l = .unmapped :=
  if_neg (Nat.not_lt.2 h)

/-- R51 puts the locations at word addresses, below `0x01C` or from the S file to the constants. -/
theorem addressOf_range {l : Location} (h : mapped c l) :
    addressOf l % 4 = 0 ∧ (addressOf l < 0x01C ∨ 0x100 ≤ addressOf l ∧ addressOf l < 0x660) := by
  cases l with
  | sWord i j => simp only [addressOf]; omega
  | fWord i part j => cases part <;> simp only [addressOf] <;> omega
  | pWord i part j => cases part <;> simp only [addressOf] <;> omega
  | constWord k j => cases k <;> simp only [addressOf] <;> omega
  | unmapped => exact h.elim
  | _ => decide

theorem admitted_addressOf {l : Location} (h : mapped c l) : admitted (addressOf l) 4 = true := by
  obtain ⟨h4, hrange⟩ := addressOf_range h
  exact admitted_iff.2 ⟨rfl, h4, by omega⟩

theorem fin_ofNat_eq {k n : Nat} [NeZero k] {i : Fin k} (h : n = i.val) : Fin.ofNat k n = i :=
  h ▸ Fin.ofNat_val_eq_self i

/-- The quotients and remainders that `locate` takes of an address of the map give its indices back. -/
theorem locate_addressOf {l : Location} (h : mapped c l) : locate c (addressOf l) = l := by
  generalize ha : addressOf l = a
  cases l with
  | sWord i j =>
    simp only [addressOf] at ha
    have hi : Fin.ofNat 8 ((a - 0x100) / 0x20) = i := fin_ofNat_eq (by omega)
    have hj : Fin.ofNat 8 (a % 0x20 / 4) = j := fin_ofNat_eq (by omega)
    simp (disch := omega) only [locate, if_neg, if_pos, hi, hj, mappedWord_of_lt h]
  | fWord i part j =>
    cases part <;>
    · simp only [addressOf] at ha
      have hi : Fin.ofNat 8 ((a - 0x200) / 0x40) = i := fin_ofNat_eq (by omega)
      have hj : Fin.ofNat 8 (a % 0x20 / 4) = j := fin_ofNat_eq (by omega)
      simp (disch := omega) only [locate, if_neg, if_pos, hi, hj, mappedWord_of_lt h]
  | pWord i part j =>
    obtain ⟨hc, hw⟩ := h
    cases part <;>
    · simp only [addressOf] at ha
      have hi : Fin.ofNat 4 ((a - 0x400) / 0x80) = i := fin_ofNat_eq (by omega)
      have hj : Fin.ofNat 8 (a % 0x20 / 4) = j := fin_ofNat_eq (by omega)
      simp (disch := omega) only [locate, if_neg, if_pos, hc, Bool.true_eq_false, if_false, hi, hj, mappedWord_of_lt hw]
  | constWord k j =>
    obtain ⟨hc, hw⟩ := h
    cases k <;>
    · simp only [addressOf] at ha
      have hj : Fin.ofNat 8 (a % 0x20 / 4) = j := fin_ofNat_eq (by omega)
      simp (disch := omega) only [locate, if_neg, if_pos, hc, Bool.true_eq_false, if_false, hj, mappedWord_of_lt hw]
  | unmapped => exact h.elim
  | _ => subst ha; rfl

/-- Below the S file stand the seven control words. -/
theorem locate_control (h : a < 0x100) :
    locate c a = .unmapped ∨ mapped c (locate c a) ∧ addressOf (locate c a) = a := by
  simp only [locate, if_pos h]
  split <;> simp [mapped, addressOf]

/-- From the S file on, an address is word `j` of a W-bit slot or unmapped. -/
theorem locate_slot (h : 0x100 ≤ a) :
    locate c a = .unmapped ∨ ∃ j l, locate c a = mappedWord c j l ∧ j.val = a % 0x20 / 4 ∧
      (j.val < c.NW → mapped c l) ∧ addressOf l = 4 * (a / 4) := by
  have hj : (Fin.ofNat 8 (a % 0x20 / 4)).val = a % 0x20 / 4 := Nat.mod_eq_of_lt (by omega)
  simp only [locate, if_neg (Nat.not_lt.2 h)]
  split
  · exact .inr ⟨_, _, rfl, hj, id, by simp [addressOf]; omega⟩
  split
  · refine .inr ⟨_, _, rfl, hj, id, ?_⟩
    split <;> simp [addressOf] <;> omega
  split
  · exact .inl rfl
  next hc =>
    rw [Bool.not_eq_false] at hc
    split
    · refine .inr ⟨_, _, rfl, hj, fun hw => ⟨hc, hw⟩, ?_⟩
      split_ifs <;> simp [addressOf] <;> omega
    split
    · refine .inr ⟨_, _, rfl, hj, fun hw => ⟨hc, hw⟩, ?_⟩
      split_ifs <;> simp [addressOf] <;> omega
    · exact .inl rfl

/-- R58: word `j` of a slot exists for `j < NW` only. -/
theorem locate_absent_word (h : 0x100 ≤ a) (hj : c.NW ≤ a % 0x20 / 4) : locate c a = .unmapped := by
  rcases locate_slot (c := c) h with hl | ⟨j, l, hl, hval, -⟩
  · exact hl
  · rw [hl, mappedWord_of_le (hval ▸ hj)]

theorem locate_unmapped_or_addressOf (h4 : a % 4 = 0) :
    locate c a = .unmapped ∨ mapped c (locate c a) ∧ addressOf (locate c a) = a := by
  rcases Nat.lt_or_ge a 0x100 with h | h
  · exact locate_control h
  rcases locate_slot (c := c) h with hl | ⟨j, l, hl, -, hmap, haddr⟩
  · exact .inl hl
  rcases Nat.lt_or_ge j.val c.NW with hj | hj
  · rw [hl, mappedWord_of_lt hj]
    exact .inr ⟨hmap hj, by omega⟩
  · exact .inl (hl.trans (mappedWord_of_le hj l))

theorem locate_without_curve (hc : c.hasCurve = false) (h : 0x400 ≤ a) : locate c a = .unmapped := by
  simp (disch := omega) only [locate, if_neg, if_pos hc]

end Map

end Sys2Proof.Machine

namespace Sys2Proof

open Machine

/-- Settles O54: no mapped location has an address in the two ranges. -/
theorem addressMapIsExact : Obligations.AddressMapIsExact := by
  refine ⟨fun c l h => ⟨admitted_addressOf h, locate_addressOf h⟩, fun c a ha => ?_, fun c a ha hr => ?_,
    fun c a hc h _ => locate_without_curve hc h⟩
  · obtain ⟨-, h4, -⟩ := admitted_iff.1 ha
    exact locate_unmapped_or_addressOf h4
  · obtain ⟨-, h4, -⟩ := admitted_iff.1 ha
    refine (locate_unmapped_or_addressOf h4).resolve_right fun ⟨hmap, haddr⟩ => ?_
    obtain ⟨-, hrange⟩ := addressOf_range hmap
    omega

end Sys2Proof

/-! 20_memory.md R52 to R58: what the step of a read, of a write and of a refused access answers. -/

namespace Sys2Proof.Machine

/-! ## One transaction -/

section Port

variable {s : State} {a n : Nat} {w : Word32} {rest : List Transaction}

theorem step_of_pending {tr : Transaction} (hp : s.pending = tr :: rest) :
    step s = transact tr { s with pending := rest } := by
  simp only [step, serveHost, hp]

theorem step_read (ha : admitted a 4 = true) (hp : s.pending = .read a 4 :: rest) :
    step s = .next (hostRead a { s with pending := rest }) := by
  rw [step_of_pending hp, transact, if_pos ha]

theorem step_write (ha : admitted a 4 = true) (hp : s.pending = .write a 4 w :: rest) :
    step s = hostWrite a w { s with pending := rest } := by
  rw [step_of_pending hp, transact, if_pos ha]

theorem hostRead_of_some (h : peek s a = some w) : hostRead a s = pushReply w s := by
  simp only [hostRead, h]

theorem hostRead_of_none (h : peek s a = none) : hostRead a s = countDraw (pushReply (Config.freeWord s.draws) s) := by
  simp only [hostRead, h]

theorem viewWord_pending (s : State) (rest : List Transaction) (l : Location) :
    viewWord { s with pending := rest } l = viewWord s l := by
  cases l <;> rfl

theorem hostWrite_sWord {i : SIdx} {j : Fin 8} (h : locate s.cfg a = .sWord i j) :
    hostWrite a w s = .next (setSWord s i j w) := by
  simp only [hostWrite, h]

/-- Only CMD and the S words take a write. -/
theorem hostWrite_ignored (hcmd : locate s.cfg a ≠ .cmd) (hS : ∀ i j, locate s.cfg a ≠ .sWord i j) :
    hostWrite a w s = .next s := by
  unfold hostWrite
  split
  · next h => exact absurd h hcmd
  · next i j h => exact absurd h (hS i j)
  · rfl

end Port

end Sys2Proof.Machine

namespace Sys2Proof

open Machine

/-- Settles O55: R54 admits no such access. -/
theorem accessesNotAdmittedAreRefused : Obligations.AccessesNotAdmittedAreRefused := by
  intro s a n w rest h
  have hna : ¬admitted a n = true := fun hadm => h (by rw [admitted_iff] at hadm; omega)
  exact ⟨fun hp => by rw [step_of_pending hp, transact, if_neg hna],
    fun hp => by rw [step_of_pending hp, transact, if_neg hna]⟩

/-- Settles O59: both kinds of word read 0, and only CMD and the S words take a write. -/
theorem unmappedAndReadOnlyWords : Obligations.UnmappedAndReadOnlyWords := by
  refine ⟨fun s a rest ha hl hp => ?_, fun s a w rest ha hcmd hS hp => ?_, fun c a hc h _ hj => ?_⟩
  · have hpeek : peek { s with pending := rest } a = some 0 := by
      simp only [List.mem_cons, List.not_mem_nil, or_false] at hl
      rcases hl with hl | hl <;> simp only [peek, hl, viewWord]
    rw [step_read ha hp, hostRead_of_some hpeek, pushReply]
  · exact (step_write ha hp).trans (hostWrite_ignored hcmd hS)
  · have hNW : c.NW = 2 := by simp only [Cfg.NW, Cfg.W, hc]
    exact locate_absent_word h (hNW ▸ hj)

end Sys2Proof

/-! 10_state.md R21, 20_memory.md R56: the words of a scalar register and its value. -/

namespace Sys2Proof.Machine

/-! ## Words put together -/

theorem isSome_joinWords_iff {l : List (Option Word32)} : (joinWords l).isSome ↔ ∀ w ∈ l, w.isSome := by
  induction l with
  | nil => simp [joinWords]
  | cons w ws ih =>
    rw [List.forall_mem_cons, ← ih]
    cases w <;> cases h : joinWords ws <;> simp [joinWords, h]

theorem getElem_of_joinWords {l : List (Option Word32)} {n j : Nat} (h : joinWords l = some n) (hj : j < l.length) :
    l[j] = some (BitVec.ofNat 32 (n / 2 ^ (32 * j))) := by
  induction l generalizing n j with
  | nil => cases hj
  | cons w ws ih =>
    simp only [joinWords] at h
    split at h
    · next x m hm =>
      cases h
      have hx := x.isLt
      cases j with
      | zero =>
        refine congrArg some (BitVec.eq_of_toNat_eq ?_)
        simp only [BitVec.toNat_ofNat]
        omega
      | succ j =>
        have hdiv : (x.toNat + 2 ^ 32 * m) / 2 ^ (32 * (j + 1)) = m / 2 ^ (32 * j) := by
          rw [Nat.mul_succ, Nat.add_comm (32 * j), Nat.pow_add, ← Nat.div_div_eq_div_mul]
          congr 1
          omega
        rw [hdiv]
        exact ih hm _
    · cases h

theorem wordOf_ofNat {n j : Nat} (h : n < 2 ^ 256) :
    wordOf (BitVec.ofNat 256 n) j = BitVec.ofNat 32 (n / 2 ^ (32 * j)) := by
  apply BitVec.eq_of_toNat_eq
  rw [wordOf, BitVec.extractLsb'_toNat, Nat.shiftRight_eq_div_pow, BitVec.toNat_ofNat, BitVec.toNat_ofNat,
    Nat.mod_eq_of_lt h]

/-- A W-bit value is determined by its `NW` words. -/
theorem eq_of_wordOf_eq {c : Cfg} {u v : WideInt} (hu : u.toNat < 2 ^ c.W) (hv : v.toNat < 2 ^ c.W)
    (h : ∀ j < c.NW, wordOf u j = wordOf v j) : u = v := by
  apply BitVec.eq_of_getLsbD_eq
  intro k _
  rcases Nat.lt_or_ge k c.W with hk | hk
  · have hj : k / 32 < c.NW := by rw [← mul_NW] at hk; omega
    have hbit := congrArg (fun w : Word32 => w.getLsbD (k % 32)) (h _ hj)
    simpa [wordOf, Nat.div_add_mod, Nat.mod_lt] using hbit
  · have hpow : 2 ^ c.W ≤ 2 ^ k := Nat.pow_le_pow_right two_pos hk
    rw [BitVec.getLsbD, BitVec.getLsbD, Nat.testBit_lt_two_pow (hu.trans_le hpow),
      Nat.testBit_lt_two_pow (hv.trans_le hpow)]

/-! ## A scalar register -/

section Scalars

variable {s : State} {i : SIdx} {v : WideInt}

/-- R21: a register is valid exactly when all its `NW` words have been written. -/
theorem isSome_sval_iff : (s.sval i).isSome ↔ ∀ j : Fin 8, j.val < s.cfg.NW → (s.sregs[i].words[j]).isSome := by
  rw [State.sval, SReg.value, Option.isSome_map, isSome_joinWords_iff]
  constructor
  · intro h j hj
    have hlen : j.val < (s.sregs[i].words.toList.take s.cfg.NW).length := by simpa using hj
    simpa using h _ (List.getElem_mem hlen)
  · intro h w hw
    obtain ⟨k, hk, rfl⟩ := List.mem_iff_getElem.1 hw
    have hk' : k < s.cfg.NW ∧ k < 8 := by simpa using hk
    simpa using h ⟨k, hk'.2⟩ hk'.1

theorem word_of_sval {j : Fin 8} (h : s.sval i = some v) (hj : j.val < s.cfg.NW) :
    s.sregs[i].words[j] = some (wordOf v j) := by
  obtain ⟨n, hn, rfl⟩ := Option.map_eq_some_iff.1 h
  have hlt : n < 2 ^ 256 := (joinWords_lt hn).trans_le (Nat.pow_le_pow_right two_pos (by simp; omega))
  have hword := getElem_of_joinWords hn (j := j.val) (by simp; omega)
  rw [wordOf_ofNat hlt, ← hword]
  simp

/-- The value is the one whose words stand in the register. -/
theorem sval_eq_of_words (hv : v.toNat < 2 ^ s.cfg.W)
    (h : ∀ j : Fin 8, j.val < s.cfg.NW → s.sregs[i].words[j] = some (wordOf v j)) : s.sval i = some v := by
  have hvalid : (s.sval i).isSome := isSome_sval_iff.2 fun j hj => by simp only [h j hj, Option.isSome_some]
  obtain ⟨u, hu⟩ := Option.isSome_iff_exists.1 hvalid
  have huv : u = v := eq_of_wordOf_eq (toNat_sval_lt hu) hv fun j hj => by
    have hj8 := hj.trans_le (NW_le s.cfg)
    exact Option.some.inj ((word_of_sval (j := ⟨j, hj8⟩) hu hj).symm.trans (h ⟨j, hj8⟩ hj))
  rw [hu, huv]

end Scalars

end Sys2Proof.Machine

namespace Sys2Proof

open Machine

/-- Settles O58: the location read is the one at its address, and each word of a valid register is its slice. -/
theorem hostReadsReturnTheWord : Obligations.HostReadsReturnTheWord := by
  intro s l rest hl hp
  have hstep := step_read (admitted_addressOf hl) hp
  have hpeek : peek { s with pending := rest } (addressOf l) = viewWord s l := by
    rw [peek, locate_addressOf hl, viewWord_pending]
  refine ⟨fun w hw => ?_, fun hw => ?_, ?_, fun i j e v hv => ?_, ?_, ?_, ?_, ?_, ?_, ?_⟩
  · rw [hstep, hostRead_of_some (hpeek.trans hw), pushReply]
  · rw [hstep, hostRead_of_none (hpeek.trans hw), countDraw, pushReply]
  case refine_4 =>
    subst e
    exact word_of_sval hv hl
  all_goals rintro i j rfl; rfl

end Sys2Proof

/-! 20_memory.md R56: a host write of an S word, and what can clear a bit of the written mask. -/

namespace Sys2Proof

/-- The word of SRST is the only one that decodes to it: only the row of opcode `0x02`, the third, names it. -/
theorem eq_srst_word_of_decode {c : Cfg} {w : Word32} (h : decode c w = .ok .srst) : w = 0x02000000#32 := by
  obtain ⟨hrow, -⟩ := decode_eq_ok.1 h
  unfold decodeRow at hrow
  split at hrow
  case h_3 hop =>
    obtain ⟨hzero, hrd, hra, hrb, -⟩ := formatZ_eq_ok.1 hrow
    rw [← packFields_of_fields w hzero, hop, hrd, hra, hrb]
    rfl
  all_goals simp [formatZ_eq_ok, formatD_eq_ok, formatA_eq_ok, formatDA_eq_ok, formatAB_eq_ok, formatDAB_eq_ok] at hrow

namespace Machine

/-- Only SRST writes the S file. -/
theorem exec_sregs {i : Instr} {s t : State} (h : exec i s = .next t) : i = .srst ∨ t.sregs = s.sregs := by
  rcases exec_cases h with ⟨-, rfl⟩ | ⟨hi, -⟩ | ⟨-, -, rfl⟩ | ⟨-, -, -, rfl⟩ | ⟨-, -, -, k, -, rfl⟩ | ⟨ha, -, -, hb⟩
  · exact .inr rfl
  · exact .inl hi
  · exact .inr rfl
  · exact .inr rfl
  · exact .inr rfl
  · right
    rcases bodyOf_writes ha hb with rfl | ⟨_, _, rfl⟩ | ⟨_, _, rfl⟩ | ⟨_, rfl⟩ | ⟨_, rfl⟩ <;> rfl

theorem executeWord_sregs {w : Word32} {s t : State} (h : executeWord w s = .next t) :
    w = 0x02000000#32 ∨ t.sregs = s.sregs := by
  unfold executeWord at h
  split at h
  · next i hd =>
    rcases exec_sregs h with rfl | hS
    · exact .inl (eq_srst_word_of_decode hd)
    · exact .inr hS
  · cases h
    right
    split <;> rfl

/-- A written word stays written but for the platform's reset and SRST. -/
theorem step_clears_word {s t : State} {i : SIdx} {j : Fin 8} (h : step s = .next t)
    (hs : (s.sregs[i].words[j]).isSome) (ht : t.sregs[i].words[j] = none) :
    ∃ rest, s.pending = .reset :: rest ∨ s.pending = .write 0x000 4 0x02000000#32 :: rest := by
  have hwritten : s.sregs[i].words[j] ≠ none := Option.isSome_iff_ne_none.1 hs
  have hsame : t.sregs ≠ s.sregs := fun heq => hwritten (by rw [← heq, ht])
  rcases step_cases h with rfl | ⟨tr, rest, hp, h⟩
  · exact absurd rfl hsame
  refine ⟨rest, ?_⟩
  rcases h with rfl | ⟨rfl, -⟩ | ⟨-, r, d, -, rfl⟩ | ⟨a, w, i', j', -, -, rfl⟩ | ⟨a, w, rfl, hl, h⟩
  · exact absurd rfl hsame
  · exact .inl hp
  · exact absurd rfl hsame
  · rw [words_setSWord] at ht
    split at ht
    · cases ht
    · exact absurd ht hwritten
  · obtain rfl := locate_cmd hl
    obtain rfl := (executeWord_sregs h).resolve_right hsame
    exact .inr hp

theorem step_sWord_write {s : State} {i : SIdx} {j : Fin 8} {w : Word32} {rest : List Transaction}
    (hj : j.val < s.cfg.NW) (hp : s.pending = .write (0x100 + 0x20 * i.val + 4 * j.val) 4 w :: rest) :
    step s = .next (setSWord { s with pending := rest } i j w) := by
  have hmap : mapped s.cfg (.sWord i j) := hj
  exact (step_write (admitted_addressOf hmap) hp).trans (hostWrite_sWord (locate_addressOf hmap))

theorem isSome_sval_setSWord {s : State} {i : SIdx} (j : Fin 8) (w : Word32) (h : (s.sval i).isSome) :
    ((setSWord s i j w).sval i).isSome := by
  rw [isSome_sval_iff] at h ⊢
  intro k hk
  rw [words_setSWord]
  split
  · rfl
  · exact h k hk

end Machine

open Machine

/-- Settles O56: the word written is mapped, so the step is that write. -/
theorem scalarWritesSetOneWord : Obligations.ScalarWritesSetOneWord :=
  ⟨fun _ _ j w _ hj hp => ⟨step_sWord_write hj hp, isSome_sval_setSWord j w⟩, fun _ _ => isSome_sval_iff,
    fun _ _ _ _ => step_clears_word⟩

end Sys2Proof

/-! 20_memory.md R61: the word writes of `HostWriteS`, in any order. -/

namespace Sys2Proof.Machine

/-! ## The transactions -/

/-- The write of word `j` of `v` to `S[i]`. -/
def sWordWrite (i : SIdx) (v : WideInt) (j : Nat) : Transaction := .write (0x100 + 0x20 * i.val + 4 * j) 4 (wordOf v j)

theorem hostWriteS_eq (c : Cfg) (i : SIdx) (v : WideInt) : hostWriteS c i v = (List.range c.NW).map (sWordWrite i v) :=
  rfl

theorem sWordWrite_injective (i : SIdx) (v : WideInt) : Function.Injective (sWordWrite i v) := fun j k h => by
  have haddr := (Transaction.write.inj h).1
  omega

/-- A list with the writes of `HostWriteS` in some order is the list of the writes of all `NW` words in some order. -/
theorem exists_indices_of_perm {c : Cfg} {i : SIdx} {v : WideInt} {l : List Transaction}
    (h : l.Perm (hostWriteS c i v)) :
    ∃ js : List (Fin 8), l = js.map (fun j => sWordWrite i v j.val) ∧ ∀ j : Fin 8, j ∈ js ↔ j.val < c.NW := by
  rw [hostWriteS_eq] at h
  have hrange : l ∈ Set.range (List.map fun j : Fin 8 => sWordWrite i v j.val) := by
    rw [Set.range_list_map]
    intro x hx
    obtain ⟨k, hk, rfl⟩ := List.mem_map.1 (h.mem_iff.1 hx)
    exact ⟨⟨k, (List.mem_range.1 hk).trans_le (NW_le c)⟩, rfl⟩
  obtain ⟨js, rfl⟩ := hrange
  refine ⟨js, rfl, fun j => ?_⟩
  have hinj := sWordWrite_injective i v
  rw [← List.mem_map_of_injective (hinj.comp Fin.val_injective), Function.comp_def, h.mem_iff,
    List.mem_map_of_injective hinj, List.mem_range]

theorem run_succ_of_step {M : Host.Core} {s t : M.State} (n : Nat) (h : M.step s = .next t) :
    M.run (n + 1) s = M.run n t := by
  rw [Host.Core.run, h]

/-! ## Their effect -/

/-- The words of `v` with the indices in the list, written to `S[i]` one after the other. -/
def setSWords (i : SIdx) (v : WideInt) (s : State) (js : List (Fin 8)) : State :=
  js.foldl (fun s j => setSWord s i j (wordOf v j.val)) s

section SetSWords

variable {i : SIdx} {v : WideInt}

theorem setSWords_cons (s : State) (j : Fin 8) (js : List (Fin 8)) :
    setSWords i v s (j :: js) = setSWords i v (setSWord s i j (wordOf v j.val)) js := rfl

theorem setSWords_eq (s : State) (js : List (Fin 8)) :
    setSWords i v s js = { s with sregs := (setSWords i v s js).sregs } := by
  induction js generalizing s with
  | nil => rfl
  | cons j js ih => rw [setSWords_cons, ih]; rfl

theorem setSWords_cfg (s : State) (js : List (Fin 8)) : (setSWords i v s js).cfg = s.cfg := by
  rw [setSWords_eq]

theorem sregs_setSWord_other (s : State) {k : SIdx} (hk : k ≠ i) (j : Fin 8) (w : Word32) :
    (setSWord s i j w).sregs[k] = s.sregs[k] := by
  have hne : i.val ≠ k.val := fun h => hk (Fin.ext h.symm)
  simp [hne]

theorem sregs_setSWords_other (s : State) (js : List (Fin 8)) {k : SIdx} (hk : k ≠ i) :
    (setSWords i v s js).sregs[k] = s.sregs[k] := by
  induction js generalizing s with
  | nil => rfl
  | cons j js ih => rw [setSWords_cons, ih, sregs_setSWord_other s hk]

/-- The order does not show: each word is the one of its index. -/
theorem words_setSWords (s : State) (js : List (Fin 8)) (k : Fin 8) :
    (setSWords i v s js).sregs[i].words[k] = if k ∈ js then some (wordOf v k.val) else s.sregs[i].words[k] := by
  induction js generalizing s with
  | nil => rfl
  | cons j js ih =>
    rw [setSWords_cons, ih, words_setSWord]
    by_cases hk : k ∈ js
    · simp [hk]
    · by_cases hj : j = k
      · subst hj; simp
      · simp [hk, hj, Ne.symm hj]

theorem run_sWordWrites {s : State} {js : List (Fin 8)} {rest : List Transaction} (hjs : ∀ j ∈ js, j.val < s.cfg.NW)
    (hp : s.pending = js.map (fun j => sWordWrite i v j.val) ++ rest) :
    Host.Core.run core js.length s = .next (setSWords i v { s with pending := rest } js) := by
  induction js generalizing s with
  | nil => rw [← (show s.pending = rest from hp)]; rfl
  | cons j js ih =>
    obtain ⟨hj, hjs⟩ := List.forall_mem_cons.1 hjs
    exact (run_succ_of_step (M := core) js.length (step_sWord_write hj hp)).trans (ih hjs rfl)

end SetSWords

end Sys2Proof.Machine

namespace Sys2Proof

open Machine

/-- Settles O57: whatever their order, the writes set each of the `NW` words to the word of `v` with its index. -/
theorem hostWriteSInAnyOrder : Obligations.HostWriteSInAnyOrder := by
  intro s i v l rest hv hperm hp
  obtain ⟨js, rfl, hjs⟩ := exists_indices_of_perm hperm
  refine ⟨setSWords i v { s with pending := rest } js, ?_, ?_, setSWords_eq _ js, fun j hj =>
    sregs_setSWords_other _ js hj⟩
  · rw [List.length_map]
    exact run_sWordWrites (fun j => (hjs j).1) hp
  · refine sval_eq_of_words (by rwa [setSWords_cfg]) fun j hj => ?_
    rw [setSWords_cfg] at hj
    rw [words_setSWords, if_pos ((hjs j).2 hj)]

end Sys2Proof

/-! 30_encoding.md R81 to R87: the decoder and the encoder are inverse, and both agree with the mask and match columns
of the opcode map. -/

namespace Sys2Proof

open Laws

/-! ## The two directions of the round trip -/

/-- The fields packed by the encoder are those the decoder reads, and each register index is within its file. -/
theorem decodeRow_encode (i : Instr) : decodeRow (encode i) = .ok i := by
  cases i <;>
    simp (disch := omega) [encode, decodeRow, fields_of_packFields, index8_val, index4_val, formatZ_eq_ok,
      formatD_eq_ok, formatA_eq_ok, formatDA_eq_ok, formatAB_eq_ok, formatDAB_eq_ok]

/-- A word that matches a row has a zero `zero` field, so it is packed from its opcode and from the row's operands. -/
theorem encode_of_decodeRow {w : Word32} {i : Instr} (h : decodeRow w = .ok i) : encode i = w := by
  unfold decodeRow at h
  split at h <;> rename_i hop <;>
    simp only [formatZ_eq_ok, formatD_eq_ok, formatA_eq_ok, formatDA_eq_ok, formatAB_eq_ok, formatDAB_eq_ok,
      index8_eq_ok, index4_eq_ok, reduceCtorEq] at h <;>
    have hw := packFields_of_fields w h.1
  case h_1 | h_2 | h_3 => -- format Z
    obtain ⟨-, hrd, hra, hrb, rfl⟩ := h
    rw [← hw, hop, hrd, hra, hrb]; rfl
  case h_19 | h_20 => -- format D
    obtain ⟨-, hra, hrb, rd, hrd, rfl⟩ := h
    rw [← hw, hop, ← hrd, hra, hrb]; rfl
  case h_4 => -- format A
    obtain ⟨-, hrd, hrb, ra, hra, rfl⟩ := h
    rw [← hw, hop, hrd, ← hra, hrb]; rfl
  case h_9 | h_24 => -- format AB
    obtain ⟨-, hrd, ra, hra, rb, hrb, rfl⟩ := h
    rw [← hw, hop, hrd, ← hra, ← hrb]; rfl
  case h_6 | h_7 | h_8 | h_13 | h_15 | h_21 | h_22 | h_23 | h_25 => -- format DA
    obtain ⟨-, hrb, rd, hrd, ra, hra, rfl⟩ := h
    rw [← hw, hop, ← hrd, ← hra, hrb]; rfl
  all_goals -- format DAB
    obtain ⟨-, rd, hrd, ra, hra, rb, hrb, rfl⟩ := h
    rw [← hw, hop, ← hrd, ← hra, ← hrb]; rfl

theorem decodeRow_eq_ok_iff {w : Word32} {i : Instr} : decodeRow w = .ok i ↔ encode i = w :=
  ⟨encode_of_decodeRow, fun h => h ▸ decodeRow_encode i⟩

theorem decode_eq_ok_iff {c : Cfg} {w : Word32} {i : Instr} :
    decode c w = .ok i ↔ encode i = w ∧ i.wellFormed c = true := by
  rw [decode_eq_ok, decodeRow_eq_ok_iff]

/-- Settles O47: the word is the one the encoder writes. -/
theorem decodeInvertsEncode : Obligations.DecodeInvertsEncode := fun _ _ hi => decode_eq_ok_iff.2 ⟨rfl, hi⟩

/-- Settles O48: the same equivalence, read from left to right. -/
theorem encodeInvertsDecode : Obligations.EncodeInvertsDecode := fun _ _ _ => decode_eq_ok_iff.1

/-- Settles O50: the twelve words are what the encoder writes for their commands. -/
theorem workedEncodingsDecode : Obligations.WorkedEncodingsDecode := by
  unfold Obligations.WorkedEncodingsDecode
  simp only [decode_eq_ok_iff]
  decide

/-! ## The fields of an encoded instruction -/

theorem operandFields_eq (i : Instr) :
    i.operandFields = (fieldRd (encode i), fieldRa (encode i), fieldRb (encode i)) := by
  cases i <;> simp (disch := omega) [encode, fields_of_packFields, Instr.operandFields]

/-- R86: the curve commands are the opcodes `0x30` to `0x3A`. -/
theorem isCurve_iff_fieldOp (i : Instr) :
    i.isCurve = true ↔ 0x30 ≤ fieldOp (encode i) ∧ fieldOp (encode i) ≤ 0x3A := by
  cases i <;> simp (disch := omega) [encode, fields_of_packFields, Instr.isCurve]

theorem wellFormed_iff {c : Cfg} {i : Instr} : i.wellFormed c = true ↔ ¬(c.hasCurve = false ∧ i.isCurve = true) := by
  cases h : i.isCurve <;> simp [Instr.wellFormed, h]

/-! ## The opcode map -/

/-- R85: every instruction fits the row with its mnemonic. -/
theorem encode_fits_row (i : Instr) : EncodeFits.Statement i := by
  cases i with
  | nop => exact EncodeFits.nop
  | clrerr => exact EncodeFits.clrerr
  | srst => exact EncodeFits.srst
  | isprime ra => exact EncodeFits.isprime ra
  | fnew rd ra rb => exact EncodeFits.fnew rd ra rb
  | fmov rd ra => exact EncodeFits.fmov rd ra
  | fzero rd ra => exact EncodeFits.fzero rd ra
  | fone rd ra => exact EncodeFits.fone rd ra
  | feq ra rb => exact EncodeFits.feq ra rb
  | fadd rd ra rb => exact EncodeFits.fadd rd ra rb
  | fsub rd ra rb => exact EncodeFits.fsub rd ra rb
  | fmul rd ra rb => exact EncodeFits.fmul rd ra rb
  | fsqr rd ra => exact EncodeFits.fsqr rd ra
  | fexp rd ra rb => exact EncodeFits.fexp rd ra rb
  | finv rd ra => exact EncodeFits.finv rd ra
  | fdiv rd ra rb => exact EncodeFits.fdiv rd ra rb
  | pnew rd ra rb => exact EncodeFits.pnew rd ra rb
  | pset rd ra rb => exact EncodeFits.pset rd ra rb
  | pgen rd => exact EncodeFits.pgen rd
  | pinf rd => exact EncodeFits.pinf rd
  | pmov rd ra => exact EncodeFits.pmov rd ra
  | pgetx rd ra => exact EncodeFits.pgetx rd ra
  | pgety rd ra => exact EncodeFits.pgety rd ra
  | peq ra rb => exact EncodeFits.peq ra rb
  | pdbl rd ra => exact EncodeFits.pdbl rd ra
  | padd rd ra rb => exact EncodeFits.padd rd ra rb
  | pmul rd ra rb => exact EncodeFits.pmul rd ra rb

/-- Each row of the map fixes the whole opcode and the whole `zero` field; its match has no bit but the opcode's. -/
theorem opcodeTable_columns : ∀ r ∈ opcodeTable,
    r.mask.extractLsb' 24 8 = .allOnes 8 ∧ r.mask.extractLsb' 0 12 = .allOnes 12 ∧ r.bits.extractLsb' 0 12 = 0 ∧
    r.bits.extractLsb' 20 4 = 0 ∧ r.bits.extractLsb' 16 4 = 0 ∧ r.bits.extractLsb' 12 4 = 0 := by decide

theorem opcodeTable_opcodes_distinct :
    opcodeTable.Pairwise fun r q => r.bits.extractLsb' 24 8 ≠ q.bits.extractLsb' 24 8 := by decide

theorem opcodeTable_mnemonics_nodup : (opcodeTable.map OpRow.mnemonic).Nodup := by decide

/-- A field of a mask with no common bit adds to the field of the word without a carry out of the field. -/
theorem field_lt_of_and_eq_zero {n : Nat} {x m : BitVec n} (h : x &&& m = 0) : x.toNat < 2 ^ n - m.toNat := by
  have hsum := (x + m).isLt
  rw [BitVec.toNat_add_of_and_eq_zero h] at hsum
  omega

theorem index8_of_lt {f : Nat} (h : f < 8) : index8 f = .ok ⟨f, h⟩ := dif_pos h

theorem index4_of_lt {f : Nat} (h : f < 4) : index4 f = .ok ⟨f, h⟩ := dif_pos h

section Covers

variable {r : OpRow} {w : Word32}

theorem extract_and_of_covers (h : r.covers w = true) (s l : Nat) :
    w.extractLsb' s l &&& r.mask.extractLsb' s l = r.bits.extractLsb' s l := by
  rw [← BitVec.extractLsb'_and, of_decide_eq_true h]

theorem extract_opcode_of_covers (hr : r ∈ opcodeTable) (h : r.covers w = true) :
    w.extractLsb' 24 8 = r.bits.extractLsb' 24 8 := by
  obtain ⟨hop, -⟩ := opcodeTable_columns r hr
  rw [← extract_and_of_covers h, hop, BitVec.and_allOnes]

/-- The fields of a word a row covers: the row's opcode, operands the mask leaves room for, and a zero `zero` field. -/
theorem fields_of_covers (hr : r ∈ opcodeTable) (h : r.covers w = true) :
    fieldOp w = (r.bits.extractLsb' 24 8).toNat ∧ fieldZero w = 0 ∧
    fieldRd w < 2 ^ 4 - (r.mask.extractLsb' 20 4).toNat ∧ fieldRa w < 2 ^ 4 - (r.mask.extractLsb' 16 4).toNat ∧
    fieldRb w < 2 ^ 4 - (r.mask.extractLsb' 12 4).toNat := by
  obtain ⟨-, hmask, hzero, hrd, hra, hrb⟩ := opcodeTable_columns r hr
  have hand := extract_and_of_covers h
  refine ⟨congrArg BitVec.toNat (extract_opcode_of_covers hr h), ?_,
    field_lt_of_and_eq_zero ((hand 20 4).trans hrd), field_lt_of_and_eq_zero ((hand 16 4).trans hra),
    field_lt_of_and_eq_zero ((hand 12 4).trans hrb)⟩
  have hz : w.extractLsb' 0 12 = 0 := by rw [← hzero, ← hand, hmask, BitVec.and_allOnes]
  rw [fieldZero, hz]; rfl

/-- Row by row, the opcode selects the row's format and the operands are what that format accepts. -/
theorem exists_decodeRow_of_covers (hr : r ∈ opcodeTable) (h : r.covers w = true) :
    ∃ i, decodeRow w = .ok i ∧ i.mnemonic = r.mnemonic := by
  obtain ⟨hop, hz, hrd, hra, hrb⟩ := fields_of_covers hr h
  simp only [opcodeTable, List.cons_append, List.nil_append, List.mem_cons, List.not_mem_nil, or_false] at hr
  rcases hr with rfl | rfl | rfl | rfl | rfl | rfl | rfl | rfl | rfl | rfl | rfl | rfl | rfl | rfl | rfl | rfl | rfl |
    rfl | rfl | rfl | rfl | rfl | rfl | rfl | rfl | rfl | rfl
  all_goals
    simp only [BitVec.reduceExtractLsb', BitVec.reduceToNat, Nat.reducePow, Nat.reduceSub, Nat.lt_one_iff]
      at hop hrd hra hrb
    simp [decodeRow, hop, hz, hrd, hra, hrb, index8_of_lt, index4_of_lt, formatZ_eq_ok, formatD_eq_ok,
      formatA_eq_ok, formatDA_eq_ok, formatAB_eq_ok, formatDAB_eq_ok, Instr.mnemonic]

theorem covers_iff_decodeRow (hr : r ∈ opcodeTable) :
    r.covers w = true ↔ ∃ i, decodeRow w = .ok i ∧ i.mnemonic = r.mnemonic := by
  refine ⟨exists_decodeRow_of_covers hr, ?_⟩
  rintro ⟨i, hi, hm⟩
  obtain ⟨q, hq, hqi, hcov⟩ := encode_fits_row i
  obtain rfl : q = r := List.inj_on_of_nodup_map opcodeTable_mnemonics_nodup hq hr (hqi.trans hm)
  rwa [encode_of_decodeRow hi] at hcov

end Covers

/-- R85, "The rows are disjoint": a covered word has the row's opcode, and the opcodes differ. -/
theorem opcodeTable_disjoint :
    opcodeTable.Pairwise fun r q => ∀ w, ¬(r.covers w = true ∧ q.covers w = true) :=
  opcodeTable_opcodes_distinct.imp_of_mem fun hr hq hne _ ⟨hcr, hcq⟩ =>
    hne ((extract_opcode_of_covers hr hcr).symm.trans (extract_opcode_of_covers hq hcq))

/-- Settles O49: a word that decodes is an encoded instruction, which fits its row and has its operands as fields. -/
theorem decodeMatchesOpcodeTable : Obligations.DecodeMatchesOpcodeTable := by
  refine ⟨rfl, opcodeTable_disjoint, fun w r hr => covers_iff_decodeRow hr, fun w i hi => ?_, fun c w i => ?_⟩
  · obtain rfl := encode_of_decodeRow hi
    obtain ⟨r, hr, hm, hcov⟩ := encode_fits_row i
    exact ⟨⟨r, hr, hcov, hm⟩, operandFields_eq i⟩
  · rw [decode_eq_ok]
    refine and_congr_right fun hi => ?_
    obtain rfl := encode_of_decodeRow hi
    rw [wellFormed_iff, isCurve_iff_fieldOp]
    rfl

end Sys2Proof

/-! 30_encoding.md R94: the pseudo-instructions FDBL and FNEG as their expansions run. -/

namespace Sys2Proof.Machine

/-! ## A field command on valid operands -/

section FieldCommands

variable {s : State} {rd ra rb : FIdx} {a b r : FieldElement}

theorem fieldOp1_eq_ok {f : FieldElement → Except ErrorKind FieldElement} (ha : s.fval ra = some a)
    (hf : f a = .ok r) : fieldOp1 s rd ra f = .ok (setF s rd r) := by
  simp only [fieldOp1, readF_eq_ok.2 ha, ok_bind, hf, pure_eq_ok]

theorem fieldOp2_eq_ok {f : FieldElement → FieldElement → Except ErrorKind FieldElement} (ha : s.fval ra = some a)
    (hb : s.fval rb = some b) (hf : f a b = .ok r) : fieldOp2 s rd ra rb f = .ok (setF s rd r) := by
  simp only [fieldOp2, readF_eq_ok.2 ha, readF_eq_ok.2 hb, ok_bind, hf, pure_eq_ok]

theorem exec_fzero (hr : Running s) (ha : s.fval ra = some a) :
    exec (.fzero rd ra) s = .next (setF s rd ⟨0, a.m⟩) :=
  exec_completes id hr rfl (fieldOp1_eq_ok ha rfl)

theorem exec_fadd (hr : Running s) (ha : s.fval ra = some a) (hb : s.fval rb = some b) (h : fadd s.cfg a b = .ok r) :
    exec (.fadd rd ra rb) s = .next (setF s rd r) :=
  exec_completes id hr rfl (fieldOp2_eq_ok ha hb h)

theorem exec_fsub (hr : Running s) (ha : s.fval ra = some a) (hb : s.fval rb = some b) (h : fsub s.cfg a b = .ok r) :
    exec (.fsub rd ra rb) s = .next (setF s rd r) :=
  exec_completes id hr rfl (fieldOp2_eq_ok ha hb h)

end FieldCommands

theorem setF_setF_same (s : State) (i : FIdx) (a b : FieldElement) : setF (setF s i a) i b = setF s i b := by
  simp only [setF, Vector.set_set]

/-! ## Their values -/

section Values

variable {c : Cfg} {a : FieldElement}

theorem elementInv_zero (h : ElementInv c a) : ElementInv c ⟨0, a.m⟩ := by
  obtain ⟨hv, hp, hm⟩ := h
  exact ⟨(Nat.zero_le _).trans_lt hv, hp, hm⟩

theorem fadd_self (h : ElementInv c a) :
    fadd c a a = .ok ⟨BitVec.ofNat 256 (2 * a.v.toNat % a.m.toNat), a.m⟩ := by
  rw [fadd_eq h h rfl, Nat.two_mul]

/-- Zero minus an element is its additive inverse. -/
theorem fsub_zero_left (h : ElementInv c a) :
    fsub c ⟨0, a.m⟩ a = .ok ⟨BitVec.ofNat 256 ((a.m.toNat - a.v.toNat) % a.m.toNat), a.m⟩ := by
  rw [fsub_eq (elementInv_zero h) h rfl]
  simp

end Values

end Sys2Proof.Machine

namespace Sys2Proof

open Machine

/-- Settles O51: FZERO leaves the zero of `F[ra]`'s field in `F[rd]` and `F[ra]` as it was, so FSUB negates. -/
theorem pseudoInstructionsDoubleAndNegate : Obligations.PseudoInstructionsDoubleAndNegate := by
  intro s rd ra a hs hr ha
  have hinv := hs.fields ra a ha
  refine ⟨⟨rfl, exec_fadd hr ha ha (fadd_self hinv)⟩, ?_, fun hne => ⟨?_, setF s rd ⟨0, a.m⟩, exec_fzero hr ha, ?_⟩⟩
  · simp [Pseudo.expand, Pseudo.wellFormed]
  · simp [Pseudo.expand, Pseudo.wellFormed, hne]
  · have hra : (setF s rd ⟨0, a.m⟩).fval ra = some a := (fval_setF_other s _ hne).trans ha
    rw [exec_fsub (s := setF s rd ⟨0, a.m⟩) hr (fval_setF_same s rd _) hra (fsub_zero_left hinv), setF_setF_same]
    rfl

end Sys2Proof

/-! 40_wideint.md R101, R102 and R104: the sum with its carry, the difference with its borrow, and the bit test. -/

namespace Sys2Proof.Machine

section Primitives

variable {W a b : Nat}

theorem oadd_fst (W a b : Nat) : (oadd W a b).1 = (a + b) % 2 ^ W := rfl

theorem oadd_carry_iff (W a b : Nat) : (oadd W a b).2 = true ↔ 2 ^ W ≤ a + b := decide_eq_true_iff

theorem osub_fst_lt (W a b : Nat) : (osub W a b).1 < 2 ^ W := Nat.mod_lt _ (Nat.two_pow_pos W)

theorem osub_borrow_iff (W a b : Nat) : (osub W a b).2 = true ↔ a < b := decide_eq_true_iff

/-- The carry is the digit above the sum's `W` bits: two `W`-bit operands carry at most once. -/
theorem oadd_carry_toNat (ha : a < 2 ^ W) (hb : b < 2 ^ W) : (oadd W a b).2.toNat = (a + b) / 2 ^ W := by
  by_cases h : 2 ^ W ≤ a + b
  · have hdiv : (a + b) / 2 ^ W = 1 := Nat.div_eq_of_lt_le (by omega) (by omega)
    rw [(oadd_carry_iff W a b).2 h, hdiv, Bool.toNat_true]
  · have hcarry : (oadd W a b).2 = false := by rwa [← Bool.not_eq_true, oadd_carry_iff]
    rw [hcarry, Nat.div_eq_of_lt (by omega), Bool.toNat_false]

/-- The equation of R101. -/
theorem add_eq_oadd (ha : a < 2 ^ W) (hb : b < 2 ^ W) :
    a + b = (oadd W a b).1 + (oadd W a b).2.toNat * 2 ^ W := by
  rw [oadd_fst, oadd_carry_toNat ha hb, Nat.mod_add_div']

/-- A difference that borrows; `osub_of_le` is the one that does not. -/
theorem osub_of_lt (h : a < b) (hb : b < 2 ^ W) : osub W a b = (a + 2 ^ W - b, true) := by
  simp only [osub, Prod.mk.injEq, decide_eq_true_eq]
  exact ⟨Nat.mod_eq_of_lt (by omega), h⟩

/-- The equation of R102. -/
theorem sub_eq_osub (ha : a < 2 ^ W) (hb : b < 2 ^ W) :
    (a : Int) - b = (osub W a b).1 - (osub W a b).2.toNat * 2 ^ W := by
  rcases Nat.lt_or_ge a b with h | h
  · rw [osub_of_lt h hb, Bool.toNat_true]
    push_cast [show b ≤ a + 2 ^ W by omega]
    ring
  · rw [osub_of_le h ha, Bool.toNat_false]
    push_cast [h]
    ring

end Primitives

theorem bitAt_eq_testBit (a i : Nat) : bitAt a i = a.testBit i := Nat.testBit_eq_decide_div_mod_eq.symm

end Sys2Proof.Machine

namespace Sys2Proof

open Machine

/-- Settles O19: the carry is the quotient of `a + b` by `2 ^ W`, and a difference that borrows has `2 ^ W` added. -/
theorem overflowDetectingPrimitives : Obligations.OverflowDetectingPrimitives := by
  refine ⟨fun W a b ha hb => ⟨oadd_fst W a b, oadd_carry_iff W a b, add_eq_oadd ha hb, osub_fst_lt W a b,
    osub_borrow_iff W a b, sub_eq_osub ha hb⟩, fun a i => ⟨bitAt_eq_testBit a i, ?_⟩⟩
  rw [bitAt_eq_testBit, Nat.toNat_testBit]

end Sys2Proof

/-! 41_primality.md: what each step of the Primality Tester answers (R121 to R125), that every prime passes
(R126 (a)), and the command ISPRIME (R128). -/

namespace Sys2Proof.Machine

/-! ## The trivial cases, R121 -/

theorem isPrime_of_lt_two {n : Nat} (h : n < 2) : isPrime n = false := if_pos h

theorem isPrime_small : ∀ n ∈ [2, 3, 5], isPrime n = true := by decide

theorem isPrime_of_even {n : Nat} (hn : n ∉ [2, 3, 5]) (heven : n % 2 = 0) : isPrime n = false := by
  simp only [List.mem_cons, List.not_mem_nil, or_false] at hn
  simp [isPrime, hn, heven]

/-- What passes the trivial cases. -/
theorem odd_and_seven_le {n : Nat} (h2 : ¬n < 2) (hn : n ∉ [2, 3, 5]) (hodd : ¬n % 2 = 0) : n % 2 = 1 ∧ 7 ≤ n := by
  simp only [List.mem_cons, List.not_mem_nil, or_false] at hn
  omega

/-! ## The decomposition, R122 -/

/-- With fuel for at least `s` halvings the loop stops at the odd part. -/
theorem tzLoop_two_pow_mul_odd {d : Nat} (hd : d % 2 = 1) :
    ∀ {s fuel : Nat}, s ≤ fuel → tzLoop fuel (2 ^ s * d) = s
  | 0, 0, _ => rfl
  | 0, fuel + 1, _ => by simp [tzLoop, hd]
  | s + 1, fuel + 1, h => by
    have hhalf : 2 ^ (s + 1) * d = 2 * (2 ^ s * d) := by rw [pow_succ', Nat.mul_assoc]
    rw [tzLoop, hhalf, if_pos (Nat.mul_mod_right _ _), Nat.mul_div_cancel_left _ Nat.two_pos,
      tzLoop_two_pow_mul_odd hd (Nat.le_of_succ_le_succ h)]

theorem tz_two_pow_mul_odd {s d : Nat} (hd : d % 2 = 1) : tz (2 ^ s * d) = s := by
  have hpos : 0 < d := by omega
  have hle : 2 ^ s ≤ 2 ^ s * d := Nat.le_mul_of_pos_right _ hpos
  exact tzLoop_two_pow_mul_odd hd ((Nat.le_log2 (by positivity)).2 hle)

/-! ## The bases, R123 -/

/-- From below, with enough fuel, the loop climbs to Mathlib's `Nat.clog`. -/
theorem clog10Loop_eq_clog {n : Nat} :
    ∀ {fuel c : Nat}, c ≤ Nat.clog 10 n → Nat.clog 10 n ≤ c + fuel → clog10Loop n fuel c = Nat.clog 10 n
  | 0, c, hc, hfuel => Nat.le_antisymm hc hfuel
  | fuel + 1, c, hc, hfuel => by
    have hstop : n ≤ 10 ^ c ↔ Nat.clog 10 n ≤ c := (Nat.clog_le_iff_le_pow (by decide)).symm
    rw [clog10Loop]
    split
    · next h => exact Nat.le_antisymm hc (hstop.1 h)
    · next h =>
      rw [hstop] at h
      exact clog10Loop_eq_clog (by omega) (by omega)

theorem clog10_eq_clog (n : Nat) : clog10 n = Nat.clog 10 n := by
  have hn : n ≤ 10 ^ (n.log2 + 1) := Nat.lt_log2_self.le.trans (Nat.pow_le_pow_left (by decide) _)
  exact clog10Loop_eq_clog (Nat.zero_le _) (by simpa using Nat.clog_le_of_le_pow hn)

theorem clog10_le_iff {n c : Nat} : clog10 n ≤ c ↔ n ≤ 10 ^ c := by
  rw [clog10_eq_clog, Nat.clog_le_iff_le_pow (by decide)]

theorem mem_witnessBases {n a : Nat} : a ∈ witnessBases n ↔ 2 ≤ a ∧ a ≤ clog10 n + 1 + 1 := by
  simp only [witnessBases, List.mem_map, List.mem_range]
  exact ⟨fun ⟨i, hi, hia⟩ => by omega, fun ⟨h2, hle⟩ => ⟨a - 2, by omega, by omega⟩⟩

/-- "Every base satisfies `2 <= a <= k + 1 < n`" (R123). -/
theorem clog10_add_two_lt {n : Nat} (h : 7 ≤ n) : clog10 n + 1 + 1 < n := by
  obtain ⟨m, rfl⟩ : ∃ m, n = m + 4 := ⟨n - 4, by omega⟩
  have hpow : m < 10 ^ m := Nat.lt_pow_self (by decide)
  have hclog : clog10 (m + 4) ≤ m + 1 := clog10_le_iff.2 (by rw [pow_succ]; omega)
  omega

/-! ## The witness loop, R124 -/

theorem sq_mod_pow_mod (n x r : Nat) : (x * x % n) ^ 2 ^ r % n = x ^ 2 ^ (r + 1) % n := by
  rw [← Nat.pow_mod, ← sq, ← pow_mul, ← pow_succ']

/-- Once a squaring gives 1 all later ones do, so stopping there loses no `n - 1`. -/
theorem squareLoop_iff {n : Nat} (hn : 3 ≤ n) (fuel x : Nat) :
    squareLoop n fuel x = true ↔ ∃ r, r < fuel ∧ x ^ 2 ^ (r + 1) % n = n - 1 := by
  induction fuel generalizing x with
  | zero => simp [squareLoop]
  | succ fuel ih =>
    have hfirst : x ^ 2 ^ (0 + 1) % n = x * x % n := by rw [zero_add, pow_one, sq]
    rw [Nat.exists_lt_succ_left, hfirst, squareLoop]
    by_cases hlast : x * x % n = n - 1
    · simp [hlast]
    · have hrest : (∃ r, r < fuel ∧ x ^ 2 ^ (r + 1 + 1) % n = n - 1) ↔ squareLoop n fuel (x * x % n) = true := by
        simp only [ih, sq_mod_pow_mod]
      by_cases hone : x * x % n = 1
      · have hnever : squareLoop n fuel 1 ≠ true := by
          rw [Ne, ih]
          rintro ⟨r, -, hr⟩
          rw [one_pow, Nat.mod_eq_of_lt (by omega)] at hr
          omega
        have hne : ¬1 = n - 1 := by omega
        rw [hrest, hone]
        simp [hne, hnever]
      · simp [hlast, hone, hrest]

/-- The condition R124 tests of the base `a`, with `n - 1 = 2 ^ s * d`. -/
def StrongProbablePrime (n s d a : Nat) : Prop :=
  a ^ d % n = 1 ∨ ∃ r, r < s ∧ a ^ (2 ^ r * d) % n = n - 1

theorem basePasses_iff {n s : Nat} (hn : 3 ≤ n) (hs : 0 < s) (d a : Nat) :
    basePasses n s d a = true ↔ StrongProbablePrime n s d a := by
  obtain ⟨t, rfl⟩ := Nat.exists_eq_add_one.2 hs
  have hpow : ∀ r, (a ^ d % n) ^ 2 ^ (r + 1) % n = a ^ (2 ^ (r + 1) * d) % n := fun r => by
    rw [← Nat.pow_mod, ← pow_mul, Nat.mul_comm]
  have hloop := squareLoop_iff hn t (a ^ d % n)
  simp only [hpow] at hloop
  rw [StrongProbablePrime, Nat.exists_lt_succ_left, pow_zero, one_mul, ← hloop, basePasses, powMod_eq,
    Nat.add_sub_cancel]
  by_cases h : a ^ d % n = 1 ∨ a ^ d % n = n - 1
  · rcases h with h | h <;> simp [h]
  · simp [not_or.1 h]

/-! ## The verdict, R125 -/

theorem isPrime_iff_strongProbablePrime {n s d : Nat} (hn : 7 ≤ n) (hodd : n % 2 = 1) (hdec : n - 1 = 2 ^ s * d)
    (hd : d % 2 = 1) :
    isPrime n = true ↔ ∀ a, 2 ≤ a → a ≤ clog10 n + 1 + 1 → StrongProbablePrime n s d a := by
  have hs : 0 < s := by
    rcases s with _ | s
    · rw [pow_zero, one_mul] at hdec; omega
    · exact Nat.succ_pos s
  have htz : tz (n - 1) = s := hdec ▸ tz_two_pow_mul_odd hd
  have hdiv : (n - 1) / 2 ^ s = d := by rw [hdec, Nat.mul_div_cancel_left _ (Nat.two_pow_pos s)]
  have hloop : isPrime n = (witnessBases n).all (basePasses n s d) := by
    rw [isPrime, if_neg (by omega), if_neg (by omega), if_neg (by omega)]
    simp only [htz, hdiv]
  have hbase := basePasses_iff (by omega : 3 ≤ n) hs d
  simp only [hloop, List.all_eq_true, mem_witnessBases, hbase, and_imp]

/-! ## Every prime passes, R126 (a) -/

/-- Where 1 has no square roots but 1 and -1, a `2 ^ s`-th root of 1 is 1 or squares to -1 on the way. -/
theorem eq_one_or_pow_eq_neg_one {R : Type} [Ring R] [NoZeroDivisors R] {x : R} {s : Nat} (h : x ^ 2 ^ s = 1) :
    x = 1 ∨ ∃ r, r < s ∧ x ^ 2 ^ r = -1 := by
  induction s with
  | zero => exact .inl (by simpa using h)
  | succ s ih =>
    rw [pow_succ, pow_mul, sq, mul_self_eq_one_iff] at h
    rcases h with h | h
    · exact (ih h).imp_right fun ⟨r, hr, hx⟩ => ⟨r, hr.trans s.lt_succ_self, hx⟩
    · exact .inr ⟨s, s.lt_succ_self, h⟩

/-- A residue below `n`, read off in `ZMod n`. -/
theorem mod_eq_iff_natCast_eq {n b : Nat} (hb : b < n) (a : Nat) : a % n = b ↔ (a : ZMod n) = b := by
  rw [ZMod.natCast_eq_natCast_iff', Nat.mod_eq_of_lt hb]

theorem strongProbablePrime_of_prime {n s d a : Nat} (hp : n.Prime) (hdec : n - 1 = 2 ^ s * d) (ha : 0 < a)
    (han : a < n) : StrongProbablePrime n s d a := by
  have : Fact n.Prime := ⟨hp⟩
  have hminus : ((n - 1 : Nat) : ZMod n) = -1 := by simp [Nat.cast_sub hp.one_le]
  have hne : (a : ZMod n) ≠ 0 := by
    rw [Ne, ZMod.natCast_eq_zero_iff]
    exact Nat.not_dvd_of_pos_of_lt ha han
  have hfermat : ((a : ZMod n) ^ d) ^ 2 ^ s = 1 := by
    rw [← pow_mul, Nat.mul_comm, ← hdec, ZMod.pow_card_sub_one_eq_one hne]
  refine (eq_one_or_pow_eq_neg_one hfermat).imp (fun h => ?_) fun ⟨r, hr, h⟩ => ⟨r, hr, ?_⟩
  · rw [mod_eq_iff_natCast_eq hp.one_lt, Nat.cast_pow, h, Nat.cast_one]
  · rw [mod_eq_iff_natCast_eq (Nat.sub_lt hp.pos one_pos), hminus, Nat.cast_pow, Nat.mul_comm, pow_mul, h]

theorem isPrime_of_prime {n : Nat} (hp : n.Prime) : isPrime n = true := by
  by_cases hsmall : n ∈ [2, 3, 5]
  · exact isPrime_small n hsmall
  · have hne : n ≠ 2 := fun h => hsmall (by simp [h])
    have hrest : ¬n % 2 = 0 := by simp [hp.eq_two_or_odd.resolve_left hne]
    obtain ⟨hodd, h7⟩ := odd_and_seven_le hp.two_le.not_gt hsmall hrest
    obtain ⟨s, d, hd, hdec⟩ := Nat.exists_eq_two_pow_mul_odd (n := n - 1) (by omega)
    refine (isPrime_iff_strongProbablePrime h7 hodd hdec (Nat.odd_iff.1 hd)).2 fun a h2 hle => ?_
    exact strongProbablePrime_of_prime hp hdec (by omega) (hle.trans_lt (clog10_add_two_lt h7))

/-! ## The command, R128 -/

theorem bodyOf_isprime {s : State} {ra : SIdx} {n : WideInt} (h : s.sval ra = some n) :
    bodyOf s (.isprime ra) = .ok (setPrime s (isPrime n.toNat)) := by
  simp only [bodyOf, readS_eq_ok.2 h, ok_bind, pure_eq_ok]

end Sys2Proof.Machine

namespace Sys2Proof

open Machine

/-- Settles O7: `clog10` is `Nat.clog 10`, and the loop over the bases tests the condition squaring by squaring. -/
theorem witnessLoopDecidesStrongProbablePrimes : Obligations.WitnessLoopDecidesStrongProbablePrimes :=
  ⟨fun _ => ⟨clog10_le_iff.1 le_rfl, fun _ => clog10_le_iff.2⟩,
    fun _ _ _ => isPrime_iff_strongProbablePrime⟩

/-- Settles O8: by Fermat, and 1 and -1 being the only square roots of 1 modulo a prime. -/
theorem everyPrimeIsAccepted : Obligations.EveryPrimeIsAccepted := fun _ => isPrime_of_prime

/-- Settles O5: the command completes with the body that reads one valid operand. -/
theorem isprimeWritesItsVerdict : Obligations.IsprimeWritesItsVerdict := fun _ _ _ hr h =>
  exec_completes id hr rfl (bodyOf_isprime h)

/-- Settles O6: the tests of R121 in their order; the last clause is arithmetic. -/
theorem trivialPrimalityCases : Obligations.TrivialPrimalityCases :=
  ⟨fun _ => isPrime_of_lt_two, isPrime_small 2 (by decide), isPrime_small 3 (by decide), isPrime_small 5 (by decide),
    fun _ => isPrime_of_even, fun _ => odd_and_seven_le⟩

end Sys2Proof

/-! 42_field_construct.md, with the errors of 45_field_exp.md: the construction of an element, copies and constants,
equality, and which error each field command records. -/

namespace Sys2Proof.Machine

/-! ## The unit functions, verdict by verdict -/

theorem fnew_of_accepted (v : WideInt) {m : WideInt} (h : isPrime m.toNat = true) :
    fnew v m = .ok ⟨BitVec.ofNat 256 (v.toNat % m.toNat), m⟩ :=
  if_pos h

theorem fnew_of_rejected (v : WideInt) {m : WideInt} (h : isPrime m.toNat = false) : fnew v m = .error .notPrime :=
  fnew_error.2 ⟨h, rfl⟩

theorem fmul_of_ne {a b : FieldElement} (h : a.m ≠ b.m) : fmul a b = .error .fieldMismatch := by
  simp only [fmul, fieldGuard_of_ne h, error_bind]

/-- The guard comes before the inverse, so the divisor does not matter (R197). -/
theorem fdiv_of_ne (c : Cfg) {a b : FieldElement} (h : a.m ≠ b.m) : fdiv c a b = .error .fieldMismatch := by
  simp only [fdiv, fieldGuard_of_ne h, error_bind]

theorem fdiv_of_zero (c : Cfg) {a b : FieldElement} (hm : a.m = b.m) (h0 : b.v = 0) :
    fdiv c a b = .error .notInvertible := by
  have hguard : fieldGuard a b = .ok () := if_pos hm
  simp only [fdiv, hguard, ok_bind, finv_of_zero c h0, error_bind]

theorem feq_iff (a b : FieldElement) : feq a b = true ↔ a.v = b.v ∧ a.m = b.m := decide_eq_true_iff

/-! ## The commands on valid sources -/

section Bodies

variable {s : State} {rd fa fb : FIdx} {a b : FieldElement} {k : ErrorKind}

theorem bodyOf_fnew {ra rb : SIdx} {v m : WideInt} (hv : s.sval ra = some v) (hm : s.sval rb = some m) :
    bodyOf s (.fnew rd ra rb) = (do let r ← fnew v m; return setF s rd r) := by
  simp only [bodyOf, readS_eq_ok.2 hv, readS_eq_ok.2 hm, ok_bind]

theorem bodyOf_feq (ha : s.fval fa = some a) (hb : s.fval fb = some b) :
    bodyOf s (.feq fa fb) = .ok (setEq s (feq a b)) := by
  simp only [bodyOf, readF_eq_ok.2 ha, readF_eq_ok.2 hb, ok_bind, pure_eq_ok]

theorem fieldOp1_eq_error {f : FieldElement → Except ErrorKind FieldElement} (ha : s.fval fa = some a)
    (hf : f a = .error k) : fieldOp1 s rd fa f = .error k := by
  simp only [fieldOp1, readF_eq_ok.2 ha, ok_bind, hf, error_bind]

theorem fieldOp2_eq_error {f : FieldElement → FieldElement → Except ErrorKind FieldElement} (ha : s.fval fa = some a)
    (hb : s.fval fb = some b) (hf : f a b = .error k) : fieldOp2 s rd fa fb f = .error k := by
  simp only [fieldOp2, readF_eq_ok.2 ha, readF_eq_ok.2 hb, ok_bind, hf, error_bind]

/-- `exec_raises` in the words of the statements; the kind is explicit, as they write its code as a number. -/
theorem exec_withError (k) {i : Instr} (ha : ¬alwaysExecuted i) (hr : Running s)
    (hw : i.wellFormed s.cfg = true) (hb : bodyOf s i = .error k) :
    exec i s = .next (withError s k.code (encode i)) :=
  exec_raises ha hr hw hb

end Bodies

end Sys2Proof.Machine

namespace Sys2Proof

open Machine

/-- Settles O9: after the two reads the command is `fnew`, which completes or raises by the verdict on the modulus. -/
theorem fnewReducesOrRaisesNotPrime : Obligations.FnewReducesOrRaisesNotPrime := by
  intro s rd ra rb v m hr hv hm
  refine ⟨fun hp => exec_completes id hr rfl ?_, fun hp => exec_withError .notPrime id hr rfl ?_⟩
  · rw [bodyOf_fnew hv hm, fnew_of_accepted v hp]
    rfl
  · rw [bodyOf_fnew hv hm, fnew_of_rejected v hp]
    rfl

/-- Settles O18: the guard of each two-operand function raises on different moduli; past it only a zero divisor does. -/
theorem fieldErrorsAreRaised : Obligations.FieldErrorsAreRaised := by
  intro s rd ra rb a b hr ha hb
  refine ⟨fun hne => ⟨?_, ?_, ?_, ?_⟩, fun hm h0 => ?_, fun h0 => ?_⟩
  · exact exec_withError .fieldMismatch id hr rfl (fieldOp2_eq_error ha hb (fadd_of_ne s.cfg hne))
  · exact exec_withError .fieldMismatch id hr rfl (fieldOp2_eq_error ha hb (fsub_of_ne s.cfg hne))
  · exact exec_withError .fieldMismatch id hr rfl (fieldOp2_eq_error ha hb (fmul_of_ne hne))
  · exact exec_withError .fieldMismatch id hr rfl (fieldOp2_eq_error ha hb (fdiv_of_ne s.cfg hne))
  · exact exec_withError .notInvertible id hr rfl (fieldOp2_eq_error ha hb (fdiv_of_zero s.cfg hm h0))
  · exact exec_withError .notInvertible id hr rfl (fieldOp1_eq_error ha (finv_of_zero s.cfg h0))

/-- Settles O10: each command's function of its one source cannot fail. -/
theorem fieldCopiesAndConstants : Obligations.FieldCopiesAndConstants := fun _ _ _ _ hr ha =>
  ⟨exec_completes id hr rfl (fieldOp1_eq_ok ha rfl), exec_fzero hr ha,
    exec_completes id hr rfl (fieldOp1_eq_ok ha rfl)⟩

/-- Settles O11: `feq` is the decided conjunction, and the command's body ends with it. -/
theorem feqComparesValueAndModulus : Obligations.FeqComparesValueAndModulus :=
  ⟨feq_iff, fun _ _ _ _ _ hr ha hb => exec_completes id hr rfl (bodyOf_feq ha hb)⟩

end Sys2Proof

/-! 43_field_addsub.md: the overflow-safe sum, the additive inverse, and the two commands within one field. -/

namespace Sys2Proof.Machine

/-! ## The integers, R161, R162 and R165 -/

section Integers

variable {W a b m : Nat}

/-- R161: `MAX - m`, which the correction constant exceeds by one, and no borrow. -/
theorem max_osub (h : m ≤ 2 ^ W - 1) : osub W (2 ^ W - 1) m = (2 ^ W - 1 - m, false) :=
  osub_of_le h (Nat.sub_one_lt_of_lt (Nat.two_pow_pos W))

/-- A carry out of the sum of two operands takes `2 ^ W` off it. -/
theorem oadd_fst_of_carry (ha : a < 2 ^ W) (hb : b < 2 ^ W) (h : (oadd W a b).2 = true) :
    (oadd W a b).1 = a + b - 2 ^ W := by
  have hsum := add_eq_oadd ha hb
  rw [h, Bool.toNat_true] at hsum
  omega

/-- R162: with the correction the sum is `a + b - m`, which is at most `m`. -/
theorem no_second_carry (hm : m ≤ 2 ^ W - 1) (ha : a ≤ m) (hb : b ≤ m) (h : (oadd W a b).2 = true) :
    (oadd W (oadd W a b).1 ((osub W (2 ^ W - 1) m).1 + 1)).2 = false := by
  have hpos := Nat.two_pow_pos W
  have hcarry := (oadd_carry_iff W a b).1 h
  rw [oadd_fst_of_carry (by omega) (by omega) h, max_osub hm, ← Bool.not_eq_true, oadd_carry_iff]
  dsimp only
  omega

theorem negRaw_eq (hb : b ≤ m) (hm : m < 2 ^ W) : negRaw W b m = m - b := by
  rw [negRaw, osub_of_le hb hm]

/-- The natural difference, offset by the modulus so that it is not truncated, against the integer one. -/
theorem natCast_add_sub_mod (a : Nat) (hb : b ≤ m) : (((a + m - b) % m : Nat) : Int) = ((a : Int) - b) % m := by
  rw [Int.natCast_emod, Nat.cast_sub (hb.trans (Nat.le_add_left m a)), Nat.cast_add, add_sub_right_comm,
    Int.add_emod_right]

end Integers

end Sys2Proof.Machine

namespace Sys2Proof

open Machine

/-- Settles O20: the correction constant by R161's difference, the sum by `addMod_eq`, and R162's second addition. -/
theorem modularAdditionIsExact : Obligations.ModularAdditionIsExact := by
  intro W a b m h2 hm ha hb
  refine ⟨?_, addMod_eq h2 hm ha hb, no_second_carry hm ha hb⟩
  have hk : 2 ^ W - 1 - m + 1 = 2 ^ W - m := by omega
  have hlt : 2 ^ W - 1 - m + 1 < 2 ^ W := by omega
  rw [max_osub hm]
  exact ⟨hk, Nat.sub_le_sub_left h2 _, rfl, hlt⟩

/-- Settles O21: the inverse does not borrow, and adding it offsets the difference by the modulus. -/
theorem subtractionAddsTheAdditiveInverse : Obligations.SubtractionAddsTheAdditiveInverse := by
  refine ⟨fun W b m hb hm => ?_, fun c a b ha hb hm => ?_⟩
  · rw [negRaw_eq hb.le hm, osub_of_le hb.le hm]
    exact ⟨rfl, Nat.sub_pos_of_lt hb, Nat.sub_le m b, fun h0 => by rw [h0, Nat.sub_zero], rfl⟩
  · have hbm : b.v.toNat < a.m.toNat := hm ▸ hb.1
    have hmod := Nat.mod_lt (a.v.toNat + a.m.toNat - b.v.toNat) (Nat.zero_lt_of_lt hbm)
    refine ⟨_, fsub_eq ha hb hm, rfl, toNat_of_lt a.m hmod, ?_⟩
    rw [toNat_of_lt a.m hmod, natCast_add_sub_mod _ hbm.le]

/-- Settles O12: both sources meet R25, so the unit's answer is the sum by its value. -/
theorem faddAddsModuloM : Obligations.FaddAddsModuloM := fun _ _ ra rb a b hs hr ha hb hm =>
  exec_fadd hr ha hb (fadd_eq (hs.fields ra a ha) (hs.fields rb b hb) hm)

/-- Settles O13: both sources meet R25, so the unit's answer is the difference by its value. -/
theorem fsubSubtractsModuloM : Obligations.FsubSubtractsModuloM := fun _ _ ra rb a b hs hr ha hb hm =>
  exec_fsub hr ha hb (fsub_eq (hs.fields ra a ha) (hs.fields rb b hb) hm)

end Sys2Proof

/-! 44_field_mul.md: the double-and-add loop iteration by iteration, and the two commands within one field. -/

namespace Sys2Proof.Machine

/-! ## The loop of R180 -/

section Loop

variable {W a b m : Nat}

/-- The pair (`result`, `base`) that the induction of R181 names before iteration `i`. -/
def partialProduct (a b m i : Nat) : Nat × Nat := (a * (b % 2 ^ i) % m, a * 2 ^ i % m)

theorem partialProduct_zero (b : Nat) (ha : a < m) : partialProduct a b m 0 = (0, a) := by
  simp [partialProduct, Nat.mod_one, Nat.mod_eq_of_lt ha]

theorem partialProduct_lt (a b i : Nat) (hm : 0 < m) :
    (partialProduct a b m i).1 < m ∧ (partialProduct a b m i).2 < m :=
  ⟨Nat.mod_lt _ hm, Nat.mod_lt _ hm⟩

/-- R181: both operands are below `m`, so the adder meets R160's precondition. -/
theorem addMod_mod (h2 : 2 ≤ m) (hm : m < 2 ^ W) (x y : Nat) : addMod W (x % m) (y % m) m = (x + y) % m := by
  have hpos : 0 < m := Nat.zero_lt_of_lt h2
  rw [addMod_eq h2 (Nat.le_sub_one_of_lt hm) (Nat.mod_lt x hpos).le (Nat.mod_lt y hpos).le, ← Nat.add_mod]

/-- Bit `i` is the top digit of the low `i + 1` bits. -/
theorem mod_two_pow_succ_eq_ite (b i : Nat) :
    b % 2 ^ (i + 1) = if bitAt b i then b % 2 ^ i + 2 ^ i else b % 2 ^ i := by
  rw [Nat.mod_pow_succ, bitAt]
  rcases Nat.mod_two_eq_zero_or_one (b / 2 ^ i) with h | h <;> simp [h]

/-- One iteration of R180. -/
theorem mulModLoop_iteration (h2 : 2 ≤ m) (hm : m < 2 ^ W) (n i : Nat) :
    mulModLoop W b m (n + 1) i (partialProduct a b m i) =
      mulModLoop W b m n (i + 1) (partialProduct a b m (i + 1)) := by
  have hresult : (if bitAt b i then addMod W (a * (b % 2 ^ i) % m) (a * 2 ^ i % m) m else a * (b % 2 ^ i) % m) =
      a * (b % 2 ^ (i + 1)) % m := by
    rw [addMod_mod h2 hm, ← Nat.mul_add, mod_two_pow_succ_eq_ite]
    split <;> rfl
  have hbase : addMod W (a * 2 ^ i % m) (a * 2 ^ i % m) m = a * 2 ^ (i + 1) % m := by
    rw [addMod_mod h2 hm, ← Nat.mul_add, ← Nat.two_pow_succ]
  rw [partialProduct, mulModLoop, hresult, hbase, partialProduct]

/-- R181, by induction on the iterations. -/
theorem mulModLoop_eq (h2 : 2 ≤ m) (hm : m < 2 ^ W) (n i : Nat) :
    mulModLoop W b m n i (partialProduct a b m i) = partialProduct a b m (i + n) := by
  induction n generalizing i with
  | zero => rfl
  | succ n ih => rw [mulModLoop_iteration h2 hm, ih, Nat.add_assoc, Nat.add_comm 1]

theorem mulModLoop_from_start (h2 : 2 ≤ m) (hm : m < 2 ^ W) (ha : a < m) (n : Nat) :
    mulModLoop W b m n 0 (0, a) = partialProduct a b m n := by
  rw [← partialProduct_zero b ha, mulModLoop_eq h2 hm, Nat.zero_add]

/-- After all `W` iterations no bit of `b` is left. -/
theorem mulModDoubleAndAdd_eq (h2 : 2 ≤ m) (hm : m < 2 ^ W) (ha : a < m) (hb : b < m) :
    mulModDoubleAndAdd W a b m = mulMod a b m := by
  rw [mulModDoubleAndAdd, mulModLoop_from_start h2 hm ha, partialProduct, Nat.mod_eq_of_lt (hb.trans hm), mulMod]

end Loop

/-! ## The commands on valid sources -/

section Commands

variable {s : State} {rd ra rb : FIdx} {a b r : FieldElement}

theorem fsqr_eq (a : FieldElement) : fsqr a = .ok ⟨BitVec.ofNat 256 (a.v.toNat ^ 2 % a.m.toNat), a.m⟩ := by
  rw [fsqr, fmul_eq rfl, sq]

theorem exec_fmul (hr : Running s) (ha : s.fval ra = some a) (hb : s.fval rb = some b) (h : fmul a b = .ok r) :
    exec (.fmul rd ra rb) s = .next (setF s rd r) :=
  exec_completes id hr rfl (fieldOp2_eq_ok ha hb h)

theorem exec_fsqr (hr : Running s) (ha : s.fval ra = some a) (h : fsqr a = .ok r) :
    exec (.fsqr rd ra) s = .next (setF s rd r) :=
  exec_completes id hr rfl (fieldOp1_eq_ok ha h)

end Commands

end Sys2Proof.Machine

namespace Sys2Proof

open Machine

/-- Settles O22: every iteration takes R181's pair to the next one, and the last has all of `b` in it. -/
theorem multiplierLoopComputesProduct : Obligations.MultiplierLoopComputesProduct := by
  intro W a b m h2 hm ha hb
  refine ⟨mulModDoubleAndAdd_eq h2 hm ha hb, rfl, fun i _ => ?_⟩
  rw [mulModLoop_from_start h2 hm ha]
  exact ⟨rfl, partialProduct_lt a b i (Nat.zero_lt_of_lt h2)⟩

/-- Settles O14: the guard passes one modulus, and a square is a product of an element with itself. -/
theorem fmulAndFsqrMultiplyModuloM : Obligations.FmulAndFsqrMultiplyModuloM := fun _ _ _ _ a _ hr ha hb =>
  ⟨fun hm => exec_fmul hr ha hb (fmul_eq hm), exec_fsqr hr ha (fsqr_eq a)⟩

end Sys2Proof

/-! 45_field_exp.md: the reduced exponent of R192 against the true power, Fermat's inverse of R195, and the three
commands on the sources that R194, R196 and R198 let complete. -/

namespace Sys2Proof.Machine

/-! ## The integers: powers modulo a prime (R192), and cancelling an inverse -/

section Modular

variable {a m : Nat}

/-- R192 (a): modulo a prime, reducing the exponent by `m - 1` does not change a non-zero element's power. -/
theorem pow_mod_exponent (hp : m.Prime) (h0 : a ≠ 0) (ha : a < m) (e : Nat) :
    a ^ (e % (m - 1)) % m = a ^ e % m := by
  rw [← Nat.totient_prime hp, ← Nat.pow_totient_mod hp.one_lt (Nat.coprime_of_lt_prime h0 ha hp).symm]

/-- Where R191's `EXP0` stands in for the power to the exponent 0, the true power of a non-zero element is 1. -/
theorem pow_mod_eq_one (hp : m.Prime) (h0 : a ≠ 0) (ha : a < m) {e : Nat} (he : e % (m - 1) = 0) : a ^ e % m = 1 := by
  rw [← pow_mod_exponent hp h0 ha, he, pow_zero, Nat.mod_eq_of_lt hp.one_lt]

/-- R198: a product with the inverse of `y` is undone by `y`. -/
theorem mul_mod_mul_mod_of_inverse {x y i : Nat} (hx : x < m) (hi : y * i % m = 1) : x * i % m * y % m = x := by
  calc x * i % m * y % m = x * (y * i % m) % m := by
        rw [Nat.mod_mul_mod, Nat.mul_mod_mod, Nat.mul_assoc, Nat.mul_comm i]
    _ = x := by rw [hi, Nat.mul_one, Nat.mod_eq_of_lt hx]

end Modular

/-! ## The two branches of the exponentiation, R192 -/

section Exponentiation

variable {c : Cfg} {a e m : Nat}

theorem expMod_of_ne_zero (h2 : 2 ≤ m) (hm : m < 2 ^ c.W) (h : e % (m - 1) ≠ 0) :
    expMod c a e m = a ^ (e % (m - 1)) % m := by
  rw [expMod_eq h2 hm, if_neg h]

theorem expMod_of_eq_zero (h2 : 2 ≤ m) (hm : m < 2 ^ c.W) (h : e % (m - 1) = 0) : expMod c a e m = c.EXP0 := by
  rw [expMod_eq h2 hm, if_pos h]

end Exponentiation

/-! ## The inverse, R195 -/

/-- For a prime of at least 3 the exponent `m - 2` is not 0, and one more factor makes it Fermat's `m - 1`. -/
theorem mul_inverseValue_mod {c : Cfg} {b : FieldElement} (hb : ElementInv c b) (h0 : b.v ≠ 0)
    (hp : b.m.toNat.Prime) (h3 : 3 ≤ b.m.toNat) :
    b.v.toNat * inverseValue c b % b.m.toNat = 1 := by
  have hv : b.v.toNat ≠ 0 := BitVec.toNat_ne_iff_ne.2 h0
  have hexp : b.m.toNat - 2 + 1 = b.m.toNat - 1 := by omega
  rw [inverseValue, if_neg (by omega), Nat.mul_mod_mod, ← pow_succ', hexp]
  exact pow_mod_eq_one hp hv hb.1 (Nat.mod_self _)

/-! ## The commands on valid sources -/

section Commands

variable {s : State} {rd ra rb : FIdx} {a b r : FieldElement}

theorem bodyOf_fexp {rk : SIdx} {e : WideInt} (ha : s.fval ra = some a) (he : s.sval rk = some e) :
    bodyOf s (.fexp rd ra rk) = .ok (setF s rd (fexp s.cfg a e.toNat)) := by
  simp only [bodyOf, readF_eq_ok.2 ha, readS_eq_ok.2 he, ok_bind, pure_eq_ok]

theorem exec_finv (hr : Running s) (ha : s.fval ra = some a) (h : finv s.cfg a = .ok r) :
    exec (.finv rd ra) s = .next (setF s rd r) :=
  exec_completes id hr rfl (fieldOp1_eq_ok ha h)

theorem exec_fdiv (hr : Running s) (ha : s.fval ra = some a) (hb : s.fval rb = some b) (h : fdiv s.cfg a b = .ok r) :
    exec (.fdiv rd ra rb) s = .next (setF s rd r) :=
  exec_completes id hr rfl (fieldOp2_eq_ok ha hb h)

end Commands

end Sys2Proof.Machine

namespace Sys2Proof

open Machine

/-- Settles O23: the ladder by `expMod_eq`; modulo a prime, Fermat relates the reduced exponent to the true power. -/
theorem exponentiationComputesReducedPower : Obligations.ExponentiationComputesReducedPower := by
  intro c a e m h2 hm ha
  refine ⟨expMod_of_ne_zero h2 hm, expMod_of_eq_zero h2 hm, fun hp h0 hr => ?_, ?_,
    fun hp hr hpos => ⟨fun h0 => pow_mod_eq_one hp h0 ha hr, ?_⟩⟩
  · rw [expMod_of_ne_zero h2 hm hr, pow_mod_exponent hp h0 ha]
  · rintro rfl hr
    have he : e ≠ 0 := fun h => hr (by rw [h, Nat.zero_mod])
    rw [expMod_of_ne_zero h2 hm hr, zero_pow hr, zero_pow he, Nat.zero_mod]
    exact ⟨rfl, rfl⟩
  · rintro rfl
    rw [zero_pow hpos.ne', Nat.zero_mod]

/-- Settles O15: the base meets R25, so the unit's answer is the power by its value. -/
theorem fexpRaisesToTheReducedExponent : Obligations.FexpRaisesToTheReducedExponent := by
  intro s rd ra rb a e hs hr ha he
  rw [exec_completes id hr rfl (bodyOf_fexp ha he), fexp_eq (hs.fields ra a ha)]
  rfl

/-- Settles O16: the unit answers `inverseValue`, which is below the modulus and Fermat's inverse. -/
theorem finvInvertsNonzeroElements : Obligations.FinvInvertsNonzeroElements := by
  intro s rd ra a hs hr ha h0
  have hinv := hs.fields ra a ha
  have hval := toNat_of_lt a.m (inverseValue_lt hinv)
  refine ⟨_, exec_finv hr ha (finv_eq hinv h0), rfl, hval, fun hp h3 => ?_⟩
  rw [hval, mul_inverseValue_mod hinv h0 hp h3]

/-- Settles O17: the unit answers the product with the divisor's `inverseValue`, which the divisor cancels. -/
theorem fdivDividesWithinOneField : Obligations.FdivDividesWithinOneField := by
  intro s rd ra rb a b hs hr ha hb hm h0
  have hainv := hs.fields ra a ha
  have hbinv := hs.fields rb b hb
  have hpos := Nat.zero_lt_of_lt hainv.1
  have hval := toNat_of_lt a.m (Nat.mod_lt (a.v.toNat * inverseValue s.cfg b) hpos)
  refine ⟨_, exec_fdiv hr ha hb (fdiv_eq hbinv hm h0), rfl, hval, fun hp h3 => ?_⟩
  have hcancel : b.v.toNat * inverseValue s.cfg b % a.m.toNat = 1 := by
    rw [hm] at hp h3 ⊢
    exact mul_inverseValue_mod hbinv h0 hp h3
  rw [hval, mul_mod_mul_mod_of_inverse hainv.1 hcancel]

end Sys2Proof

/-! 46_point_construct.md: points from raw integers and from elements, the two named points, copies and coordinates,
and equality. -/

namespace Sys2Proof.Machine

/-- Construction over the domain prime cannot fail, as the Primality Tester accepts it (10_state.md R36). -/
theorem fnew_domainP (v : WideInt) :
    fnew v domainP = .ok ⟨BitVec.ofNat 256 (v.toNat % domainP.toNat), domainP⟩ :=
  fnew_of_accepted v isPrime_domainP

/-- R213, integer by integer. -/
theorem peq_iff (P Q : Point) :
    peq P Q = true ↔ P.x.v = Q.x.v ∧ P.x.m = Q.x.m ∧ P.y.v = Q.y.v ∧ P.y.m = Q.y.m := by
  rw [peq, Bool.and_eq_true, feq_iff, feq_iff, and_assoc]

theorem peq_eq_decide (P Q : Point) : peq P Q = decide (P = Q) :=
  Bool.eq_iff_iff.2 ((peq_iff_eq P Q).trans decide_eq_true_iff.symm)

/-! ## The commands on valid sources -/

section Bodies

variable {s : State} {rd pa pb : PIdx} {fd fa fb : FIdx} {sa sb : SIdx} {P Q : Point}

theorem bodyOf_pnew {u v : WideInt} (hu : s.sval sa = some u) (hv : s.sval sb = some v) :
    bodyOf s (.pnew rd sa sb) = .ok (setP s rd
      ⟨⟨BitVec.ofNat 256 (u.toNat % domainP.toNat), domainP⟩,
       ⟨BitVec.ofNat 256 (v.toNat % domainP.toNat), domainP⟩⟩) := by
  simp only [bodyOf, readS_eq_ok.2 hu, readS_eq_ok.2 hv, fnew_domainP, ok_bind, pure_eq_ok]

theorem bodyOf_pset {x y : FieldElement} (hx : s.fval fa = some x) (hy : s.fval fb = some y) :
    bodyOf s (.pset rd fa fb) = .ok (setP s rd ⟨x, y⟩) := by
  simp only [bodyOf, readF_eq_ok.2 hx, readF_eq_ok.2 hy, ok_bind, pure_eq_ok]

theorem bodyOf_pmov (h : s.pval pa = some P) : bodyOf s (.pmov rd pa) = .ok (setP s rd P) := by
  simp only [bodyOf, readP_eq_ok.2 h, ok_bind, pure_eq_ok]

theorem bodyOf_pgetx (h : s.pval pa = some P) : bodyOf s (.pgetx fd pa) = .ok (setF s fd P.x) := by
  simp only [bodyOf, readP_eq_ok.2 h, ok_bind, pure_eq_ok]

theorem bodyOf_pgety (h : s.pval pa = some P) : bodyOf s (.pgety fd pa) = .ok (setF s fd P.y) := by
  simp only [bodyOf, readP_eq_ok.2 h, ok_bind, pure_eq_ok]

theorem bodyOf_peq (hP : s.pval pa = some P) (hQ : s.pval pb = some Q) :
    bodyOf s (.peq pa pb) = .ok (setEq s (decide (P = Q))) := by
  simp only [bodyOf, readP_eq_ok.2 hP, readP_eq_ok.2 hQ, peq_eq_decide, ok_bind, pure_eq_ok]

end Bodies

end Sys2Proof.Machine

namespace Sys2Proof

open Machine

/-- Settles O25: both constructions are over the domain prime, so neither raises NotPrime. -/
theorem pnewReducesModuloDomainPrime : Obligations.PnewReducesModuloDomainPrime := fun _ _ _ _ _ _ hr hc hu hv =>
  exec_completes id hr hc (bodyOf_pnew hu hv)

/-- Settles O26: PSET needs its two sources, PGEN and PINF need none, and none of the three can raise. -/
theorem psetPgenPinfConstruct : Obligations.PsetPgenPinfConstruct := fun _ _ _ _ _ _ hr hc =>
  ⟨fun hx hy => exec_completes id hr hc (bodyOf_pset hx hy), exec_completes id hr hc rfl,
    exec_completes id hr hc rfl⟩

/-- Settles O27: after the one read each command writes the point or the coordinate it names. -/
theorem pointCopiesAndCoordinates : Obligations.PointCopiesAndCoordinates := fun _ _ _ _ _ hr hc hP =>
  ⟨exec_completes id hr hc (bodyOf_pmov hP), exec_completes id hr hc (bodyOf_pgetx hP),
    exec_completes id hr hc (bodyOf_pgety hP)⟩

/-- Settles O28: `feq` on each coordinate gives the four integers, which are the whole of a point. -/
theorem peqComparesAllFourIntegers : Obligations.PeqComparesAllFourIntegers :=
  ⟨fun P Q => ⟨rfl, peq_iff P Q⟩, fun _ _ _ _ _ hr hc hP hQ => exec_completes id hr hc (bodyOf_peq hP hQ)⟩

end Sys2Proof

/-! 47_point_dbl_add.md over one field: the elements of a modulus are the residues `ZMod m`, on which each unit of the
Prime Field Engine is the ring's own operation, and the group law is its formulas in that ring. -/

namespace Sys2Proof.Machine

/-! ## Elements as residues -/

/-- The element over `m` that stands for a residue modulo `m`. -/
def elementOf (m : WideInt) (z : ZMod m.toNat) : FieldElement := ⟨toWide z.val, m⟩

/-- The point with both coordinates over `m`. -/
def pointOf (m : WideInt) (x y : ZMod m.toNat) : Point := ⟨elementOf m x, elementOf m y⟩

/-- The element by any natural number that stands for the residue: how the units write their results. -/
theorem elementOf_eq {m : WideInt} {n : Nat} {z : ZMod m.toNat} (h : (n : ZMod m.toNat) = z) :
    elementOf m z = ⟨BitVec.ofNat 256 (n % m.toNat), m⟩ := by
  rw [← h, elementOf, ZMod.val_natCast, toWide]

/-- Every reduced element stands for the residue of its value. -/
theorem eq_elementOf {a : FieldElement} (h : a.v.toNat < a.m.toNat) :
    a = elementOf a.m (a.v.toNat : ZMod a.m.toNat) := by
  rw [elementOf_eq rfl, Nat.mod_eq_of_lt h, BitVec.ofNat_toNat, BitVec.setWidth_eq]

/-- Two reduced coordinates over one modulus. -/
theorem eq_pointOf {P : Point} {m : WideInt} (hxm : P.x.m = m) (hym : P.y.m = m) (hx : P.x.v.toNat < m.toNat)
    (hy : P.y.v.toNat < m.toNat) : P = pointOf m P.x.v.toNat P.y.v.toNat := by
  obtain ⟨⟨xv, m⟩, ⟨yv, n⟩⟩ := P
  subst hxm
  obtain rfl : n = m := hym
  exact congrArg₂ Point.mk (eq_elementOf hx) (eq_elementOf hy)

theorem natCast_modulus_sub {m n : Nat} (h : n ≤ m) : ((m - n : Nat) : ZMod m) = -(n : ZMod m) := by
  rw [Nat.cast_sub h, ZMod.natCast_self, zero_sub]

section Residues

variable {m : WideInt} [NeZero m.toNat] {x y : ZMod m.toNat}

theorem toNat_elementOf (x : ZMod m.toNat) : (elementOf m x).v.toNat = x.val := toNat_of_lt m (ZMod.val_lt x)

@[simp] theorem natCast_elementOf (x : ZMod m.toNat) : ((elementOf m x).v.toNat : ZMod m.toNat) = x := by
  rw [toNat_elementOf, ZMod.natCast_zmod_val]

theorem elementOf_v_lt (x : ZMod m.toNat) : (elementOf m x).v.toNat < m.toNat :=
  (toNat_elementOf x).trans_lt (ZMod.val_lt x)

/-- The additive inverse of R165. -/
theorem natCast_modulus_sub_elementOf (x : ZMod m.toNat) :
    ((m.toNat - (elementOf m x).v.toNat : ℕ) : ZMod m.toNat) = -x := by
  rw [natCast_modulus_sub (elementOf_v_lt x).le, natCast_elementOf]

theorem elementOf_inj : elementOf m x = elementOf m y ↔ x = y := by
  refine ⟨fun h => ?_, congrArg _⟩
  rw [← natCast_elementOf x, h, natCast_elementOf]

theorem elementOf_v_eq_zero : (elementOf m x).v = 0 ↔ x = 0 := by
  rw [← ZMod.val_eq_zero, ← toNat_elementOf x]
  exact BitVec.toNat_inj.symm

end Residues

/-! ## The Prime Field Engine on residues -/

theorem neZero_of_modulusOf {c : Cfg} {m : WideInt} (hm : ModulusOf c m) : NeZero m.toNat :=
  ⟨Nat.ne_zero_of_lt (two_le_of_isPrime hm.1)⟩

/-- R195: what the inverter answers for a non-zero residue. -/
def inverseOf (c : Cfg) (m : WideInt) (z : ZMod m.toNat) : ZMod m.toNat :=
  if m.toNat = 2 then (c.EXP0 : ZMod m.toNat) else z ^ (m.toNat - 2)

section Engine

variable {c : Cfg} {m : WideInt} (hm : ModulusOf c m)
include hm

theorem elementInv_elementOf (x : ZMod m.toNat) : ElementInv c (elementOf m x) := by
  have := neZero_of_modulusOf hm
  exact ⟨elementOf_v_lt x, hm⟩

theorem fadd_elementOf (x y : ZMod m.toNat) : fadd c (elementOf m x) (elementOf m y) = .ok (elementOf m (x + y)) := by
  have := neZero_of_modulusOf hm
  have hsum : ((elementOf m x).v.toNat + (elementOf m y).v.toNat : ℕ) = x + y := by simp
  rw [fadd_eq (elementInv_elementOf hm x) (elementInv_elementOf hm y) rfl, elementOf_eq hsum]
  rfl

theorem fsub_elementOf (x y : ZMod m.toNat) : fsub c (elementOf m x) (elementOf m y) = .ok (elementOf m (x - y)) := by
  have := neZero_of_modulusOf hm
  have hdiff : ((elementOf m x).v.toNat + m.toNat - (elementOf m y).v.toNat : ℕ) = x - y := by
    rw [Nat.add_sub_assoc (elementOf_v_lt y).le, Nat.cast_add, natCast_modulus_sub_elementOf, natCast_elementOf,
      sub_eq_add_neg]
  rw [fsub_eq (elementInv_elementOf hm x) (elementInv_elementOf hm y) rfl, elementOf_eq hdiff]
  rfl

theorem fmul_elementOf (x y : ZMod m.toNat) : fmul (elementOf m x) (elementOf m y) = .ok (elementOf m (x * y)) := by
  have := neZero_of_modulusOf hm
  have hprod : ((elementOf m x).v.toNat * (elementOf m y).v.toNat : ℕ) = x * y := by simp
  rw [elementOf_eq hprod]
  exact fmul_eq rfl

theorem natCast_inverseValue (y : ZMod m.toNat) :
    (inverseValue c (elementOf m y) : ZMod m.toNat) = inverseOf c m y := by
  have := neZero_of_modulusOf hm
  by_cases h : m.toNat = 2
  · have hval : inverseValue c (elementOf m y) = c.EXP0 := if_pos h
    rw [hval, inverseOf, if_pos h]
  · have hval : inverseValue c (elementOf m y) = (elementOf m y).v.toNat ^ (m.toNat - 2) % m.toNat := if_neg h
    rw [hval, inverseOf, if_neg h, ZMod.natCast_mod, Nat.cast_pow, natCast_elementOf]

theorem fdiv_elementOf (x : ZMod m.toNat) {y : ZMod m.toNat} (h0 : y ≠ 0) :
    fdiv c (elementOf m x) (elementOf m y) = .ok (elementOf m (x * inverseOf c m y)) := by
  have := neZero_of_modulusOf hm
  have hprod : ((elementOf m x).v.toNat * inverseValue c (elementOf m y) : ℕ) = x * inverseOf c m y := by
    rw [Nat.cast_mul, natCast_elementOf, natCast_inverseValue hm]
  rw [elementOf_eq hprod]
  exact fdiv_eq (elementInv_elementOf hm y) rfl (mt elementOf_v_eq_zero.1 h0)

end Engine

end Sys2Proof.Machine

/-! 47_point_dbl_add.md R230 to R235: doubling and addition branch by branch, and the two commands. -/

namespace Sys2Proof.Machine

theorem isInf_iff (P : Point) : isInf P = true ↔ P.x.v = 0 ∧ P.y.v = 0 := decide_eq_true_iff

/-- The third point of R230 and R232: on the line of slope `lam` through a point with coordinates `x₁` and `y₁` and one
with first coordinate `x₂`, mirrored. -/
def linePoint (m : WideInt) (lam x₁ x₂ y₁ : ZMod m.toNat) : Point :=
  pointOf m (lam * lam - x₁ - x₂) (lam * (x₁ - (lam * lam - x₁ - x₂)) - y₁)

/-! ## Doubling, R230 -/

section Doubling

variable {c : Cfg} {P : Point} {m n : WideInt}

theorem pdbl_of_vertical (c : Cfg) (h : P.y.v = 0) : pdbl c P = .ok pointInf := if_pos h

section OneField

variable (hm : ModulusOf c m) {x y : ZMod m.toNat}
include hm

/-- The slope's numerator is `3x²` and its denominator `2y`, both by additions. -/
theorem pdbl_tangent (hy : y ≠ 0) (h2 : y + y ≠ 0) :
    pdbl c (pointOf m x y) = .ok (linePoint m ((x * x + x * x + x * x) * inverseOf c m (y + y)) x x y) := by
  have := neZero_of_modulusOf hm
  simp only [pdbl, pointOf, linePoint, elementOf_v_eq_zero, hy, if_false, fmul_elementOf hm, fadd_elementOf hm,
    fdiv_elementOf hm _ h2, fsub_elementOf hm, ok_bind, pure_eq_ok]

theorem pdbl_of_two_torsion (hy : y ≠ 0) (h2 : y + y = 0) : pdbl c (pointOf m x y) = .error .notInvertible := by
  have := neZero_of_modulusOf hm
  have hdiv : ∀ z, fdiv c (elementOf m z) (elementOf m (y + y)) = .error .notInvertible := fun _ =>
    fdiv_of_zero c rfl (elementOf_v_eq_zero.2 h2)
  simp only [pdbl, pointOf, elementOf_v_eq_zero, hy, if_false, fmul_elementOf hm, fadd_elementOf hm, hdiv, ok_bind,
    error_bind]

end OneField

/-- The numerator is over the modulus of `x`, the denominator over that of `y`. -/
theorem pdbl_of_ne (hm : ModulusOf c m) (hn : ModulusOf c n) (x : ZMod m.toNat) {y : ZMod n.toNat} (hy : y ≠ 0)
    (hne : m ≠ n) : pdbl c ⟨elementOf m x, elementOf n y⟩ = .error .fieldMismatch := by
  have := neZero_of_modulusOf hn
  have hdiv : ∀ z, fdiv c (elementOf m z) (elementOf n (y + y)) = .error .fieldMismatch := fun _ => fdiv_of_ne c hne
  simp only [pdbl, elementOf_v_eq_zero, hy, if_false, fmul_elementOf hm, fadd_elementOf hm, fadd_elementOf hn, hdiv,
    ok_bind, error_bind]

/-- An odd modulus has no element of order two, and 2 is the only even one accepted (41_primality.md R121). -/
theorem modulus_eq_two_of_add_self (hm : ModulusOf c m) {y : ZMod m.toNat} (hy : y ≠ 0) (h2 : y + y = 0) :
    m.toNat = 2 ∧ y.val = 1 := by
  have := neZero_of_modulusOf hm
  have hpos : y.val ≠ 0 := mt (ZMod.val_eq_zero y).1 hy
  have hlt := ZMod.val_lt y
  have hdvd : m.toNat ∣ y.val + y.val := Nat.dvd_of_mod_eq_zero (by rw [← ZMod.val_add, h2, ZMod.val_zero])
  have hsum : y.val + y.val = m.toNat := Nat.eq_of_dvd_of_lt_two_mul (by omega) hdvd (by omega)
  have hmod := two_or_odd_of_isPrime hm.1
  omega

end Doubling

/-! ## Addition, R232 -/

section Addition

variable {c : Cfg} {P Q : Point}

theorem padd_of_opposite (c : Cfg) (hx : P.x = Q.x) (hy : P.y ≠ Q.y) : padd c P Q = .ok pointInf := by
  simp only [padd, (feq_iff_eq _ _).2 hx, feq_of_ne hy, if_true, Bool.false_eq_true, if_false]

theorem padd_of_inf_left (c : Cfg) (hx : P.x ≠ Q.x) (hP : P.x.v = 0 ∧ P.y.v = 0) : padd c P Q = .ok Q := by
  simp only [padd, feq_of_ne hx, (isInf_iff P).2 hP, if_true, Bool.false_eq_true, if_false]

theorem padd_of_inf_right (c : Cfg) (hx : P.x ≠ Q.x) (hP : ¬(P.x.v = 0 ∧ P.y.v = 0)) (hQ : Q.x.v = 0 ∧ Q.y.v = 0) :
    padd c P Q = .ok P := by
  simp only [padd, feq_of_ne hx, isInf_iff, hP, hQ, and_self, if_true, Bool.false_eq_true, if_false]

section ThirdStep

variable (hx : P.x ≠ Q.x) (hP : ¬(P.x.v = 0 ∧ P.y.v = 0)) (hQ : ¬(Q.x.v = 0 ∧ Q.y.v = 0))
include hx hP hQ

theorem padd_eq_chord (c : Cfg) :
    padd c P Q = (do
      let num ← fsub c P.y Q.y
      let den ← fsub c P.x Q.x
      let lam ← fdiv c num den
      let x3 ← fsub c (← fsub c (← fmul lam lam) P.x) Q.x
      let y3 ← fsub c (← fmul lam (← fsub c P.x x3)) P.y
      return ⟨x3, y3⟩) := by
  simp only [padd, feq_of_ne hx, isInf_iff, hP, hQ, Bool.false_eq_true, if_false]

/-- Each of the three slope operations checks one of the three equations. -/
theorem padd_of_ne (hPi : PointInv c P) (hQi : PointInv c Q) (hne : ¬(P.y.m = P.x.m ∧ Q.x.m = P.x.m ∧ Q.y.m = P.x.m)) :
    padd c P Q = .error .fieldMismatch := by
  rw [padd_eq_chord hx hP hQ]
  by_cases hyy : P.y.m = Q.y.m
  · by_cases hxx : P.x.m = Q.x.m
    · have hxy : P.y.m ≠ P.x.m := fun h => hne ⟨h, hxx.symm, hyy.symm.trans h⟩
      have hdiv : ∀ v w, fdiv c ⟨v, P.y.m⟩ ⟨w, P.x.m⟩ = .error .fieldMismatch := fun _ _ => fdiv_of_ne c hxy
      rw [fsub_eq hPi.2 hQi.2 hyy, fsub_eq hPi.1 hQi.1 hxx, ok_bind, ok_bind, hdiv, error_bind]
    · rw [fsub_eq hPi.2 hQi.2 hyy, fsub_of_ne c hxx]
      rfl
  · rw [fsub_of_ne c hyy]
    rfl

end ThirdStep

theorem padd_chord {m : WideInt} (hm : ModulusOf c m) {x₁ y₁ x₂ y₂ : ZMod m.toNat}
    (hx : elementOf m x₁ ≠ elementOf m x₂) (hP : ¬((elementOf m x₁).v = 0 ∧ (elementOf m y₁).v = 0))
    (hQ : ¬((elementOf m x₂).v = 0 ∧ (elementOf m y₂).v = 0)) :
    padd c (pointOf m x₁ y₁) (pointOf m x₂ y₂) =
      .ok (linePoint m ((y₁ - y₂) * inverseOf c m (x₁ - x₂)) x₁ x₂ y₁) := by
  have hden : x₁ - x₂ ≠ 0 := sub_ne_zero.2 fun h => hx (congrArg _ h)
  rw [padd_eq_chord hx hP hQ]
  simp only [pointOf, linePoint, fsub_elementOf hm, fdiv_elementOf hm _ hden, fmul_elementOf hm, ok_bind, pure_eq_ok]

end Addition

/-! ## The commands on valid sources -/

section Commands

variable {s : State} {i : Instr} {rd ra rb : PIdx} {P Q R : Point} {k : ErrorKind} {x : Except ErrorKind Point}

theorem bodyOf_pdbl (hP : s.pval ra = some P) :
    bodyOf s (.pdbl rd ra) = (do let r ← pdbl s.cfg P; return setP s rd r) := by
  simp only [bodyOf, readP_eq_ok.2 hP, ok_bind]

theorem bodyOf_padd (hP : s.pval ra = some P) (hQ : s.pval rb = some Q) :
    bodyOf s (.padd rd ra rb) = (do let r ← padd s.cfg P Q; return setP s rd r) := by
  simp only [bodyOf, readP_eq_ok.2 hP, readP_eq_ok.2 hQ, ok_bind]

theorem bodyOf_pmul {rk : SIdx} {n : WideInt} (hP : s.pval ra = some P) (hn : s.sval rk = some n) :
    bodyOf s (.pmul rd ra rk) = (do let r ← pmul s.cfg P n.toNat; return setP s rd r) := by
  simp only [bodyOf, readP_eq_ok.2 hP, readS_eq_ok.2 hn, ok_bind]

theorem exec_pdbl (hr : Running s) (hc : s.cfg.hasCurve = true) (hP : s.pval ra = some P) (h : pdbl s.cfg P = .ok R) :
    exec (.pdbl rd ra) s = .next (setP s rd R) :=
  exec_completes id hr hc (by rw [bodyOf_pdbl hP, h]; rfl)

theorem exec_pdbl_error (hr : Running s) (hc : s.cfg.hasCurve = true) (hP : s.pval ra = some P)
    (h : pdbl s.cfg P = .error k) : exec (.pdbl rd ra) s = .next (withError s k.code (encode (.pdbl rd ra))) :=
  exec_withError k id hr hc (by rw [bodyOf_pdbl hP, h]; rfl)

theorem exec_padd (hr : Running s) (hc : s.cfg.hasCurve = true) (hP : s.pval ra = some P) (hQ : s.pval rb = some Q)
    (h : padd s.cfg P Q = .ok R) : exec (.padd rd ra rb) s = .next (setP s rd R) :=
  exec_completes id hr hc (by rw [bodyOf_padd hP hQ, h]; rfl)

theorem exec_padd_error (hr : Running s) (hc : s.cfg.hasCurve = true) (hP : s.pval ra = some P)
    (hQ : s.pval rb = some Q) (h : padd s.cfg P Q = .error k) :
    exec (.padd rd ra rb) s = .next (withError s k.code (encode (.padd rd ra rb))) :=
  exec_withError k id hr hc (by rw [bodyOf_padd hP hQ, h]; rfl)

theorem exec_pmul {rk : SIdx} {n : WideInt} (hr : Running s) (hc : s.cfg.hasCurve = true) (hP : s.pval ra = some P)
    (hn : s.sval rk = some n) (h : pmul s.cfg P n.toNat = .ok R) : exec (.pmul rd ra rk) s = .next (setP s rd R) :=
  exec_completes id hr hc (by rw [bodyOf_pmul hP hn, h]; rfl)

theorem exec_pmul_error {rk : SIdx} {n : WideInt} (hr : Running s) (hc : s.cfg.hasCurve = true)
    (hP : s.pval ra = some P) (hn : s.sval rk = some n) (h : pmul s.cfg P n.toNat = .error k) :
    exec (.pmul rd ra rk) s = .next (withError s k.code (encode (.pmul rd ra rk))) :=
  exec_withError k id hr hc (by rw [bodyOf_pmul hP hn, h]; rfl)

end Commands

/-! ## Points of the register file as points over one field -/

section Points

variable {c : Cfg} {P Q : Point} {m : WideInt}

theorem exists_elementOf {a : FieldElement} (h : ElementInv c a) : ∃ m z, ModulusOf c m ∧ a = elementOf m z :=
  ⟨a.m, _, h.2, eq_elementOf h.1⟩

theorem exists_pointOf (hP : PointInv c P) (hm : P.x.m = P.y.m) : ∃ m x y, ModulusOf c m ∧ P = pointOf m x y :=
  ⟨P.x.m, _, _, hP.1.2, eq_pointOf rfl hm.symm hP.1.1 (hm ▸ hP.2.1)⟩

theorem exists_pointOf_two (hP : PointInv c P) (hQ : PointInv c Q) (hPm : P.y.m = P.x.m) (hQx : Q.x.m = P.x.m)
    (hQy : Q.y.m = P.x.m) :
    ∃ m x₁ y₁ x₂ y₂, ModulusOf c m ∧ P = pointOf m x₁ y₁ ∧ Q = pointOf m x₂ y₂ := by
  obtain ⟨m, x₁, y₁, hm, rfl⟩ := exists_pointOf hP hPm.symm
  obtain ⟨n, x₂, y₂, -, rfl⟩ := exists_pointOf hQ (hQx.trans hQy.symm)
  obtain rfl : n = m := hQx
  exact ⟨n, x₁, y₁, x₂, y₂, hm, rfl, rfl⟩

/-- `2y` as the statements write it. -/
theorem add_self_eq_zero_iff [NeZero m.toNat] (y : ZMod m.toNat) :
    y + y = 0 ↔ 2 * (elementOf m y).v.toNat % m.toNat = 0 := by
  rw [← Nat.dvd_iff_mod_eq_zero, ← ZMod.natCast_eq_zero_iff, Nat.cast_mul, natCast_elementOf, Nat.cast_ofNat, two_mul]

end Points

/-! ## The formulas of R230 and R232 on natural numbers -/

section Formulas

variable {c : Cfg} {m : WideInt} (hm : ModulusOf c m)
include hm

/-- How the statements write the third point: each coordinate a remainder, each difference offset by the modulus. -/
theorem linePoint_eq {lam : Nat} {l x₁ x₂ y₁ : ZMod m.toNat} (hlam : (lam : ZMod m.toNat) = l) :
    let u₁ := (elementOf m x₁).v.toNat
    let u₂ := (elementOf m x₂).v.toNat
    let v₁ := (elementOf m y₁).v.toNat
    let x3 := (lam ^ 2 + (m.toNat - u₁) + (m.toNat - u₂)) % m.toNat
    let y3 := (lam * (u₁ + (m.toNat - x3)) + (m.toNat - v₁)) % m.toNat
    linePoint m l x₁ x₂ y₁ = ⟨⟨BitVec.ofNat 256 x3, m⟩, ⟨BitVec.ofNat 256 y3, m⟩⟩ := by
  have := neZero_of_modulusOf hm
  intro u₁ u₂ v₁ x3 y3
  have hx3 : ((lam ^ 2 + (m.toNat - u₁) + (m.toNat - u₂) : ℕ) : ZMod m.toNat) = l * l - x₁ - x₂ := by
    rw [Nat.cast_add, Nat.cast_add, natCast_modulus_sub_elementOf, natCast_modulus_sub_elementOf, Nat.cast_pow, hlam]
    ring
  have hy3 : ((lam * (u₁ + (m.toNat - x3)) + (m.toNat - v₁) : ℕ) : ZMod m.toNat) =
      l * (x₁ - (l * l - x₁ - x₂)) - y₁ := by
    have hlt : x3 < m.toNat := Nat.mod_lt _ (NeZero.pos _)
    rw [Nat.cast_add, Nat.cast_mul, Nat.cast_add, natCast_modulus_sub_elementOf, natCast_modulus_sub hlt.le,
      ZMod.natCast_mod, hx3, hlam, natCast_elementOf]
    ring
  rw [linePoint, pointOf, elementOf_eq hx3, elementOf_eq hy3]

/-- The slope of R230, by the power that stands for the inverse of `2y` (45_field_exp.md R195). -/
theorem tangentSlope_eq (h2 : m.toNat ≠ 2) (x y : ZMod m.toNat) :
    ((3 * (elementOf m x).v.toNat ^ 2 * (2 * (elementOf m y).v.toNat) ^ (m.toNat - 2) % m.toNat : ℕ) : ZMod m.toNat) =
      (x * x + x * x + x * x) * inverseOf c m (y + y) := by
  have := neZero_of_modulusOf hm
  rw [inverseOf, if_neg h2, ZMod.natCast_mod]
  push_cast
  rw [natCast_elementOf, natCast_elementOf]
  ring

/-- The slope of R232. -/
theorem chordSlope_eq (x₁ y₁ x₂ y₂ : ZMod m.toNat) :
    let dx := (elementOf m x₁).v.toNat + (m.toNat - (elementOf m x₂).v.toNat)
    let inv := if m.toNat = 2 then c.EXP0 else dx ^ (m.toNat - 2) % m.toNat
    (((elementOf m y₁).v.toNat + (m.toNat - (elementOf m y₂).v.toNat)) * inv % m.toNat : ℕ) =
      (y₁ - y₂) * inverseOf c m (x₁ - x₂) := by
  have := neZero_of_modulusOf hm
  intro dx inv
  have hsub : ∀ a b : ZMod m.toNat,
      ((elementOf m a).v.toNat + (m.toNat - (elementOf m b).v.toNat) : ℕ) = a - b := fun a b => by
    rw [Nat.cast_add, natCast_modulus_sub_elementOf, natCast_elementOf, sub_eq_add_neg]
  have hinv : (inv : ZMod m.toNat) = inverseOf c m (x₁ - x₂) := by
    simp only [inv, inverseOf]
    split
    · rfl
    · rw [ZMod.natCast_mod, Nat.cast_pow, hsub]
  rw [ZMod.natCast_mod, Nat.cast_mul, hsub, hinv]

end Formulas

/-! ## The outcomes the statements tell apart -/

section Outcomes

variable {s : State} {rd : PIdx} {R : Point} {a b : BitVec 4} {w : Word32}

theorem next_setP_ne_withError (hr : Running s) : (.next (setP s rd R) : Result) ≠ .next (withError s a w) := by
  intro h
  injection h with h
  have herr : s.status.err = true := congrArg (fun t : State => t.status.err) h
  rw [hr] at herr
  cases herr

theorem next_withError_ne (hab : a ≠ b) : (.next (withError s a w) : Result) ≠ .next (withError s b w) := by
  intro h
  injection h with h
  exact hab (congrArg (fun t : State => t.status.ecode) h)

end Outcomes

end Sys2Proof.Machine

namespace Sys2Proof

open Machine

/-- Settles O29: both coordinates are residues of one ring, in which the units compute the tangent formulas. -/
theorem pdblDoubles : Obligations.PdblDoubles := by
  intro s rd ra P hs hr hc hP
  refine ⟨fun h0 => exec_pdbl hr hc hP (pdbl_of_vertical s.cfg h0), fun h0 hxy hne => ?_⟩
  obtain ⟨m, x, y, hm, rfl⟩ := exists_pointOf (hs.points ra P hP) hxy
  have := neZero_of_modulusOf hm
  have hy : y ≠ 0 := mt elementOf_v_eq_zero.2 h0
  have hm2 : m.toNat ≠ 2 := fun h => hne (BitVec.eq_of_toNat_eq h)
  have h2 : y + y ≠ 0 := fun h => hm2 (modulus_eq_two_of_add_self hm hy h).1
  exact exec_pdbl hr hc hP ((pdbl_tangent hm hy h2).trans (congrArg _ (linePoint_eq hm (tangentSlope_eq hm hm2 x y))))

/-- Settles O30: with two moduli the division raises first; over one, only a point of order two stops it. -/
theorem pdblRaisesItsErrors : Obligations.PdblRaisesItsErrors := by
  intro s rd ra P hs hr hc hP
  have hinv := hs.points ra P hP
  refine ⟨fun h0 hne => ?_, fun h0 hxy h2 => ?_, fun h => ?_⟩
  · obtain ⟨x, y⟩ := P
    obtain ⟨m, x, hm, rfl⟩ := exists_elementOf hinv.1
    obtain ⟨n, y, hn, rfl⟩ := exists_elementOf hinv.2
    have := neZero_of_modulusOf hn
    exact exec_pdbl_error hr hc hP (pdbl_of_ne hm hn x (mt elementOf_v_eq_zero.2 h0) hne)
  · obtain ⟨m, x, y, hm, rfl⟩ := exists_pointOf hinv hxy
    have := neZero_of_modulusOf hm
    have hy : y ≠ 0 := mt elementOf_v_eq_zero.2 h0
    have hyy := (add_self_eq_zero_iff y).2 h2
    obtain ⟨hm2, hy1⟩ := modulus_eq_two_of_add_self hm hy hyy
    exact ⟨exec_pdbl_error hr hc hP (pdbl_of_two_torsion hm hy hyy), BitVec.eq_of_toNat_eq hm2,
      BitVec.eq_of_toNat_eq ((toNat_elementOf y).trans hy1)⟩
  · by_cases h0 : P.y.v = 0
    · exact ⟨_, exec_pdbl hr hc hP (pdbl_of_vertical s.cfg h0), hr⟩
    · obtain ⟨hxy, h2⟩ := h.resolve_left h0
      obtain ⟨m, x, y, hm, rfl⟩ := exists_pointOf hinv hxy
      have := neZero_of_modulusOf hm
      exact ⟨_, exec_pdbl hr hc hP
        (pdbl_tangent hm (mt elementOf_v_eq_zero.2 h0) (mt (add_self_eq_zero_iff y).1 h2)), hr⟩

/-- Settles O31: the three steps in their order; the chord is over one modulus, so its units compute in one ring. -/
theorem paddAdds : Obligations.PaddAdds := by
  intro s rd ra rb P Q hs hr hc hP hQ
  refine ⟨fun hx hy R h => ?_, fun hx hy => exec_padd hr hc hP hQ (padd_of_opposite s.cfg hx hy),
    fun hx h => exec_padd hr hc hP hQ (padd_of_inf_left s.cfg hx h),
    fun hx h h' => exec_padd hr hc hP hQ (padd_of_inf_right s.cfg hx h h'), fun hx h h' hPm hQx hQy => ?_⟩
  · obtain rfl : P = Q := congrArg₂ Point.mk hx hy
    exact exec_padd hr hc hP hQ ((padd_self s.cfg P).trans h)
  · obtain ⟨m, x₁, y₁, x₂, y₂, hm, rfl, rfl⟩ :=
      exists_pointOf_two (hs.points ra P hP) (hs.points rb Q hQ) hPm hQx hQy
    exact exec_padd hr hc hP hQ
      ((padd_chord hm hx h h').trans (congrArg _ (linePoint_eq hm (chordSlope_eq hm x₁ y₁ x₂ y₂))))

/-- Settles O32: the chord over one modulus completes, as its points differ in `x`, and over several raises. -/
theorem paddRaisesItsErrors : Obligations.PaddRaisesItsErrors := by
  intro s rd ra rb P Q hs hr hc hP hQ
  have hPi := hs.points ra P hP
  have hQi := hs.points rb Q hQ
  refine ⟨fun k hx hy h => ?_, fun hx h h' => ?_⟩
  · obtain rfl : P = Q := congrArg₂ Point.mk hx hy
    exact exec_padd_error hr hc hP hQ ((padd_self s.cfg P).trans h)
  · by_cases hm : P.y.m = P.x.m ∧ Q.x.m = P.x.m ∧ Q.y.m = P.x.m
    · obtain ⟨hPm, hQx, hQy⟩ := hm
      obtain ⟨m, x₁, y₁, x₂, y₂, hm, rfl, rfl⟩ := exists_pointOf_two hPi hQi hPm hQx hQy
      rw [exec_padd hr hc hP hQ (padd_chord hm hx h h')]
      exact ⟨⟨fun hne => absurd ⟨hPm, hQx, hQy⟩ hne, fun he => absurd he (next_setP_ne_withError hr)⟩,
        next_setP_ne_withError hr⟩
    · rw [exec_padd_error hr hc hP hQ (padd_of_ne hx h h' hPi hQi hm)]
      exact ⟨⟨fun _ => rfl, fun _ => hm⟩, next_withError_ne (by decide)⟩

/-- Settles O33: the branch each case takes; against INF an equal `x` is decided before the identity is looked for. -/
theorem additionCornerCases : Obligations.AdditionCornerCases := by
  intro c P Q
  have hleft : pointInf.x ≠ Q.x → padd c pointInf Q = .ok Q := fun hx => padd_of_inf_left c hx ⟨rfl, rfl⟩
  refine ⟨padd_self c P, padd_of_opposite c, fun h => hleft ?_, fun h => ?_, (padd_self c _).trans (pdbl_inf c),
    fun hx hy => ⟨padd_of_opposite c hx.symm ?_, padd_of_opposite c hx ?_⟩, fun hx hy hm => ⟨hleft ?_, ?_⟩,
    fun h => ⟨pdbl_of_vertical c h, (padd_self c P).trans (pdbl_of_vertical c h)⟩⟩
  · exact h.elim (fun hv => mt (congrArg FieldElement.v) hv.symm) fun hm => mt (congrArg FieldElement.m) hm.symm
  · exact padd_of_inf_right c (mt (congrArg FieldElement.v) h) (fun hP => h hP.1) ⟨rfl, rfl⟩
  · exact mt (congrArg FieldElement.v) hy.symm
  · exact mt (congrArg FieldElement.v) hy
  · exact mt (congrArg FieldElement.m) hm.symm
  · exact padd_of_inf_left c (mt (congrArg FieldElement.m) hm) ⟨hx, hy⟩

end Sys2Proof

/-! 47_point_dbl_add.md R234 on the curve: the formulas of `padd` and `pdbl` are those of Mathlib's group of points. -/

namespace Sys2Proof.Machine

open WeierstrassCurve.Affine (Point.add_some Point.add_of_Y_eq Point.add_self_of_Y_eq Point.zero_def Y_eq_of_X_eq
  slope_of_X_ne slope_of_Y_ne)

/-! ## The domain prime -/

theorem modulusOf_domainP {c : Cfg} (hc : c.hasCurve = true) : ModulusOf c domainP :=
  ⟨isPrime_domainP, by rw [W_of_hasCurve hc]; exact domainP.isLt⟩

theorem domainP_toNat_ne_two : domainP.toNat ≠ 2 := by decide

/-- Over `p` no element but zero is its own inverse, so a tangent with `y` not zero has a slope. -/
theorem add_self_ne_zero {c : Cfg} (hc : c.hasCurve = true) {y : ZMod domainP.toNat} (hy : y ≠ 0) : y + y ≠ 0 :=
  fun h => domainP_toNat_ne_two (modulus_eq_two_of_add_self (modulusOf_domainP hc) hy h).1

theorem pointInf_eq_pointOf : pointInf = pointOf domainP 0 0 := by
  rw [pointOf, elementOf, ZMod.val_zero]
  rfl

section Prime

variable [Fact domainP.toNat.Prime] {c : Cfg}

/-- Fermat: the power `p - 2` is the inverse (45_field_exp.md R195). -/
theorem inverseOf_domainP {z : ZMod domainP.toNat} (hz : z ≠ 0) : inverseOf c domainP z = z⁻¹ := by
  have hp : 2 ≤ domainP.toNat := (Fact.out : domainP.toNat.Prime).two_le
  rw [inverseOf, if_neg domainP_toNat_ne_two]
  refine eq_inv_of_mul_eq_one_left ?_
  rw [← pow_succ, show domainP.toNat - 2 + 1 = domainP.toNat - 1 by omega, ZMod.pow_card_sub_one_eq_one hz]

/-- By Euler's criterion, with the power evaluated. -/
theorem seven_not_square : ¬IsSquare (7 : ZMod domainP.toNat) := by
  have hcast : ((7 : ℕ) : ZMod domainP.toNat) = 7 := Nat.cast_ofNat
  have h0 : (7 : ZMod domainP.toNat) ≠ 0 := by
    rw [← hcast, Ne, ZMod.natCast_eq_zero_iff]
    decide
  have hpow : 7 ^ (domainP.toNat / 2) % domainP.toNat ≠ 1 := by
    rw [← powMod_eq]
    decide +kernel
  rw [ZMod.euler_criterion _ h0, ← hcast, ← Nat.cast_pow, ← Nat.cast_one, ← mod_eq_iff_natCast_eq (by decide)]
  exact hpow

end Prime

/-! ## Points of the curve -/

theorem represents_zero_iff {P : Point} : Represents P 0 ↔ P = pointInf := Iff.rfl

section Curve

variable [Fact domainP.toNat.Prime] {c : Cfg} {P Q : Point} {x x₁ x₂ y y₁ y₂ : ZMod domainP.toNat}

theorem represents_some_iff {h : secpCurve.Nonsingular x y} : Represents P (.some x y h) ↔ P = pointOf domainP x y := by
  refine ⟨fun ⟨hxm, hym, hx, hy, hxv, hyv⟩ => ?_, ?_⟩
  · rw [← hxv, ← hyv]
    exact eq_pointOf hxm hym hx hy
  · rintro rfl
    exact ⟨rfl, rfl, elementOf_v_lt x, elementOf_v_lt y, natCast_elementOf x, natCast_elementOf y⟩

theorem secpCurve_negY (x y : ZMod domainP.toNat) : secpCurve.negY x y = -y := by
  simp [WeierstrassCurve.Affine.negY, secpCurve]

/-- No point of the curve has `x = 0`. -/
theorem x_ne_zero (h : secpCurve.Nonsingular x y) : x ≠ 0 := by
  rintro rfl
  have heq := (WeierstrassCurve.Affine.equation_iff ..).1 h.1
  simp only [secpCurve] at heq
  exact seven_not_square ⟨y, by linear_combination -heq⟩

/-- No point of the curve meets INF in its first coordinate (90_conflicts.md C3). -/
theorem x_ne_pointInf_x (h : secpCurve.Nonsingular x y) : elementOf domainP x ≠ pointInf.x := by
  rw [pointInf_eq_pointOf]
  exact mt elementOf_inj.1 (x_ne_zero h)

theorem not_isInf_of_nonsingular (h : secpCurve.Nonsingular x y) :
    ¬((elementOf domainP x).v = 0 ∧ (elementOf domainP y).v = 0) :=
  fun ⟨hx, _⟩ => x_ne_zero h (elementOf_v_eq_zero.1 hx)

/-- The line of Mathlib's slope meets the curve in the point of R230 and R232. -/
theorem represents_linePoint (h₁ : secpCurve.Nonsingular x₁ y₁) (h₂ : secpCurve.Nonsingular x₂ y₂)
    (hxy : ¬(x₁ = x₂ ∧ y₁ = secpCurve.negY x₂ y₂)) {l : ZMod domainP.toNat} (hl : l = secpCurve.slope x₁ x₂ y₁ y₂) :
    Represents (linePoint domainP l x₁ x₂ y₁) (.some x₁ y₁ h₁ + .some x₂ y₂ h₂) := by
  rw [Point.add_some hxy, represents_some_iff, ← hl, linePoint, WeierstrassCurve.Affine.addY, secpCurve_negY,
    WeierstrassCurve.Affine.negAddY, WeierstrassCurve.Affine.addX]
  simp only [secpCurve]
  congr 1 <;> ring

/-! ## The group law -/

theorem pdbl_represents (hc : c.hasCurve = true) {X : secpCurve.Point} (hP : Represents P X) :
    ∃ R, pdbl c P = .ok R ∧ Represents R (X + X) := by
  cases X with
  | zero =>
    obtain rfl := represents_zero_iff.1 hP
    exact ⟨_, pdbl_inf c, by rw [← Point.zero_def, add_zero]; rfl⟩
  | some x y h =>
    obtain rfl := represents_some_iff.1 hP
    by_cases hy : y = 0
    · have hneg : y = secpCurve.negY x y := by rw [secpCurve_negY, hy, neg_zero]
      exact ⟨_, pdbl_of_vertical c (elementOf_v_eq_zero.2 hy), by rw [Point.add_self_of_Y_eq hneg]; rfl⟩
    · have h2 := add_self_ne_zero hc hy
      have hneg : y ≠ secpCurve.negY x y := by rwa [secpCurve_negY, Ne, eq_neg_iff_add_eq_zero]
      refine ⟨_, pdbl_tangent (modulusOf_domainP hc) hy h2, represents_linePoint h h (fun hxy => hneg hxy.2) ?_⟩
      rw [slope_of_Y_ne rfl hneg, secpCurve_negY, sub_neg_eq_add, inverseOf_domainP h2]
      simp only [secpCurve]
      ring

/-- Two curve points with one `x` are equal or opposite. -/
theorem padd_represents_of_x_eq (hc : c.hasCurve = true) (h₁ : secpCurve.Nonsingular x y₁)
    (h₂ : secpCurve.Nonsingular x y₂) :
    ∃ R, padd c (pointOf domainP x y₁) (pointOf domainP x y₂) = .ok R ∧
      Represents R (.some x y₁ h₁ + .some x y₂ h₂) := by
  by_cases hy : y₁ = y₂
  · subst hy
    rw [padd_self]
    exact pdbl_represents hc (represents_some_iff.2 rfl)
  · have hneg := (Y_eq_of_X_eq h₁.1 h₂.1 rfl).resolve_left hy
    exact ⟨_, padd_of_opposite c rfl (mt elementOf_inj.1 hy), by rw [Point.add_of_Y_eq rfl hneg]; rfl⟩

theorem padd_represents_of_x_ne (hc : c.hasCurve = true) (h₁ : secpCurve.Nonsingular x₁ y₁)
    (h₂ : secpCurve.Nonsingular x₂ y₂) (hx : x₁ ≠ x₂) :
    ∃ R, padd c (pointOf domainP x₁ y₁) (pointOf domainP x₂ y₂) = .ok R ∧
      Represents R (.some x₁ y₁ h₁ + .some x₂ y₂ h₂) := by
  refine ⟨_, padd_chord (modulusOf_domainP hc) (mt elementOf_inj.1 hx) (not_isInf_of_nonsingular h₁)
    (not_isInf_of_nonsingular h₂), represents_linePoint h₁ h₂ (fun hxy => hx hxy.1) ?_⟩
  rw [slope_of_X_ne hx, inverseOf_domainP (sub_ne_zero.2 hx), div_eq_mul_inv]

theorem padd_represents (hc : c.hasCurve = true) {X Y : secpCurve.Point} (hP : Represents P X) (hQ : Represents Q Y) :
    ∃ R, padd c P Q = .ok R ∧ Represents R (X + Y) := by
  cases X with
  | zero =>
    obtain rfl := represents_zero_iff.1 hP
    rw [← Point.zero_def, zero_add]
    cases Y with
    | zero =>
      obtain rfl := represents_zero_iff.1 hQ
      exact ⟨_, (padd_self c _).trans (pdbl_inf c), rfl⟩
    | some x y h =>
      obtain rfl := represents_some_iff.1 hQ
      exact ⟨_, padd_of_inf_left c (x_ne_pointInf_x h).symm ⟨rfl, rfl⟩, hQ⟩
  | some x₁ y₁ h₁ =>
    obtain rfl := represents_some_iff.1 hP
    cases Y with
    | zero =>
      obtain rfl := represents_zero_iff.1 hQ
      rw [← Point.zero_def, add_zero]
      exact ⟨_, padd_of_inf_right c (x_ne_pointInf_x h₁) (not_isInf_of_nonsingular h₁) ⟨rfl, rfl⟩, hP⟩
    | some x₂ y₂ h₂ =>
      obtain rfl := represents_some_iff.1 hQ
      by_cases hx : x₁ = x₂
      · subst hx
        exact padd_represents_of_x_eq hc h₁ h₂
      · exact padd_represents_of_x_ne hc h₁ h₂ hx

end Curve

end Sys2Proof.Machine

namespace Sys2Proof

open Machine

/-- Settles O35: on the curve each branch of R230 and R232 is the case of the group law it stands for. -/
theorem pointAdditionIsTheGroupLaw : Obligations.PointAdditionIsTheGroupLaw := fun _ _ _ _ _ hc hP hQ =>
  ⟨padd_represents hc hP hQ, pdbl_represents hc hP⟩

end Sys2Proof

/-! 48_scalar_mul.md: over `p` no iteration of R250 raises, the loop that stops early answers what the full one does,
and on the curve it is the multiple of the group. -/

namespace Sys2Proof.Machine

/-! ## The group law over the domain prime cannot fail -/

/-- Both coordinates reduced and over `p`. -/
abbrev OverDomain (P : Point) : Prop := PointOver (· = domainP) P

theorem isPrime_of_eq_domainP : ∀ m, m = domainP → isPrime m.toNat = true := by
  rintro _ rfl
  exact isPrime_domainP

theorem overDomain_pointInf : OverDomain pointInf := pointOver_pointInf rfl

section OverDomain

variable {c : Cfg} {P Q A B A' B' : Point} {k i n : Nat}

theorem exists_residues (hP : OverDomain P) : ∃ x y, P = pointOf domainP x y := by
  obtain ⟨⟨hx, hxm⟩, hy, hym⟩ := hP
  exact ⟨_, _, eq_pointOf hxm hym (hxm ▸ hx) (hym ▸ hy)⟩

theorem pdbl_overDomain (hc : c.hasCurve = true) (hP : OverDomain P) : ∃ R, pdbl c P = .ok R ∧ OverDomain R := by
  obtain ⟨R, hR⟩ : ∃ R, pdbl c P = .ok R := by
    have := neZero_of_modulusOf (modulusOf_domainP hc)
    obtain ⟨x, y, rfl⟩ := exists_residues hP
    by_cases hy : y = 0
    · exact ⟨_, pdbl_of_vertical c (elementOf_v_eq_zero.2 hy)⟩
    · exact ⟨_, pdbl_tangent (modulusOf_domainP hc) hy (add_self_ne_zero hc hy)⟩
  exact ⟨R, hR, answers_pdbl isPrime_of_eq_domainP rfl hP R hR⟩

theorem padd_overDomain (hc : c.hasCurve = true) (hP : OverDomain P) (hQ : OverDomain Q) :
    ∃ R, padd c P Q = .ok R ∧ OverDomain R := by
  obtain ⟨R, hR⟩ : ∃ R, padd c P Q = .ok R := by
    by_cases hx : P.x = Q.x
    · by_cases hy : P.y = Q.y
      · obtain rfl : P = Q := congrArg₂ Point.mk hx hy
        obtain ⟨R, hR, -⟩ := pdbl_overDomain hc hP
        exact ⟨R, (padd_self c P).trans hR⟩
      · exact ⟨_, padd_of_opposite c hx hy⟩
    · by_cases hP0 : P.x.v = 0 ∧ P.y.v = 0
      · exact ⟨_, padd_of_inf_left c hx hP0⟩
      · by_cases hQ0 : Q.x.v = 0 ∧ Q.y.v = 0
        · exact ⟨_, padd_of_inf_right c hx hP0 hQ0⟩
        · obtain ⟨x₁, y₁, rfl⟩ := exists_residues hP
          obtain ⟨x₂, y₂, rfl⟩ := exists_residues hQ
          exact ⟨_, padd_chord (modulusOf_domainP hc) hx hP0 hQ0⟩
  exact ⟨R, hR, answers_padd isPrime_of_eq_domainP rfl hP hQ R hR⟩

/-! ## The loop of R250 -/

/-- The accumulator after one iteration, `b` the bit of the scalar it reads. -/
def accumulate (c : Cfg) (b : Bool) (A B : Point) : Except ErrorKind Point := if b then padd c A B else .ok A

theorem accumulate_overDomain (hc : c.hasCurve = true) (b : Bool) (hA : OverDomain A) (hB : OverDomain B) :
    ∃ A', accumulate c b A B = .ok A' ∧ OverDomain A' := by
  cases b with
  | true => exact padd_overDomain hc hA hB
  | false => exact ⟨A, rfl, hA⟩

/-- The loop ends when no bit of the scalar is left (92_eei_decisions.md D21). -/
theorem pmulLoop_zero (c : Cfg) (n : Nat) (A B : Point) : pmulLoop c n 0 A B = .ok A := by
  cases n <;> rfl

/-- One iteration, which the loop that stops early may leave out: without bits of `k` the accumulator does not
change. -/
theorem pmulLoop_step (hA : accumulate c (bitAt k 0) A B = .ok A') (hB : pdbl c B = .ok B') :
    pmulLoop c (n + 1) k A B = pmulLoop c n (k / 2) A' B' := by
  by_cases hk : k = 0
  · subst hk
    obtain rfl : A = A' := Except.ok.inj hA
    rw [pmulLoop_zero, Nat.zero_div, pmulLoop_zero]
  · rw [pmulLoop_succ hk, hB]
    rw [accumulate] at hA
    rw [hA, ok_bind, ok_bind]

theorem pmulFullLoop_step (h : pmulFullLoop c k P i = .ok (A, B)) (hA : accumulate c (bitAt k i) A B = .ok A')
    (hB : pdbl c B = .ok B') : pmulFullLoop c k P (i + 1) = .ok (A', B') := by
  cases hb : bitAt k i with
  | true =>
    rw [hb] at hA
    have hadd : padd c A B = .ok A' := hA
    simp only [pmulFullLoop, h, hb, if_true, hadd, hB, ok_bind, pure_eq_ok]
  | false =>
    rw [hb] at hA
    obtain rfl : A = A' := Except.ok.inj hA
    simp only [pmulFullLoop, h, hb, Bool.false_eq_true, if_false, hB, ok_bind, pure_eq_ok]

theorem bitAt_div (k i : Nat) : bitAt (k / 2 ^ i) 0 = bitAt k i := by
  rw [bitAt, bitAt, pow_zero, Nat.div_one]

/-- From iteration `i` on, `n` iterations of either loop leave one accumulator, and none of them raises. -/
theorem pmulLoop_eq_fullLoop (hc : c.hasCurve = true) (h : pmulFullLoop c k P i = .ok (A, B)) (hA : OverDomain A)
    (hB : OverDomain B) (n : Nat) (hk : k < 2 ^ (i + n)) :
    ∃ R D, pmulLoop c n (k / 2 ^ i) A B = .ok R ∧ pmulFullLoop c k P (i + n) = .ok (R, D) ∧ OverDomain R := by
  induction n generalizing i A B with
  | zero =>
    have hdone : k / 2 ^ i = 0 := Nat.div_eq_of_lt hk
    rw [hdone]
    exact ⟨A, B, rfl, h, hA⟩
  | succ n ih =>
    obtain ⟨A', hacc, hA'⟩ := accumulate_overDomain hc (bitAt k i) hA hB
    obtain ⟨B', hdbl, hB'⟩ := pdbl_overDomain hc hB
    rw [pmulLoop_step (by rw [bitAt_div]; exact hacc) hdbl, Nat.div_div_eq_div_mul, ← pow_succ]
    rw [← Nat.add_assoc, Nat.add_right_comm] at hk ⊢
    exact ih (pmulFullLoop_step h hacc hdbl) hA' hB' hk

theorem pmul_of_domain (hx : P.x.m = domainP) (hy : P.y.m = domainP) : pmul c P k = pmulLoop c c.W k pointInf P :=
  if_neg (by simp [hx, hy])

theorem pmul_eq_fullLoop (hc : c.hasCurve = true) (hP : OverDomain P) (hk : k < 2 ^ c.W) :
    ∃ R D, pmul c P k = .ok R ∧ pmulFullLoop c k P c.W = .ok (R, D) ∧ OverDomain R := by
  have h := pmulLoop_eq_fullLoop (i := 0) hc (k := k) rfl overDomain_pointInf hP c.W (by rwa [Nat.zero_add])
  rwa [pow_zero, Nat.div_one, Nat.zero_add, ← pmul_of_domain hP.1.2 hP.2.2] at h

/-! ### The small scalars and the identity -/

theorem pmulLoop_one (hA : padd c A B = .ok A') (hB : pdbl c B = .ok B') : pmulLoop c (n + 1) 1 A B = .ok A' := by
  rw [pmulLoop_step (k := 1) hA hB]
  exact pmulLoop_zero c n A' B'

theorem pmulLoop_two {B'' : Point} (hB : pdbl c B = .ok B') (hA : padd c A B' = .ok A') (hB' : pdbl c B' = .ok B'') :
    pmulLoop c (n + 2) 2 A B = .ok A' := by
  rw [pmulLoop_step (k := 2) rfl hB]
  exact pmulLoop_one hA hB'

theorem pmulLoop_inf (c : Cfg) (n k : Nat) : pmulLoop c n k pointInf pointInf = .ok pointInf := by
  have hacc : ∀ b, accumulate c b pointInf pointInf = .ok pointInf := fun b => by
    cases b with
    | true => exact (padd_self c _).trans (pdbl_inf c)
    | false => rfl
  induction n generalizing k with
  | zero => rfl
  | succ n ih => rw [pmulLoop_step (hacc _) (pdbl_inf c), ih]

end OverDomain

/-! ## The multiple on the curve, R252 -/

section Curve

variable [Fact domainP.toNat.Prime] {c : Cfg} {A B P : Point} {X Y Z : secpCurve.Point}

theorem accumulate_represents (hc : c.hasCurve = true) (hA : Represents A Y) (hB : Represents B Z) (k : Nat) :
    ∃ A', accumulate c (bitAt k 0) A B = .ok A' ∧ Represents A' (Y + (k % 2) • Z) := by
  have hbit : bitAt k 0 = decide (k % 2 = 1) := by rw [bitAt, pow_zero, Nat.div_one]
  rcases Nat.mod_two_eq_zero_or_one k with h | h <;> rw [hbit, h]
  · exact ⟨A, rfl, by rwa [zero_nsmul, add_zero]⟩
  · rw [one_nsmul]
    exact padd_represents hc hA hB

/-- The loop adds the scalar's multiple of the base to the accumulator. -/
theorem pmulLoop_represents (hc : c.hasCurve = true) (hA : Represents A Y) (hB : Represents B Z) {n k : Nat}
    (hk : k < 2 ^ n) : ∃ R, pmulLoop c n k A B = .ok R ∧ Represents R (Y + k • Z) := by
  induction n generalizing k A B Y Z with
  | zero =>
    obtain rfl : k = 0 := by simpa using hk
    exact ⟨A, rfl, by rwa [zero_nsmul, add_zero]⟩
  | succ n ih =>
    obtain ⟨A', hacc, hA'⟩ := accumulate_represents hc hA hB k
    obtain ⟨B', hdbl, hB'⟩ := pdbl_represents hc hB
    have hsum : Y + (k % 2) • Z + (k / 2) • (Z + Z) = Y + k • Z := by
      rw [← two_nsmul, ← mul_nsmul, add_assoc, ← add_nsmul, Nat.mod_add_div]
    rw [pmulLoop_step hacc hdbl, ← hsum]
    exact ih hA' hB' (by rw [pow_succ] at hk; omega)

theorem pmul_represents (hc : c.hasCurve = true) (hP : Represents P X) {k : Nat} (hk : k < 2 ^ c.W) :
    ∃ R, pmul c P k = .ok R ∧ Represents R (k • X) := by
  obtain ⟨x, y, rfl⟩ : ∃ x y, P = pointOf domainP x y := by
    cases X with
    | zero => exact ⟨0, 0, (represents_zero_iff.1 hP).trans pointInf_eq_pointOf⟩
    | some x y h => exact ⟨x, y, represents_some_iff.1 hP⟩
  obtain ⟨R, hR, hrep⟩ := pmulLoop_represents hc (represents_zero_iff.2 rfl) hP hk
  rw [zero_add] at hrep
  exact ⟨R, (pmul_of_domain rfl rfl).trans hR, hrep⟩

end Curve

end Sys2Proof.Machine

namespace Sys2Proof

open Machine

/-- Settles O34: over `p` every iteration answers, so both loops run to the end with one accumulator. -/
theorem pmulCompletesExactlyOverTheDomainPrime : Obligations.PmulCompletesExactlyOverTheDomainPrime := by
  intro s rd ra rb P k hs hr hc hP hk
  refine ⟨fun h => exec_pmul_error hr hc hP hk (if_pos h), fun ⟨hxm, hym⟩ => ?_⟩
  have hPi := hs.points ra P hP
  have hover : OverDomain P := ⟨⟨hPi.1.1, hxm⟩, hPi.2.1, hym⟩
  obtain ⟨R, B, hR, hfull, ⟨hx, hRx⟩, hy, hRy⟩ := pmul_eq_fullLoop hc hover (toNat_sval_lt hk)
  obtain ⟨D, hD, hDover⟩ := pdbl_overDomain hc hover
  have hloop : pmulLoop s.cfg 256 k.toNat pointInf P = .ok R := by
    rw [← hR, pmul_of_domain hxm hym, W_of_hasCurve hc]
  have hdom := modulusOf_domainP hc
  refine ⟨R, B, exec_pmul hr hc hP hk hR, hfull, hR, ⟨⟨hx, hRx ▸ hdom⟩, hy, hRy ▸ hdom⟩, hRx, hRy, ?_, ?_, ?_, ?_⟩
  · rintro rfl
    exact Except.ok.inj (hloop.symm.trans (pmulLoop_zero _ _ _ _))
  · rintro rfl
    obtain ⟨A, hA, -⟩ := padd_overDomain hc overDomain_pointInf hover
    rw [hA, ← hloop]
    exact (pmulLoop_one hA hD).symm
  · rintro rfl
    obtain ⟨A, hA, -⟩ := padd_overDomain hc overDomain_pointInf hDover
    obtain ⟨D', hD', -⟩ := pdbl_overDomain hc hDover
    refine ⟨D, hD, ?_⟩
    rw [hA, ← hloop]
    exact (pmulLoop_two hD hA hD').symm
  · rintro rfl
    exact Except.ok.inj (hloop.symm.trans (pmulLoop_inf _ _ _))

/-- Settles O36: each iteration adds its bit's multiple of the base, which doubles. -/
theorem scalarMultiplicationIsTheGroupMultiple : Obligations.ScalarMultiplicationIsTheGroupMultiple := by
  intro _ s rd ra rb P X k hr hc hP hk hX
  obtain ⟨R, hR, hrep⟩ := pmul_represents hc hX (toNat_sval_lt hk)
  exact ⟨R, exec_pmul hr hc hP hk hR, hrep⟩

end Sys2Proof

/-! 49_system.md and 70_reset_and_hazards.md: NOP, CLRERR, SRST and the platform's reset. -/

namespace Sys2Proof.Machine

section System

variable {s : State} {i : Instr}

theorem err_of_not_running (h : ¬Running s) : s.status.err = true := Bool.eq_true_of_not_eq_false h

/-- A CMD write of a command's own word runs the command (30_encoding.md R86). -/
theorem executeWord_encode (hw : i.wellFormed s.cfg = true) : executeWord (encode i) s = exec i s := by
  simp only [executeWord, decode_eq_ok_iff.2 ⟨rfl, hw⟩]

/-! ## SRST and reset -/

theorem statusWord_cleared : statusWord .cleared = 0 := by decide

theorem viewWord_sWord_resetCore (s : State) (i : SIdx) (j : Fin 8) : viewWord (resetCore s) (.sWord i j) = none :=
  words_resetCore s i j

theorem viewWord_fWord_resetCore (s : State) (i : FIdx) (part : FPart) (j : Fin 8) :
    viewWord (resetCore s) (.fWord i part j) = none := by
  rw [viewWord, fval_resetCore, Option.map_none]

theorem viewWord_pWord_resetCore (s : State) (i : PIdx) (part : PPart) (j : Fin 8) :
    viewWord (resetCore s) (.pWord i part j) = none := by
  rw [viewWord, pval_resetCore, Option.map_none]

theorem svalidWord_resetCore (s : State) : svalidWord (resetCore s) = 0 := by
  simp only [svalidWord, sval_resetCore]
  decide

theorem fvalidWord_resetCore (s : State) : fvalidWord (resetCore s) = 0 := by
  simp only [fvalidWord, fval_resetCore]
  decide

theorem pvalidWord_resetCore (s : State) : pvalidWord (resetCore s) = 0 := by
  simp only [pvalidWord, pval_resetCore]
  split
  · decide
  · rfl

/-! ## CLRERR -/

/-- Outside the fault state there is nothing to clear (10_state.md R28, R29). -/
theorem clearFault_of_running (hs : MachineInv s) (hr : Running s) : clearFault s = s := by
  obtain ⟨hdrop, hcode, hecmd⟩ := hs.clean hr
  have hclear : clearFault s =
      { s with
        status := { s.status with err := s.status.err, drop := s.status.drop, ecode := s.status.ecode }
        ecmd := s.ecmd } := by
    rw [hr, hdrop, hcode, hecmd]
    rfl
  exact hclear

/-- The two flags of R34 are all that CLRERR leaves in STATUS. -/
theorem statusWord_clearFault (s : State) :
    statusWord (clearFault s).status =
      statusWord ⟨false, false, (statusWord s.status).getLsbD 2, (statusWord s.status).getLsbD 3, 0⟩ := by
  obtain ⟨-, -, hprime, heq, -⟩ := statusWord_fields s.status
  rw [hprime, heq]
  rfl

end System

end Sys2Proof.Machine

namespace Sys2Proof

open Machine

/-- Settles O1: all three put `resetCore s`, in which every register is absent. -/
theorem srstAndResetPutTheResetState : Obligations.SrstAndResetPutTheResetState :=
  ⟨by decide, fun s => ⟨resetCore s, rfl, executeWord_encode (i := .srst) rfl, rfl, rfl, statusWord_cleared, rfl,
    fun i => ⟨sval_resetCore s i, fun j => ⟨words_resetCore s i j, viewWord_sWord_resetCore s i j⟩⟩,
    fun i => ⟨fval_resetCore s i, viewWord_fWord_resetCore s i⟩,
    fun i => ⟨pval_resetCore s i, viewWord_pWord_resetCore s i⟩,
    svalidWord_resetCore s, fvalidWord_resetCore s, pvalidWord_resetCore s,
    rfl, fun hc => congrArg configWord hc, fun _ _ => rfl, rfl, rfl, rfl, rfl, rfl, rfl, rfl, rfl⟩⟩

/-- Settles O3: the body of NOP answers the state as it is; while faulted it is not run. -/
theorem nopChangesNothing : Obligations.NopChangesNothing := by
  refine ⟨by decide, fun s => ⟨fun hr => ?_, fun hf => ?_⟩⟩
  · have hexec : exec .nop s = .next s := exec_completes id hr rfl rfl
    exact ⟨hexec, (executeWord_encode (i := .nop) rfl).trans hexec⟩
  · have hexec : exec .nop s = .next (withDrop s) := exec_dropped id (err_of_not_running hf)
    exact ⟨hexec, (executeWord_encode (i := .nop) rfl).trans hexec⟩

/-- Settles O4: CLRERR is `clearFault` in every state, and of STATUS it keeps PRIME and EQ. -/
theorem clrerrLeavesTheFaultState : Obligations.ClrerrLeavesTheFaultState := by
  refine ⟨by decide, fun s => ⟨rfl, executeWord_encode (i := .clrerr) rfl,
    fun hs hr => congrArg _ (clearFault_of_running hs hr), fun h t ht => ?_, fun h t ht => ?_⟩⟩ <;>
    obtain rfl : clearFault s = t := Host.Outcome.next.inj ht
  · rw [statusWord_clearFault, h]
    exact ⟨by decide, rfl⟩
  · rw [statusWord_clearFault, h]
    decide

/-- Settles O42: a legal word runs a command, which answers; an illegal one is dropped or recorded. -/
theorem everyCommandTerminates : Obligations.EveryCommandTerminates := by
  intro w s
  unfold executeWord
  split
  · exact exec_eq_next _ s
  · exact ⟨_, rfl⟩

end Sys2Proof

/-! 60_exceptions.md: what a command can raise, when it is dropped, and what an error changes. -/

namespace Sys2Proof.Machine

/-! ## The errors of a command's pseudocode -/

/-- What the unit a command calls can raise, with the two errors of the group law that PMUL would pass on (log
entry 9). -/
def unitErrors : Instr → List ErrorKind
  | .fnew _ _ _ => [.notPrime]
  | .fadd _ _ _ | .fsub _ _ _ | .fmul _ _ _ => [.fieldMismatch]
  | .finv _ _ => [.notInvertible]
  | .fdiv _ _ _ | .pdbl _ _ | .padd _ _ _ => [.fieldMismatch, .notInvertible]
  | .pmul _ _ _ => [.curveMismatch, .fieldMismatch, .notInvertible]
  | _ => []

/-- R276: `Uninit` when a source is invalid, and otherwise only the errors of the unit. -/
def ChecksSources {α : Type} (valid : Bool) (l : List ErrorKind) (x : Except ErrorKind α) : Prop :=
  (valid = false → x = .error .uninit) ∧ (valid = true → ∀ k, x = .error k → k ∈ l)

section Sources

variable {α β γ : Type} {l : List ErrorKind}

theorem ok_raises_mem (c : γ) : ∀ k, (.ok c : Except ErrorKind γ) = .error k → k ∈ l := nofun

theorem checksSources_ok (c : γ) : ChecksSources true l (.ok c) := ⟨nofun, fun _ => ok_raises_mem c⟩

theorem checksSources_one {r : Option α} {f : α → Except ErrorKind γ} (hf : ∀ a k, f a = .error k → k ∈ l) :
    ChecksSources r.isSome l (sourceOf r >>= f) := by
  cases r with
  | none => exact ⟨fun _ => rfl, nofun⟩
  | some a => exact ⟨nofun, fun _ => hf a⟩

theorem checksSources_two {r : Option α} {q : Option β} {f : α → β → Except ErrorKind γ}
    (hf : ∀ a b k, f a b = .error k → k ∈ l) :
    ChecksSources (r.isSome && q.isSome) l (sourceOf r >>= fun a => sourceOf q >>= f a) := by
  cases r with
  | none => exact ⟨fun _ => rfl, nofun⟩
  | some a => exact checksSources_one (hf a)

/-- The pseudocode writes what the unit answers, so it raises what the unit raises. -/
theorem unit_raises_mem {x : Except ErrorKind α} {f : α → γ} (hx : ∀ k, x = .error k → k ∈ l) :
    ∀ k, (x >>= fun r => .ok (f r)) = .error k → k ∈ l :=
  bind_raises hx fun _ => ok_raises_mem _

end Sources

theorem mem_of_groupLawError {k : ErrorKind} (h : GroupLawError k) : k ∈ [.fieldMismatch, .notInvertible] :=
  List.mem_cons.2 (h.imp_right List.mem_singleton.2)

/-- Every command checks its sources before its unit runs. -/
theorem bodyOf_checksSources (s : State) (i : Instr) :
    ChecksSources (sourcesValid s i) (unitErrors i) (bodyOf s i) := by
  cases i with
  | nop | clrerr | srst | pgen _ | pinf _ => exact checksSources_ok _
  | isprime _ | pmov _ _ | pgetx _ _ | pgety _ _ | fmov _ _ | fzero _ _ | fone _ _ =>
    exact checksSources_one fun _ => ok_raises_mem _
  | feq _ _ | fexp _ _ _ | pset _ _ _ | peq _ _ => exact checksSources_two fun _ _ => ok_raises_mem _
  | fsqr _ _ => exact checksSources_one fun _ => unit_raises_mem fun _ h => absurd rfl (fmul_error h).1
  | finv _ _ => exact checksSources_one fun _ => unit_raises_mem fun _ h => List.mem_singleton.2 (finv_error h).2
  | fadd _ _ _ => exact checksSources_two fun _ _ => unit_raises_mem fun _ h => List.mem_singleton.2 (fadd_error h).2
  | fsub _ _ _ => exact checksSources_two fun _ _ => unit_raises_mem fun _ h => List.mem_singleton.2 (fsub_error h).2
  | fmul _ _ _ => exact checksSources_two fun _ _ => unit_raises_mem fun _ h => List.mem_singleton.2 (fmul_error h).2
  | fdiv _ _ _ => exact checksSources_two fun _ _ => unit_raises_mem fun _ h => mem_of_groupLawError (fdiv_error h)
  | fnew _ _ _ => exact checksSources_two fun _ _ => unit_raises_mem fun _ h => List.mem_singleton.2 (fnew_error.1 h).2
  | pnew _ _ _ =>
    refine checksSources_two fun _ _ => ?_
    simp only [fnew_domainP, ok_bind]
    exact ok_raises_mem _
  | pdbl _ _ => exact checksSources_one fun _ => unit_raises_mem fun _ h => mem_of_groupLawError (pdbl_error h)
  | padd _ _ _ => exact checksSources_two fun _ _ => unit_raises_mem fun _ h => mem_of_groupLawError (padd_error h)
  | pmul _ _ _ =>
    exact checksSources_two fun _ _ => unit_raises_mem fun _ h =>
      List.mem_cons.2 ((pmul_error h).imp_right mem_of_groupLawError)

section Commands

variable {s t : State} {i : Instr} {k : ErrorKind} {w : Word32}

theorem bodyOf_error_cases (h : bodyOf s i = .error k) :
    (sourcesValid s i = false ∧ k = .uninit) ∨ (sourcesValid s i = true ∧ k ∈ unitErrors i) := by
  obtain ⟨hinvalid, hvalid⟩ := bodyOf_checksSources s i
  cases hv : sourcesValid s i with
  | false => exact .inl ⟨rfl, Except.error.inj (h.symm.trans (hinvalid hv))⟩
  | true => exact .inr ⟨rfl, hvalid hv k h⟩

theorem uninit_not_mem_unitErrors (i : Instr) : .uninit ∉ unitErrors i := by
  cases i <;> simp [unitErrors]

theorem illegalCommand_not_mem_unitErrors (i : Instr) : .illegalCommand ∉ unitErrors i := by
  cases i <;> simp [unitErrors]

theorem uninit_mem_mayRaise (h : sourcesValid s i = false) : .uninit ∈ mayRaise i := by
  cases i <;> first | exact List.mem_cons_self | cases h

/-- R271 lists `Uninit` and the unit's errors; for PMUL it lists fewer. -/
theorem mem_mayRaise_of_unitErrors (h : k ∈ unitErrors i) : k ∈ mayRaise i ∨ ∃ rd ra rb, i = .pmul rd ra rb := by
  cases i with
  | pmul rd ra rb => exact .inr ⟨rd, ra, rb, rfl⟩
  | nop | clrerr | srst | pgen _ | pinf _ => exact .inl h
  | _ => exact .inl (List.mem_cons_of_mem _ h)

/-- Over `p` no iteration raises, so PMUL does not pass on an error of the group law. -/
theorem bodyOf_pmul_error {rd ra : PIdx} {rb : SIdx} (hs : MachineInv s) (hc : s.cfg.hasCurve = true)
    (hv : sourcesValid s (.pmul rd ra rb) = true) (h : bodyOf s (.pmul rd ra rb) = .error k) : k = .curveMismatch := by
  obtain ⟨hP, hn⟩ := Bool.and_eq_true_iff.1 hv
  obtain ⟨P, hP⟩ := Option.isSome_iff_exists.1 hP
  obtain ⟨n, hn⟩ := Option.isSome_iff_exists.1 hn
  rw [bodyOf_pmul hP hn] at h
  by_cases hm : P.x.m ≠ domainP ∨ P.y.m ≠ domainP
  · have herr : pmul s.cfg P n.toNat = .error .curveMismatch := if_pos hm
    rw [herr] at h
    exact (Except.error.inj h).symm
  · obtain ⟨hx, hy⟩ := not_or.1 hm
    obtain ⟨⟨hxv, -⟩, hyv, -⟩ := hs.points ra P hP
    obtain ⟨R, -, hR, -⟩ :=
      pmul_eq_fullLoop hc ⟨⟨hxv, not_not.1 hx⟩, hyv, not_not.1 hy⟩ (toNat_sval_lt hn)
    rw [hR] at h
    cases h

/-- R271 in a state that meets the invariant. -/
theorem bodyOf_error_mem_mayRaise (hs : MachineInv s) (hw : i.wellFormed s.cfg = true) (h : bodyOf s i = .error k) :
    k ∈ mayRaise i := by
  rcases bodyOf_error_cases h with ⟨hv, rfl⟩ | ⟨hv, hk⟩
  · exact uninit_mem_mayRaise hv
  · rcases mem_mayRaise_of_unitErrors hk with hk | ⟨rd, ra, rb, rfl⟩
    · exact hk
    · rw [bodyOf_pmul_error hs hw hv h]
      exact List.mem_cons_of_mem _ List.mem_cons_self

/-! ## What a command does outside the fault state -/

theorem running_of_bodyOf (hr : Running s) (h : bodyOf s i = .ok t) : Running t := by
  have hd := bodyOf_writes_destination h
  split at hd
  · rwa [hd]
  · obtain ⟨_, rfl⟩ := hd; exact hr
  · obtain ⟨_, rfl⟩ := hd; exact hr
  · obtain ⟨_, rfl⟩ := hd; exact hr
  · obtain ⟨_, rfl⟩ := hd; exact hr
  · rw [hd]; rfl
  · rw [hd]; rfl

theorem exec_of_running (hr : Running s) (hw : i.wellFormed s.cfg = true) (h : exec i s = .next t) :
    Running t ∨ ∃ k, bodyOf s i = .error k ∧ t = withError s k.code (encode i) := by
  rcases exec_cases h with ⟨rfl, rfl⟩ | ⟨rfl, rfl⟩ | ⟨-, he, -⟩ | ⟨-, -, hw', -⟩ | ⟨-, -, -, k, hk, rfl⟩ | ⟨-, -, -, hb⟩
  · exact .inl rfl
  · exact .inl rfl
  · rw [hr] at he; cases he
  · rw [hw] at hw'; cases hw'
  · exact .inr ⟨k, hk, rfl⟩
  · exact .inl (running_of_bodyOf hr hb)

/-- CLRERR and SRST exist in every configuration. -/
theorem not_alwaysExecuted_of_absent {c : Cfg} (h : i.wellFormed c = false) : ¬alwaysExecuted i := by
  cases i <;> first | exact id | cases h

theorem code_injective : Function.Injective ErrorKind.code := by
  intro a b
  cases a <;> cases b <;> decide

/-- An error recorded by a command word comes from the pseudocode of its command, or the word has none. -/
theorem executeWord_of_running (hr : Running s) (h : executeWord w s = .next t) :
    Running t ∨
    (∃ i k, decode s.cfg w = .ok i ∧ bodyOf s i = .error k ∧ t = withError s k.code w) ∨
    (∃ e, decode s.cfg w = .error e) ∧ t = withError s ErrorKind.illegalCommand.code w := by
  unfold executeWord at h
  split at h
  · next i hd =>
    obtain ⟨rfl, hw⟩ := decode_eq_ok_iff.1 hd
    rcases exec_of_running hr hw h with ht | ⟨k, hk, rfl⟩
    · exact .inl ht
    · exact .inr (.inl ⟨i, k, hd, hk, rfl⟩)
  · next e hd =>
    rw [hr] at h
    exact .inr (.inr ⟨⟨e, hd⟩, (Host.Outcome.next.inj h).symm⟩)

/-! ## While faulted -/

/-- R279: only the words of CLRERR and SRST are executed. -/
theorem executeWord_of_faulted (hf : ¬Running s) (hclr : w ≠ encode .clrerr) (hsrst : w ≠ encode .srst) :
    executeWord w s = .next (withDrop s) := by
  have he := err_of_not_running hf
  unfold executeWord
  split
  · next i hd =>
    obtain ⟨rfl, -⟩ := decode_eq_ok_iff.1 hd
    refine exec_dropped (fun ha => ?_) he
    cases i <;> first | exact ha | exact hclr rfl | exact hsrst rfl
  · rw [he]
    rfl

end Commands

end Sys2Proof.Machine

namespace Sys2Proof

open Machine

/-- Settles O37: a dropped word reaches no command; reads and S writes do not look at STATUS. -/
theorem commandsAreDroppedWhileFaulted : Obligations.CommandsAreDroppedWhileFaulted := fun _ hf =>
  ⟨fun _ hclr hsrst => executeWord_of_faulted hf hclr hsrst, fun _ _ => hostRead_of_some,
    fun i j _ hj => hostWrite_sWord (locate_addressOf (l := .sWord i j) hj)⟩

/-- Settles O38: no pseudocode raises IllegalCommand, so only a word without a command records it. -/
theorem illegalWordsRaiseIllegalCommand : Obligations.IllegalWordsRaiseIllegalCommand := by
  intro s w hr
  refine ⟨fun ⟨e, he⟩ => ?_, fun ⟨i, hi⟩ t h ⟨herr, hcode⟩ => ?_⟩
  · simp only [executeWord, he, hr]
    rfl
  · rcases executeWord_of_running hr h with ht | ⟨i', k, -, hk, rfl⟩ | ⟨⟨e, he⟩, -⟩
    · rw [ht] at herr; cases herr
    · obtain rfl : k = .illegalCommand := code_injective hcode
      rcases bodyOf_error_cases hk with ⟨-, hk⟩ | ⟨-, hk⟩
      · cases hk
      · exact illegalCommand_not_mem_unitErrors i' hk
    · rw [hi] at he; cases he

/-- Settles O39: the sources are read first, and no unit raises Uninit. -/
theorem invalidSourcesRaiseUninit : Obligations.InvalidSourcesRaiseUninit := by
  intro i s hr hw
  refine ⟨fun hv => ?_, fun hv t h ⟨herr, hcode⟩ => ?_⟩
  · have hbody := (bodyOf_checksSources s i).1 hv
    have ha : ¬alwaysExecuted i := fun ha => by cases i <;> first | exact ha | cases hv
    exact exec_withError .uninit ha hr hw hbody
  · rcases exec_of_running hr hw h with ht | ⟨k, hk, rfl⟩
    · rw [ht] at herr; cases herr
    · obtain rfl : k = .uninit := code_injective hcode
      exact uninit_not_mem_unitErrors i ((bodyOf_checksSources s i).2 hv _ hk)

/-- Settles O40: outside the fault state an error is recorded in the state before the word; inside it a word sets DROP
at most. -/
theorem errorsArePrecise : Obligations.ErrorsArePrecise := by
  intro w s t h
  refine ⟨fun hr herr => ?_, fun hf hclr hsrst => ?_⟩
  · obtain ⟨k, rfl⟩ : ∃ k : ErrorKind, t = withError s k.code w := by
      rcases executeWord_of_running hr h with ht | ⟨-, k, -, -, ht⟩ | ⟨-, ht⟩
      · rw [ht] at herr; cases herr
      · exact ⟨k, ht⟩
      · exact ⟨_, ht⟩
    exact ⟨⟨k, rfl⟩, fun hs => (hs.clean hr).1⟩
  · obtain rfl := Host.Outcome.next.inj ((executeWord_of_faulted hf hclr hsrst).symm.trans h)
    exact ⟨rfl, rfl, hf⟩

/-- Settles O41: the errors of the pseudocode are those of the row; a command that is absent is illegal. -/
theorem commandsRaiseOnlyTheirErrors : Obligations.CommandsRaiseOnlyTheirErrors := by
  intro i s t hs hr h
  refine ⟨fun hw herr => ?_, fun hw => ?_⟩
  · rcases exec_of_running hr hw h with ht | ⟨k, hk, ht⟩
    · rw [ht] at herr; cases herr
    · exact ⟨k, bodyOf_error_mem_mayRaise hs hw hk, ht⟩
  · exact Host.Outcome.next.inj (h.symm.trans (exec_absent (not_alwaysExecuted_of_absent hw) hr hw))

end Sys2Proof
